-- ==== Sys2Proof/Word.lean ====
section
/-! DEFINITION. The word types of the framer (00_scope.md rule R9): bytes, 32-bit fields, the 48-bit
command word, byte sequences. Lengths of sequences are natural numbers. -/

namespace Sys2Proof

/-- `u8` (R9). -/
abbrev Byte := BitVec 8

/-- `u32` (R9): every multi-byte field of the container is one, unsigned. -/
abbrev Word := BitVec 32

/-- The command word written to S11 (R102). -/
abbrev CmdWord := BitVec 48

/-- `bytes` (R9): a finite sequence of `u8`. -/
abbrev Bytes := List Byte

end Sys2Proof
end

