-- ==== Sys2Proof/Config.lean ====
section
/-! DEFINITION. What an implementation fixes: the parameters of 00_scope.md rule R7 as fields of one configuration (their
values stand in Machine/Params.lean), and the free values, which nothing in the model fixes. No free value has a body, so
no proof can see one. -/

namespace Sys2Proof

/-! The parameters. -/

/-- A checksum function `CK = (CK_INIT, CkStep, CkFinal)` (R150 to R153, decision D5). -/
structure Checksum where
  /-- `CK_INIT` (R151). -/
  init : Word
  /-- `CkStep`, one byte folded in (R152). -/
  step : Word → Byte → Word
  /-- `CkFinal`, the value that goes on the wire (R153). -/
  final : Word → Word

/-- `CkUpdate` (R152): the left fold of the one-byte step, first byte first. -/
def Checksum.update (ck : Checksum) (s : Word) (b : Bytes) : Word := b.foldl ck.step s

/-- The registers S0 to S11 (R21). -/
inductive Register where
  | status
  | mode
  | phase
  | flags
  | method
  | level
  | blockSize
  | ulen
  | slen
  | ckacc
  | ckrx
  | cmd
  deriving DecidableEq, Repr

/-- The errors (R261). -/
inductive ErrorClass where
  | ioError
  | formatError
  | truncatedStreamError
  | corruptDataError
  | checksumError
  | commandError
  deriving DecidableEq, Repr

/-- The layout of the command word (R102): the lowest bit of each field. -/
structure CommandLayout where
  op : Nat
  level : Nat
  blockSize : Nat
  deriving DecidableEq, Repr

/-- The parameters the source leaves to the implementation (R7), a field each. -/
structure Config where
  /-- The checksum function (R150, U1). -/
  ck : Checksum
  /-- `LEVEL_FAST` (U2). -/
  levelFast : Byte
  /-- `LEVEL_BEST` (U2). -/
  levelBest : Byte
  /-- `STAGE_CAP(bs)` (R40, U4). -/
  stageCap : Nat → Nat
  /-- `PHYS_STAGE` (R42, U5). -/
  physStage : Nat
  /-- `EOS_LEN`, the bytes of the end-of-stream marker (R98, decision D6). -/
  eosLen : Nat
  /-- The error code numbers (R261, decision D10). -/
  errorNumber : ErrorClass → Nat
  /-- The register numbers (R21, decision D2). -/
  registerNumber : Register → Nat
  /-- The layout of the command word (R102, decision D3). -/
  command : CommandLayout

/-! The free values. -/

/-- The codec's answer to `CodecCompress(lv, b)` (R241, U3): a byte sequence of unspecified size, a function of the
arguments alone (R240, U28). It answers every call the codec table of State does not list (notes/assumptions/4.md). -/
opaque Config.compress : Byte → Bytes → Bytes

/-- The codec's answer to `CodecDecompress(p, n)` (R243): `some d` for `Ok(d)`, `none` for `Fail`. It answers every
call the codec table of State does not list (notes/assumptions/4.md). -/
opaque Config.decompress : Bytes → Word → Option Bytes

/-- How many bytes of staging memory are built beyond the least number the spec allows: `PHYS_STAGE` is OPEN, at
least `STAGE_CAP(BS_MAX)` (R7, R42, U5). -/
opaque Config.stageBeyondMin : Nat

/-- What a host read of a register other than STATUS, MODE and PHASE returns while the framer is busy (R44, U20):
any value. The first argument is State's draw counter, the second the register's number. -/
opaque Config.busyRead : Nat → Nat → Word

end Sys2Proof
end

