-- ==== Sys2Proof/Machine/Params.lean ====
section
/-! DEFINITION. The constants of 00_scope.md rule R6 and the parameters of rule R7 with the values the spec decides. -/

namespace Sys2Proof.Machine

/-- `MAGIC`, the container signature (R6, R93). -/
def magic : Bytes := [0x00, 0xE9, 0x4C, 0x5A, 0x4F, 0xFF, 0x1A]

/-- `METHOD_LZO` (R6). -/
def methodLzo : Byte := 1

/-- `ENC_FLAGS`, the flags word every Encode operation writes (R6). -/
def encFlags : Word := 1

/-- `BS_MIN`, the least block size Decode accepts (R6). -/
def bsMin : Nat := 1024

/-- `BS_MAX`, the greatest block size Decode accepts (R6). -/
def bsMax : Nat := 8388608

/-! The values of the parameters of R7. -/

/-- The modulus of R156. -/
def ckModulus : Nat := 65521

/-- `CkStep` of Adler-32 (R156): `a` is the low half, `b` the high half, and the sums are formed in naturals before the
modulus. -/
def adlerStep (s : Word) (x : Byte) : Word :=
  let a := ((s.extractLsb' 0 16).toNat + x.toNat) % ckModulus
  let b := ((s.extractLsb' 16 16).toNat + a) % ckModulus
  BitVec.ofNat 16 b ++ BitVec.ofNat 16 a

/-- Adler-32, the value the spec decides for CK (R156, decision D5); from general knowledge (notes/assumptions/2.md). -/
def adler32 : Checksum where
  init := 0x00000001
  step := adlerStep
  final := id

/-- The formula of R40 (decision D13): integer division, no wrap-around. -/
def conservativeCap (bs : Nat) : Nat := bs + bs / 16 + 64 + 3

/-- The error code numbers (R261). -/
def errorNumberOf : ErrorClass → Nat
  | .ioError => 1
  | .formatError => 2
  | .truncatedStreamError => 3
  | .corruptDataError => 4
  | .checksumError => 5
  | .commandError => 6

/-- The register numbers (R21). -/
def registerNumberOf : Register → Nat
  | .status => 0
  | .mode => 1
  | .phase => 2
  | .flags => 3
  | .method => 4
  | .level => 5
  | .blockSize => 6
  | .ulen => 7
  | .slen => 8
  | .ckacc => 9
  | .ckrx => 10
  | .cmd => 11

/-- The configuration: each parameter of R7 with the value the spec decides, PHYS_STAGE with the free number it leaves.
The checksum and the levels are from general knowledge (notes/assumptions/2.md). -/
def config : Config where
  ck := adler32
  levelFast := 1
  levelBest := 9
  stageCap := conservativeCap
  physStage := conservativeCap bsMax + Config.stageBeyondMin
  eosLen := 8
  errorNumber := errorNumberOf
  registerNumber := registerNumberOf
  command := ⟨40, 32, 0⟩

/-! The parameters by the spec's names: all the machine uses of them. -/

/-- `CK_INIT` (R151). -/
def ckInit : Word := config.ck.init

/-- `CkStep` (R152). -/
def ckStep (s : Word) (x : Byte) : Word := config.ck.step s x

/-- `CkUpdate` (R152). -/
def ckUpdate (s : Word) (b : Bytes) : Word := config.ck.update s b

/-- `CkFinal` (R153). -/
def ckFinal (s : Word) : Word := config.ck.final s

/-- `LEVEL_FAST` (R7). -/
def levelFast : Byte := config.levelFast

/-- `LEVEL_BEST` (R7). -/
def levelBest : Byte := config.levelBest

/-- The two allowed level bytes (R132). -/
def levelAllowed (lv : Byte) : Bool := lv == levelFast || lv == levelBest

/-- `STAGE_CAP(bs)`, the staging capacity of a Decode (R7, R40). -/
def stageCapOf (bs : Nat) : Nat := config.stageCap bs

/-- The least staging memory the spec allows to be built: `STAGE_CAP(BS_MAX) = 8912963` (R7, R42). -/
def physStageMin : Nat := stageCapOf bsMax

/-- `PHYS_STAGE` (R7, R42). -/
def physStage : Nat := config.physStage

/-- `block_size <= PHYS_STAGE` (R132). The first disjunct follows from the second (R42); it lets a size every framer
can hold be decided without the open parameter. -/
def fitsPhysStage (bs : Word) : Bool := decide (bs.toNat ≤ physStageMin) || decide (bs.toNat ≤ physStage)

/-- `EOS_LEN` (R7, R98). -/
def eosLen : Nat := config.eosLen

/-- The bytes of the end-of-stream marker behind its first length (R98, R226). -/
def eosRest : Nat := eosLen - 4

end Sys2Proof.Machine
end

