-- ==== Sys2Proof/Machine/State.lean ====
section
/-! DEFINITION. The state of one framer (10_state.md) with the far ends of its ports, which a model carries beside it
(R20), as plain data; why a step can stop; the state after reset (R50). -/

namespace Sys2Proof.Machine

/-- MODE (R24). The value 3 is never written and has no constructor. -/
inductive Mode where
  | none
  | encode
  | decode
  deriving DecidableEq, Repr

/-- PHASE, the framer's program counter (R25). The values 18 to 31 are never written and have no constructor. -/
inductive Phase where
  | idle
  | eHdr
  | eInit
  | eRead
  | eBlock
  | eEos
  | eTrailer
  | dMagic
  | dHdr
  | dAlloc
  | dUlen
  | dSlen
  | dData
  | dBlock
  | dEos
  | dTrailer
  | done
  | failed
  deriving DecidableEq, Repr

/-- An error with its sub-cause: the pairs (ERRCODE, ERRINFO) that are ever written (R261, R262). -/
inductive Cause where
  | ioInFail
  | ioOutFail
  | ioUnexpectedEoi
  | formatBadMagic
  | formatBadMethod
  | formatBadBlockSize
  | truncatedShortBlock
  | corruptCodecFail
  | corruptLengthMismatch
  | corruptStageOversize
  | checksumMismatch
  | commandBadOp
  | commandBadLevel
  | commandZeroBlockSize
  | commandBlockSizeTooBig
  deriving DecidableEq, Repr

/-- The staging memory (R40): the cells that hold a byte other than 0, addresses strictly rising. -/
abbrev Memory := List Host.Cell

/-- What the far end of IN will do next (R65): deliver a byte, report a failure, or never answer (U18). The end of the
list is the end of the input. -/
inductive InEvent where
  | byte (b : Byte)
  | fail
  | stall
  deriving DecidableEq, Repr

/-- What the far end of OUT will answer to a coming write of at least one byte (R68): take all of it, report a failure
after `written` bytes of it, or never answer (U18). Behind the last listed answer every write is taken. -/
inductive OutAnswer where
  | ok
  | fail (written : Nat)
  | stall
  deriving DecidableEq, Repr

/-- What is known of the codec on the CODEC port: a table of some of its answers. Every other answer is the free
function of Config (R240; notes/assumptions/4.md). No step changes it. -/
structure Codec where
  compress : List ((Byte × Bytes) × Bytes)
  decompress : List ((Bytes × Word) × Option Bytes)
  deriving DecidableEq, Repr

/-- The registers the host can read, S0 to S10 (R21, R44); S11 is write-only. -/
inductive ReadReg where
  | status
  | mode
  | phase
  | flags
  | method
  | level
  | blockSize
  | ulen
  | slen
  | ckacc
  | ckrx
  deriving DecidableEq, Repr

/-- What the host, and through it the owner of the far ends of the ports, does between two steps of the framer (R306). -/
inductive HostMove where
  /-- Nothing: the framer takes its step. -/
  | run
  /-- Write a word to S11 (R130). -/
  | command (w : CmdWord)
  /-- Read a register (R44). -/
  | read (r : ReadReg)
  /-- The far end of IN now holds this: a stream is attached (R305), grows, or is made to fail (R140). While busy:
  notes/assumptions/17.md. -/
  | driveIn (evs : List InEvent)
  /-- The far end of OUT will answer so: for instance it is made to fail (R140). -/
  | driveOut (answers : List OutAnswer)
  /-- A new sink is attached to OUT (R305). While busy: notes/assumptions/17.md. -/
  | attachOut (answers : List OutAnswer)
  /-- Hardware reset (R300); `cut` is how many bytes of a port call in flight had crossed (R301). -/
  | reset (cut : Nat)
  deriving DecidableEq, Repr

/-- What an internal operation or a port call that is run on its own returns (R153, R154, R241, R243). -/
inductive Returned where
  | nothing
  | word (v : Word)
  | truth (t : Bool)
  | bytes (b : Bytes)
  | codecFail
  deriving DecidableEq, Repr

/-- The state. The first sixteen fields are the framer's own (R21, R40); STATUS is `ckchk` and `err` with its views of
PHASE (R30). The next five are the far ends of the ports and the host's coming moves (R20, R15); the last three are the
model's own (notes/assumptions/5.md, 6.md). -/
structure State where
  /-- S0 STATUS bit 3, `CKCHK` (R30, R31). -/
  ckchk : Bool
  /-- S0 STATUS `ERRCODE` and `ERRINFO` (R30): none is 0 and 0. -/
  err : Option Cause
  /-- S1 MODE (R24). -/
  mode : Mode
  /-- S2 PHASE (R25). -/
  phase : Phase
  /-- S3 FLAGS. -/
  flags : Word
  /-- S4 METHOD. -/
  method : Byte
  /-- S5 LEVEL. -/
  level : Byte
  /-- S6 BLOCK_SIZE. -/
  blockSize : Word
  /-- S7 ULEN. -/
  ulen : Word
  /-- S8 SLEN. -/
  slen : Word
  /-- S9 CKACC, the integrity accumulator (R35). -/
  ckacc : Word
  /-- S10 CKRX (R37). -/
  ckrx : Word
  /-- S11 CMD: a word the host has written and the framer has not yet taken; otherwise it holds no value (R50). -/
  cmd : Option CmdWord
  /-- STAGE (R40). -/
  stage : Memory
  /-- IN: what has not been consumed. -/
  inp : List InEvent
  /-- OUT: what has been written. -/
  out : Bytes
  /-- OUT: what its far end will answer. -/
  outAns : List OutAnswer
  /-- CODEC: what is known of its answers. -/
  codec : Codec
  /-- HOST: its coming moves, in order. Behind the last the framer runs. -/
  host : List HostMove
  /-- What the host's last read returned, zero-extended (on the host's side). -/
  hostData : Word
  /-- What the last internal operation or port call run on its own returned. -/
  ret : Returned
  /-- How many unspecified reads have been answered: the index into `Config.busyRead`. -/
  draws : Nat
  deriving DecidableEq, Repr

/-- Why the machine stops. -/
inductive Fault where
  /-- An access to STAGE outside `0 .. StageCap - 1`, where no byte exists (R62). Raised by memRead and memWrite; no run
  of the framer reaches one (R62). Safe: the model stops where the hardware has no behaviour. -/
  | stageOutOfRange
  deriving DecidableEq, Repr

/-- Why an operation has no meaning in a state. -/
inductive Refusal where
  /-- The operation has no meaning in the model yet. Raised by no arm of exec. Safe. -/
  | notModelled (mnemonic : String)
  /-- A record run in a phase at which the framer neither emits nor expects it (R105): the format gives it no meaning
  there. Raised by the meanings of the five records; no step reaches it. Safe. -/
  | outOfPosition
  deriving DecidableEq, Repr

/-- The outcome of a meaning or a step. -/
abbrev Result := Host.Outcome State Fault Refusal

/-- After hardware reset, with nothing on the ports and a silent host (R50, R300). FLAGS, METHOD, LEVEL, BLOCK_SIZE,
ULEN, SLEN, CKACC, CKRX and every byte of STAGE are unspecified there: DESIGN CHOICE 0 (notes/assumptions/1.md). -/
def State.reset : State where
  ckchk := false
  err := none
  mode := .none
  phase := .idle
  flags := 0
  method := 0
  level := 0
  blockSize := 0
  ulen := 0
  slen := 0
  ckacc := 0
  ckrx := 0
  cmd := none
  stage := []
  inp := []
  out := []
  outAns := []
  codec := ⟨[], []⟩
  host := []
  hostData := 0
  ret := .nothing
  draws := 0

end Sys2Proof.Machine
end

