-- ==== Sys2Proof/Machine/Ops.lean ====
section
/-! DEFINITION. The shared operations: control and errors (R27, R270), the staging buffer (R62), the IN port (R65), the
OUT port (R68), the CODEC port (R241, R243). -/

namespace Sys2Proof.Machine

/-! Control and errors. -/

/-- `PHASE <- p` (R11). -/
def State.goto (p : Phase) (s : State) : State := { s with phase := p }

/-- `raise E(info)`, the framer's trap entry (R270): ERRCODE, ERRINFO and PHASE are written, nothing else. There is no
return from it (R278); the way on is a new command. -/
def State.raise (c : Cause) (s : State) : State := { s with err := some c, phase := .failed }

/-- `STATUS.BUSY` (R30): PHASE is none of IDLE, DONE, FAILED. -/
def State.busy (s : State) : Bool :=
  match s.phase with
  | .idle | .done | .failed => false
  | _ => true

/-- Acceptance of a command, common part (R131): CKCHK, ERRCODE and ERRINFO are cleared, MODE and PHASE written. -/
def State.accept (m : Mode) (p : Phase) (s : State) : State :=
  { s with ckchk := false, err := none, mode := m, phase := p }

/-- Refusal of a command (R137). -/
def State.refuse (c : Cause) (s : State) : State :=
  { s with ckchk := false, err := some c, mode := .none, phase := .failed }

/-! The staging buffer. -/

/-- The byte of STAGE at an index. A byte no step has written reads as 0: DESIGN CHOICE (notes/assumptions/1.md); no
rule reads one (R41). -/
def Memory.byteAt (m : Memory) (a : Nat) : Byte := (m.lookup a).getD 0

/-- The bytes at indices `a .. a+n-1`. -/
def Memory.bytesAt (m : Memory) (a n : Nat) : Bytes := (List.range' a n).map m.byteAt

/-- The cells of a byte sequence from index `a` on, less those that hold 0. -/
def Memory.cells : Nat → Bytes → Memory
  | _, [] => []
  | a, x :: t => if x = 0 then Memory.cells (a + 1) t else (a, x) :: Memory.cells (a + 1) t

/-- `STAGE[a+i] = v[i]` for `i < len(v)`, every other byte unchanged (R62). -/
def Memory.write (m : Memory) (a : Nat) (v : Bytes) : Memory :=
  m.filter (fun c => decide (c.1 < a)) ++ Memory.cells a v ++ m.filter (fun c => decide (a + v.length ≤ c.1))

/-- The canonical form: addresses strictly rising, no cell that holds 0. -/
abbrev Memory.wf (m : Memory) : Prop := m.Pairwise (fun x y => x.1 < y.1) ∧ ∀ c ∈ m, c.2 ≠ 0

/-- `StageCap` (R40, R208): a function of MODE, PHASE and BLOCK_SIZE. In Encode BLOCK_SIZE, in Decode after D_ALLOC
`STAGE_CAP(BLOCK_SIZE)`; undefined elsewhere. -/
def State.stageCap (s : State) : Option Nat :=
  match s.phase with
  | .eHdr | .eInit | .eRead | .eBlock | .eEos | .eTrailer => some s.blockSize.toNat
  | .dUlen | .dSlen | .dData | .dBlock | .dEos | .dTrailer => some (stageCapOf s.blockSize.toNat)
  | .idle | .dMagic | .dHdr | .dAlloc => none
  | .done =>
    match s.mode with
    | .none => none
    | .encode => some s.blockSize.toNat
    | .decode => some (stageCapOf s.blockSize.toNat)
  | .failed =>
    match s.mode with
    | .encode => some s.blockSize.toNat
    | _ => none

/-- Whether the indices `a .. a+n-1` exist (R62). -/
def State.inStage (a n : Nat) (s : State) : Bool :=
  match s.stageCap with
  | some cap => decide (a + n ≤ cap)
  | none => false

/-- `MemRead(a, n)` (R62); `none` outside the buffer. -/
def State.memRead (a n : Nat) (s : State) : Option Bytes :=
  if s.inStage a n then some (s.stage.bytesAt a n) else none

/-- `MemWrite(a, len(v), v)` (R62); `none` outside the buffer. -/
def State.memWrite (a : Nat) (v : Bytes) (s : State) : Option State :=
  if s.inStage a v.length then some { s with stage := s.stage.write a v } else none

/-! The IN port. -/

/-- The answers of `InRead` (R65), and that there is none (U18). -/
inductive InStatus where
  | ok
  | eoi
  | fail
  | stalled
  deriving DecidableEq, Repr

/-- What `InRead` returns, and what the far end holds afterwards. -/
structure InResult where
  bytes : Bytes
  status : InStatus
  rest : List InEvent
  deriving DecidableEq, Repr

/-- `InRead(k)` on what the far end holds (R65). `OK` with exactly `k` bytes; `EOI` with fewer, all that were left;
`FAIL` when a failure is met first; `InRead(0)` touches nothing. -/
def takeIn : List InEvent → Nat → InResult
  | evs, 0 => ⟨[], .ok, evs⟩
  | [], _ + 1 => ⟨[], .eoi, []⟩
  | .fail :: t, _ + 1 => ⟨[], .fail, t⟩
  | .stall :: t, _ + 1 => ⟨[], .stalled, .stall :: t⟩
  | .byte b :: t, k + 1 =>
    let r := takeIn t k
    ⟨b :: r.bytes, r.status, r.rest⟩

/-- A step that needs exactly `k` bytes of IN: with them it goes on; the end of the input raises `atEnd` and a failure
`IoError(IN_FAIL)` (R236, R263), both after what was delivered has been consumed; without an answer the framer waits. -/
def readThen (k : Nat) (atEnd : Cause) (s : State) (f : Bytes → State → Result) : Result :=
  let r := takeIn s.inp k
  match r.status with
  | .ok => f r.bytes { s with inp := r.rest }
  | .eoi => .next (State.raise atEnd { s with inp := r.rest })
  | .fail => .next (State.raise .ioInFail { s with inp := r.rest })
  | .stalled => .next s

/-! The OUT port. -/

/-- What `OutWrite` returns, with the state it leaves. -/
inductive OutResult where
  | ok (s : State)
  | fail (s : State)
  | stalled
  deriving DecidableEq, Repr

/-- OUT has grown by `b`, and an answer of its far end is used up. -/
def State.wrote (b : Bytes) (s : State) : State := { s with out := s.out ++ b, outAns := s.outAns.tail }

/-- `OutWrite(b)` (R68): on success OUT has grown by `b`, on failure by a part of `b` from its start whose length the
far end decides (U16); `OutWrite([])` touches nothing. -/
def outWrite (b : Bytes) (s : State) : OutResult :=
  if b = [] then .ok s
  else
    match s.outAns with
    | [] => .ok (s.wrote b)
    | .ok :: _ => .ok (s.wrote b)
    | .fail n :: _ => .fail (s.wrote (b.take n))
    | .stall :: _ => .stalled

/-- A step that writes `b` and goes on; a failure raises `IoError(OUT_FAIL)` (R263). Without an answer the framer waits
with the state `s0` it had before the step. -/
def writeThen (s0 : State) (b : Bytes) (s : State) (f : State → Result) : Result :=
  match outWrite b s with
  | .ok s' => f s'
  | .fail s' => .next (s'.raise .ioOutFail)
  | .stalled => .next s0

/-- The far end of OUT takes the next write whole. -/
def State.outReady (s : State) : Bool :=
  match s.outAns with
  | [] => true
  | .ok :: _ => true
  | _ => false

/-- The far end of OUT will not answer the next write. -/
def State.outStalled (s : State) : Bool :=
  match s.outAns with
  | .stall :: _ => true
  | _ => false

/-! The CODEC port. -/

/-- `CodecCompress(lv, b)` (R241). -/
def codecCompress (c : Codec) (lv : Byte) (b : Bytes) : Bytes :=
  (c.compress.lookup (lv, b)).getD (Config.compress lv b)

/-- `CodecDecompress(p, n)` (R243): `none` is `Fail`. -/
def codecDecompress (c : Codec) (p : Bytes) (n : Word) : Option Bytes :=
  (c.decompress.lookup (p, n)).getD (Config.decompress p n)

end Sys2Proof.Machine
end

