-- ==== Sys2Proof/Machine/Flags.lean ====
section
/-! DEFINITION. The codes of MODE, PHASE and the errors, the STATUS word, and what each register reads as
(10_state.md rules R21, R24, R25, R30; 60_exceptions.md rules R261, R262). -/

namespace Sys2Proof.Machine

/-- MODE's values (R24). -/
def Mode.code : Mode → Nat
  | .none => 0
  | .encode => 1
  | .decode => 2

/-- PHASE's values (R25). -/
def Phase.code : Phase → Nat
  | .idle => 0
  | .eHdr => 1
  | .eInit => 2
  | .eRead => 3
  | .eBlock => 4
  | .eEos => 5
  | .eTrailer => 6
  | .dMagic => 7
  | .dHdr => 8
  | .dAlloc => 9
  | .dUlen => 10
  | .dSlen => 11
  | .dData => 12
  | .dBlock => 13
  | .dEos => 14
  | .dTrailer => 15
  | .done => 16
  | .failed => 17

/-- The class of an error (R262). -/
def Cause.errorClass : Cause → ErrorClass
  | .ioInFail | .ioOutFail | .ioUnexpectedEoi => .ioError
  | .formatBadMagic | .formatBadMethod | .formatBadBlockSize => .formatError
  | .truncatedShortBlock => .truncatedStreamError
  | .corruptCodecFail | .corruptLengthMismatch | .corruptStageOversize => .corruptDataError
  | .checksumMismatch => .checksumError
  | .commandBadOp | .commandBadLevel | .commandZeroBlockSize | .commandBlockSizeTooBig => .commandError

/-- ERRCODE of an error (R261). -/
def Cause.code (c : Cause) : Nat := config.errorNumber c.errorClass

/-- ERRINFO of an error (R262). -/
def Cause.info : Cause → Nat
  | .ioInFail => 1
  | .ioOutFail => 2
  | .ioUnexpectedEoi => 3
  | .formatBadMagic => 1
  | .formatBadMethod => 2
  | .formatBadBlockSize => 3
  | .truncatedShortBlock => 1
  | .corruptCodecFail => 1
  | .corruptLengthMismatch => 2
  | .corruptStageOversize => 3
  | .checksumMismatch => 1
  | .commandBadOp => 1
  | .commandBadLevel => 2
  | .commandZeroBlockSize => 3
  | .commandBlockSizeTooBig => 4

/-- `ERRCODE` as STATUS holds it: 0 when no error (R30). -/
def errCode : Option Cause → Nat
  | none => 0
  | some c => c.code

/-- `ERRINFO` as STATUS holds it: 0 when no error (R30). -/
def errInfo : Option Cause → Nat
  | none => 0
  | some c => c.info

/-- The STATUS word (R30): BUSY, DONE and ERR are views of PHASE; bits 15:11 read as 0. -/
def State.statusWord (s : State) : BitVec 16 :=
  BitVec.ofNat 16 (s.busy.toNat + 2 * (decide (s.phase = .done)).toNat + 4 * (decide (s.phase = .failed)).toNat +
    8 * s.ckchk.toNat + 16 * errCode s.err + 128 * errInfo s.err)

/-- A readable register among S0 to S11. -/
def ReadReg.register : ReadReg → Register
  | .status => .status
  | .mode => .mode
  | .phase => .phase
  | .flags => .flags
  | .method => .method
  | .level => .level
  | .blockSize => .blockSize
  | .ulen => .ulen
  | .slen => .slen
  | .ckacc => .ckacc
  | .ckrx => .ckrx

/-- The number of a readable register (R21). -/
def ReadReg.number (r : ReadReg) : Nat := config.registerNumber r.register

/-- The width of a readable register in bits (R21). -/
def ReadReg.width : ReadReg → Nat
  | .status => 16
  | .mode => 2
  | .phase => 5
  | .flags => 32
  | .method => 8
  | .level => 8
  | .blockSize => 32
  | .ulen => 32
  | .slen => 32
  | .ckacc => 32
  | .ckrx => 32

/-- The value of a readable register, zero-extended. -/
def State.regValue (s : State) : ReadReg → Word
  | .status => s.statusWord.setWidth 32
  | .mode => BitVec.ofNat 32 s.mode.code
  | .phase => BitVec.ofNat 32 s.phase.code
  | .flags => s.flags
  | .method => s.method.setWidth 32
  | .level => s.level.setWidth 32
  | .blockSize => s.blockSize
  | .ulen => s.ulen
  | .slen => s.slen
  | .ckacc => s.ckacc
  | .ckrx => s.ckrx

/-- The registers a read returns truly while the framer is busy (R44). -/
def ReadReg.pollable : ReadReg → Bool
  | .status | .mode | .phase => true
  | _ => false

end Sys2Proof.Machine
end

