-- ==== Sys2Proof/Machine/CodecPort.lean ====
section
/-! DEFINITION. The port calls CODEC.COMPRESS and CODEC.DECOMPRESS (44_codec_calls.md) run on their own: the codec's
answer is returned, no register changes. -/

namespace Sys2Proof.Machine

/-- `CODEC.COMPRESS` (R241): total, any length of answer. -/
def execCodecCompress (lv : Byte) (b : Bytes) (s : State) : Result :=
  .next { s with ret := .bytes (codecCompress s.codec lv b) }

/-- `CODEC.DECOMPRESS` (R243): `Ok(bytes)` or `Fail`; no exception at the port. -/
def execCodecDecompress (p : Bytes) (n : Word) (s : State) : Result :=
  .next { s with ret := match codecDecompress s.codec p n with
                        | some d => .bytes d
                        | none => .codecFail }

end Sys2Proof.Machine
end

