-- ==== Sys2Proof/Machine/Checksum.lean ====
section
/-! DEFINITION. The integrity accumulator (41_checksum.md): the operations CK.INIT, CK.UPDATE, CK.FINAL, CK.CMP over the
checksum function of the configuration (R150; Machine/Params.lean). -/

namespace Sys2Proof.Machine

/-- `CK.CMP` (R154): all 32 bits compared. -/
def ckCompare (s : Word) (v : Word) : Bool := v == ckFinal s

/-! The operations on CKACC. -/

/-- `CKACC <- CK_INIT` (R151). -/
def State.ckReset (s : State) : State := { s with ckacc := ckInit }

/-- `CKACC <- CkUpdate(CKACC, b)` (R152). -/
def State.ckFold (b : Bytes) (s : State) : State := { s with ckacc := ckUpdate s.ckacc b }

/-- `CK.INIT` (R151). -/
def execCkInit (s : State) : Result := .next s.ckReset

/-- `CK.UPDATE b` (R152). -/
def execCkUpdate (b : Bytes) (s : State) : Result := .next (s.ckFold b)

/-- `CK.FINAL` (R153): returns `CkFinal(CKACC)`; CKACC does not change. -/
def execCkFinal (s : State) : Result := .next { s with ret := .word (ckFinal s.ckacc) }

/-- `CK.CMP v` (R154): returns whether `v = CkFinal(CKACC)`; CKACC does not change. -/
def execCkCmp (v : Word) (s : State) : Result := .next { s with ret := .truth (ckCompare s.ckacc v) }

end Sys2Proof.Machine
end

