-- ==== Sys2Proof/Machine/Operands.lean ====
section
/-! DEFINITION. The checks on operands: a command's (R132, R137), a header's (R205, R206), a block's stored length
(R213); and the checksum flag (R94). -/

namespace Sys2Proof.Machine

/-- Why an ENCODE command is refused, in the order of the checks (R137); `none` when it is accepted (R132). -/
def encodeRefusal (lv : Byte) (bs : Word) : Option Cause :=
  if levelAllowed lv = false then some .commandBadLevel
  else if bs = 0 then some .commandZeroBlockSize
  else if fitsPhysStage bs = false then some .commandBlockSizeTooBig
  else none

/-- Why a header is rejected, in the order of the checks (R204, R205, R206); `none` when it is accepted. -/
def headerRejection (method : Byte) (bs : Word) : Option Cause :=
  if method ≠ methodLzo then some .formatBadMethod
  else if bs.toNat < bsMin ∨ bsMax < bs.toNat then some .formatBadBlockSize
  else none

/-- `SLEN > StageCap` (R212, R213). -/
def oversize (cap : Nat) (slen : Word) : Bool := decide (cap < slen.toNat)

/-- `FLAGS[0]`, "checksum present at end of stream" (R94). -/
def cksumFlag (flags : Word) : Bool := flags.getLsbD 0

end Sys2Proof.Machine
end

