-- ==== Sys2Proof/Machine/Commands.lean ====
section
/-! DEFINITION. The host commands ENCODE and DECODE (40_commands.md). -/

namespace Sys2Proof.Machine

/-- `ENCODE level, block_size` (R132): ignored while busy (R139), refused for bad operands (R137), else accepted. -/
def execEncode (lv : Byte) (bs : Word) (s : State) : Result :=
  if s.busy then .next s
  else match encodeRefusal lv bs with
    | some c => .next (s.refuse c)
    | none => .next { s.accept .encode .eHdr with level := lv, blockSize := bs }

/-- `DECODE` (R134): ignored while busy (R139), else accepted; its operand fields are ignored. -/
def execDecode (_lv : Byte) (_bs : Word) (s : State) : Result :=
  if s.busy then .next s
  else .next (s.accept .decode .dMagic).ckReset

end Sys2Proof.Machine
end

