-- ==== Sys2Proof/Machine/Bytes.lean ====
section
/-! DEFINITION. Byte order (00_scope.md rule R10, 20_memory.md rule R70): everything wider than a byte is big-endian. -/

namespace Sys2Proof.Machine

/-- `be32(v)` (R10): the four bytes of a word, most significant first. -/
def be32 (v : Word) : Bytes :=
  [v.extractLsb' 24 8, v.extractLsb' 16 8, v.extractLsb' 8 8, v.extractLsb' 0 8]

/-- The number a byte sequence spells, its first byte the most significant. -/
def unbe (b : Bytes) : Nat := b.foldl (fun n x => n * 256 + x.toNat) 0

/-- `unbe32(b)` (R10), for a four-byte sequence. -/
def unbe32 (b : Bytes) : Word := BitVec.ofNat 32 (unbe b)

/-- The six bytes of a command word, most significant first: op, level, the four bytes of block_size (R102). -/
def be48 (w : CmdWord) : Bytes :=
  [w.extractLsb' 40 8, w.extractLsb' 32 8, w.extractLsb' 24 8, w.extractLsb' 16 8, w.extractLsb' 8 8,
    w.extractLsb' 0 8]

/-- The command word six bytes spell. -/
def unbe48 (b : Bytes) : CmdWord := BitVec.ofNat 48 (unbe b)

/-- The last `n` bytes of the number `w`, most significant first: how opcode_table.json numbers a record's bits (R92). -/
def beNat : Nat → Nat → Bytes
  | 0, _ => []
  | n + 1, w => BitVec.ofNat 8 (w / 256 ^ n) :: beNat n w

end Sys2Proof.Machine
end

