-- ==== Sys2Proof/Syntax.lean ====
section
/-! DEFINITION. The framer's operations (30_encoding.md rule R90), one constructor per row of spec/opcode_table.json,
and the positions at which an encoded one is expected (R105). -/

namespace Sys2Proof

/-- The operations, which stand where an ISA has instructions (R90). -/
inductive Instr where
  /-- `ENCODE level, block_size`: host command, start an Encode (R132). -/
  | encode (level : Byte) (blockSize : Word)
  /-- `DECODE`: host command, start a Decode (R134). Its two operand fields exist in the word and are ignored. -/
  | decode (level : Byte) (blockSize : Word)
  /-- `HDR`: the container header (R92); emitted by R171, consumed by R201, R204. -/
  | hdr (flags : Word) (method level : Byte) (blockSize : Word)
  /-- `BLK.S`: a block stored verbatim (R96); both lengths are the length of `data`. Emitted by R177, consumed by R218. -/
  | blkS (data : Bytes)
  /-- `BLK.C`: a block in the codec's form (R96). Emitted by R178, consumed by R220, R221. -/
  | blkC (ulen : Word) (stored : Bytes)
  /-- `EOS`: the end-of-stream marker (R98) with its second field. Emitted by R180, consumed by R210, R226. -/
  | eos (slen : Word)
  /-- `CKSUM`: the trailer (R99). Emitted by R181, consumed by R230. -/
  | cksum (value : Word)
  /-- `CK.INIT` (R151). -/
  | ckInit
  /-- `CK.UPDATE b` (R152). -/
  | ckUpdate (b : Bytes)
  /-- `CK.FINAL` (R153). -/
  | ckFinal
  /-- `CK.CMP v` (R154). -/
  | ckCmp (v : Word)
  /-- `CODEC.COMPRESS lv, b` (R241). -/
  | codecCompress (level : Byte) (b : Bytes)
  /-- `CODEC.DECOMPRESS p, n` (R243). -/
  | codecDecompress (p : Bytes) (n : Word)
  deriving DecidableEq, Repr

/-- Where an encoded operation is expected (R105): a decoder knows what comes next from its position. -/
inductive Position where
  /-- The command register S11 (R102). -/
  | command
  /-- The start of a container: `HDR`. -/
  | header
  /-- After the header or a block record: a block record or `EOS`. -/
  | block
  /-- After `EOS`: `CKSUM`. -/
  | trailer
  deriving DecidableEq, Repr

/-- The position of an operation that has an encoding; the internal operations and the port calls have none (R90). -/
def Instr.position : Instr → Option Position
  | .encode _ _ => some .command
  | .decode _ _ => some .command
  | .hdr _ _ _ _ => some .header
  | .blkS _ => some .block
  | .blkC _ _ => some .block
  | .eos _ => some .block
  | .cksum _ => some .trailer
  | .ckInit => none
  | .ckUpdate _ => none
  | .ckFinal => none
  | .ckCmp _ => none
  | .codecCompress _ _ => none
  | .codecDecompress _ _ => none

end Sys2Proof
end

