-- ==== Sys2Proof/WellFormed.lean ====
section
/-! DEFINITION. Which operations are well formed: those the formats of 30_encoding.md can carry. -/

namespace Sys2Proof

/-- Well-formedness. A command word may hold any operands (the command itself refuses some, R137); a header's method
byte is 1 (R111; the table's HDR row fixes it); a block record has a nonzero `uncompressed_len` (R96), lengths that fit
32 bits (R101), and is `BLK.C` iff its two lengths differ (R97); a compress call has an allowed level and at least one
byte (R241), a decompress call expects at least one byte (R243). -/
def Instr.wf : Instr → Bool
  | .encode _ _ => true
  | .decode _ _ => true
  | .hdr _ method _ _ => method == Machine.methodLzo
  | .blkS data => decide (0 < data.length) && decide (data.length < 2 ^ 32)
  | .blkC u stored => decide (u ≠ 0) && decide (stored.length < 2 ^ 32) && decide (stored.length ≠ u.toNat)
  | .eos _ => true
  | .cksum _ => true
  | .ckInit => true
  | .ckUpdate _ => true
  | .ckFinal => true
  | .ckCmp _ => true
  | .codecCompress lv b => Machine.levelAllowed lv && decide (0 < b.length)
  | .codecDecompress _ n => decide (n ≠ 0)

end Sys2Proof
end

