-- ==== Sys2Proof/Decode.lean ====
section
/-! DEFINITION. The decoder (by position, R105) and the encoder, both written from 30_encoding.md rules R92 to R102. -/

namespace Sys2Proof

open Machine

/-- Why bytes are no operation at a position. -/
inductive Reject where
  /-- Fewer bytes than the record has. -/
  | short
  /-- The first seven bytes are not MAGIC (R110). -/
  | badMagic
  /-- The method byte is not 1 (R111). -/
  | badMethod
  /-- `CMD.op` is neither 0x01 nor 0x02 (R120). -/
  | reservedOp
  deriving DecidableEq, Repr

/-- `CMD.op`, bits 47:40 (R102). -/
def cmdOp (w : CmdWord) : Byte := w.extractLsb' config.command.op 8

/-- `CMD.level`, bits 39:32 (R102). -/
def cmdLevel (w : CmdWord) : Byte := w.extractLsb' config.command.level 8

/-- `CMD.block_size`, bits 31:0 (R102). -/
def cmdBlockSize (w : CmdWord) : Word := w.extractLsb' config.command.blockSize 32

/-- Decoding of a command word (R102, R120). -/
def decodeCommand (w : CmdWord) : Except Reject Instr :=
  if cmdOp w = 0x01 then .ok (.encode (cmdLevel w) (cmdBlockSize w))
  else if cmdOp w = 0x02 then .ok (.decode (cmdLevel w) (cmdBlockSize w))
  else .error .reservedOp

/-- The fields of a header behind its magic, from the ten bytes at offsets 7 to 16 (R92, R94, R95), whatever they hold. -/
def headerFields (b : Bytes) : Instr :=
  .hdr (unbe32 (b.take 4)) (b.getD 4 0) (b.getD 5 0) (unbe32 ((b.drop 6).take 4))

/-- The block record with lengths `u` and `s` and stored bytes `d` (R96, R97). -/
def blockOf (u s : Word) (d : Bytes) : Instr := if s = u then .blkS d else .blkC u d

/-- How many bytes a block record or marker that begins with the lengths `u` and `s` has (R96, R98): after a first length
of 0 it is the marker, whatever its second field holds (R115). -/
def recordLength (u s : Word) : Nat := if u = 0 then eosLen else 8 + s.toNat

/-- Decoding at a position: the operation and the bytes after it, or why there is none. Total on any bytes. -/
def decode (p : Position) (b : Bytes) : Except Reject (Instr × Bytes) :=
  match p with
  | .command =>
    if b.length < 6 then .error .short
    else match decodeCommand (unbe48 (b.take 6)) with
      | .ok i => .ok (i, b.drop 6)
      | .error e => .error e
  | .header =>
    if b.length < 7 then .error .short
    else if b.take 7 ≠ magic then .error .badMagic
    else if b.length < 17 then .error .short
    else if b.getD 11 0 ≠ methodLzo then .error .badMethod
    else .ok (headerFields ((b.drop 7).take 10), b.drop 17)
  | .block =>
    if b.length < 4 then .error .short
    else if unbe32 (b.take 4) = 0 then
      if b.length < eosLen then .error .short
      else .ok (.eos (unbe32 ((b.drop 4).take eosRest)), b.drop eosLen)
    else if b.length < 8 then .error .short
    else
      let u := unbe32 (b.take 4)
      let s := unbe32 ((b.drop 4).take 4)
      if (b.drop 8).length < s.toNat then .error .short
      else .ok (blockOf u s ((b.drop 8).take s.toNat), (b.drop 8).drop s.toNat)
  | .trailer =>
    if b.length < 4 then .error .short
    else .ok (.cksum (unbe32 (b.take 4)), b.drop 4)

/-! The encoder. -/

/-- The command word of an op code and its operands (R102). -/
def encodeCommand (op level : Byte) (blockSize : Word) : CmdWord :=
  (op.setWidth 48 <<< config.command.op) ||| (level.setWidth 48 <<< config.command.level) |||
    (blockSize.setWidth 48 <<< config.command.blockSize)

/-- The bytes of a block record (R96). -/
def blockBytes (u : Word) (stored : Bytes) : Bytes :=
  be32 u ++ be32 (BitVec.ofNat 32 stored.length) ++ stored

/-- The bytes of an operation, in wire order: a command most significant byte first, a record as it stands in the
container (R92, R96, R98, R99). The internal operations and the port calls have no encoding (R90): no bytes. -/
def encode : Instr → Bytes
  | .encode lv bs => be48 (encodeCommand 0x01 lv bs)
  | .decode lv bs => be48 (encodeCommand 0x02 lv bs)
  | .hdr f m lv bs => magic ++ be32 f ++ [m] ++ [lv] ++ be32 bs
  | .blkS d => blockBytes (BitVec.ofNat 32 d.length) d
  | .blkC u p => blockBytes u p
  | .eos s => be32 0 ++ (be32 s).take eosRest
  | .cksum v => be32 v
  | .ckInit => []
  | .ckUpdate _ => []
  | .ckFinal => []
  | .ckCmp _ => []
  | .codecCompress _ _ => []
  | .codecDecompress _ _ => []

/-! The words of spec/opcode_table.json: a row's bits are one big-endian number, its first byte the most significant
(R92, R102; notes/assumptions/12.md). -/

/-- Whether `nbits` bits of the number `w` hold the whole block record that their first 64 bits announce. -/
def holdsBlock (nbits w : Nat) : Bool :=
  let b := beNat (nbits / 8) w
  decide (b.length = recordLength (unbe32 (b.take 4)) (unbe32 ((b.drop 4).take 4)))

/-- The position of a table word, from its number of bits: 48 a command, 32 the trailer, 136 the header (unless it is no
header and a whole block record), 64 and more a block record or the marker. A row of 0 bits has no encoding (R90). -/
def tablePosition (nbits w : Nat) : Option Position :=
  if nbits = 48 then some .command
  else if nbits = 32 then some .trailer
  else if nbits = 136 then
    if (beNat 17 w).take 7 ≠ magic ∧ holdsBlock nbits w = true then some .block else some .header
  else if 64 ≤ nbits then some .block
  else none

/-- The bytes of a table word: those of the number, and zeros for the stored bytes of a block the number does not reach. -/
def tableBytes (p : Position) (nbits w : Nat) : Bytes :=
  let b := beNat (nbits / 8) w
  match p with
  | .block =>
    b ++ List.replicate (recordLength (unbe32 (b.take 4)) (unbe32 ((b.drop 4).take 4)) - b.length) 0
  | _ => b

/-- The operation the decoder reads from a table word. -/
def decodeTableWord (nbits w : Nat) : Option Instr :=
  match tablePosition nbits w with
  | none => none
  | some p =>
    match decode p (tableBytes p nbits w) with
    | .ok (i, []) => some i
    | _ => none

end Sys2Proof
end

