-- ==== Sys2Proof/Machine/Records.lean ====
section
/-! DEFINITION. The container's records HDR, BLK.S, BLK.C, EOS, CKSUM (42_encode.md, 43_decode.md). A record is emitted
by the one Encode phase that writes it; it is consumed by the Decode phases that read it, and its meaning at one of them
is what that phase does once its bytes of the record have been fetched. In any other phase it stands out of position. -/

namespace Sys2Proof.Machine

/-! What the Decode phases do with the bytes they have fetched. -/

/-- `ULEN <- u`, and where control goes on it (R210). -/
def latchUlen (u : Word) (s : State) : Result :=
  .next { s with ulen := u, phase := if u = 0 then .dEos else .dSlen }

/-- `SLEN <- v` and the oversize check (R212, R213). Where StageCap is undefined there is no buffer to hold the bytes. -/
def latchSlen (v : Word) (s : State) : Result :=
  match s.stageCap with
  | none => .fault .stageOutOfRange
  | some cap =>
    if oversize cap v then .next (State.raise .corruptStageOversize { s with slen := v })
    else .next { s with slen := v, phase := .dData }

/-- The stored bytes into STAGE from index 0 (R214). -/
def storeStored (b : Bytes) (s : State) : Result :=
  match s.memWrite 0 b with
  | none => .fault .stageOutOfRange
  | some s' => .next (s'.goto .dBlock)

/-- A block's original bytes to OUT and then into the accumulator (R218, R221; R79). -/
def deliver (d : Bytes) (s : State) : Result :=
  writeThen s d s fun s' => .next ((s'.ckFold d).goto .dUlen)

/-- The four header registers, then the two checks (R204). -/
def latchHeader (flags : Word) (method level : Byte) (bs : Word) (s : State) : Result :=
  let s' := { s with flags := flags, method := method, level := level, blockSize := bs }
  match headerRejection method bs with
  | some c => .next (s'.raise c)
  | none => .next (s'.goto .dAlloc)

/-- The trailer against the accumulator (R230). -/
def checkTrailer (v : Word) (s : State) : Result :=
  let s' := { s with ckrx := v }
  if ckCompare s.ckacc v then .next { s' with ckchk := true, phase := .done }
  else .next (s'.raise .checksumMismatch)

/-- The write of a record by an Encode step, and where control goes after it: `s` is the state before the step. -/
def emit (s : State) (i : Instr) (p : Phase) (s' : State) : Result :=
  writeThen s (encode i) s' fun s'' => .next (s''.goto p)

/-! The records. -/

/-- `HDR`: emission R171 (`E_HDR`); consumption R201 (`D_MAGIC`), R204 (`D_HDR`). DEDUCED
(notes/assumptions/9.md): at `D_MAGIC` it is what follows a matching magic, at `D_ALLOC` the step of R208. -/
def execHdr (flags : Word) (method level : Byte) (bs : Word) (s : State) : Result :=
  match s.phase with
  | .eHdr => emit s (.hdr flags method level bs) .eInit { s with flags := flags, method := method }
  | .dMagic => .next (s.goto .dHdr)
  | .dHdr => latchHeader flags method level bs s
  | .dAlloc => .next (s.goto .dUlen)
  | _ => .refused .outOfPosition

/-- `BLK.S`: emission R177 (`E_BLOCK`); consumption R210, R212, R214, R218. -/
def execBlkS (data : Bytes) (s : State) : Result :=
  match s.phase with
  | .eBlock => emit s (.blkS data) .eRead { s with slen := BitVec.ofNat 32 data.length }
  | .dUlen => latchUlen (BitVec.ofNat 32 data.length) s
  | .dSlen => latchSlen (BitVec.ofNat 32 data.length) s
  | .dData => storeStored data s
  | .dBlock => deliver data s
  | _ => .refused .outOfPosition

/-- `BLK.C`: emission R178 (`E_BLOCK`); consumption R210, R212, R214, R220, R221. -/
def execBlkC (ulen : Word) (stored : Bytes) (s : State) : Result :=
  match s.phase with
  | .eBlock => emit s (.blkC ulen stored) .eRead { s with slen := BitVec.ofNat 32 stored.length }
  | .dUlen => latchUlen ulen s
  | .dSlen => latchSlen (BitVec.ofNat 32 stored.length) s
  | .dData => storeStored stored s
  | .dBlock =>
    match codecDecompress s.codec stored ulen with
    | none => .next (s.raise .corruptCodecFail)
    | some d => if d.length ≠ ulen.toNat then .next (s.raise .corruptLengthMismatch) else deliver d s
  | _ => .refused .outOfPosition

/-- `EOS`: emission R180 (`E_EOS`); consumption R210 (`D_ULEN`), R226 (`D_EOS`). -/
def execEos (slen : Word) (s : State) : Result :=
  match s.phase with
  | .eEos => emit s (.eos slen) .eTrailer { s with ulen := 0, slen := slen }
  | .dUlen => latchUlen 0 s
  | .dEos => .next { s with slen := slen, phase := .dTrailer }
  | _ => .refused .outOfPosition

/-- `CKSUM`: emission R181 (`E_TRAILER`); consumption R230 (`D_TRAILER`), where with `FLAGS[0] = 0` it is not looked at. -/
def execCksum (v : Word) (s : State) : Result :=
  match s.phase with
  | .eTrailer => emit s (.cksum v) .done s
  | .dTrailer => if cksumFlag s.flags then checkTrailer v s else .next (s.goto .done)
  | _ => .refused .outOfPosition

end Sys2Proof.Machine
end

