-- ==== Sys2Proof/Machine/Dispatch.lean ====
section
/-! DEFINITION. One arm per operation of the opcode table. -/

namespace Sys2Proof.Machine

def exec (i : Instr) (s : State) : Host.Outcome State Fault Refusal :=
  match i with
  -- host commands (40_commands.md)
  | .encode level blockSize => Sys2Proof.Machine.execEncode level blockSize s
  | .decode level blockSize => Sys2Proof.Machine.execDecode level blockSize s
  -- records (42_encode.md, 43_decode.md)
  | .hdr flags method level blockSize => Sys2Proof.Machine.execHdr flags method level blockSize s
  | .blkS data => Sys2Proof.Machine.execBlkS data s
  | .blkC ulen stored => Sys2Proof.Machine.execBlkC ulen stored s
  | .eos slen => Sys2Proof.Machine.execEos slen s
  | .cksum value => Sys2Proof.Machine.execCksum value s
  -- the integrity accumulator (41_checksum.md)
  | .ckInit => Sys2Proof.Machine.execCkInit s
  | .ckUpdate b => Sys2Proof.Machine.execCkUpdate b s
  | .ckFinal => Sys2Proof.Machine.execCkFinal s
  | .ckCmp v => Sys2Proof.Machine.execCkCmp v s
  -- the CODEC port (44_codec_calls.md)
  | .codecCompress level b => Sys2Proof.Machine.execCodecCompress level b s
  | .codecDecompress p n => Sys2Proof.Machine.execCodecDecompress p n s

end Sys2Proof.Machine
end

