-- ==== Sys2Proof/Machine/Phases.lean ====
section
/-! DEFINITION. The phase rules: what the framer's step is at each PHASE (R25). A rule fetches what it reads from IN,
puts the operation together and runs it; the phases that only fetch a part of a record call the record's own stage. -/

namespace Sys2Proof.Machine

/-- One outcome after another. -/
def andThen (r : Result) (f : State → Result) : Result :=
  match r with
  | .next s => f s
  | .fault e => .fault e
  | .refused e => .refused e

/-- The store-versus-compress decision (R176): the record of a block with original bytes `blk` and `u = len(blk)`. -/
def blockRecord (c : Codec) (lv : Byte) (u : Word) (blk : Bytes) : Instr :=
  let a := codecCompress c lv blk
  if u.toNat < a.length then .blkS blk else .blkC u a

/-- The record an Encode phase writes (R171, R174, R180, R181); none where there is none. -/
def State.emitted (s : State) : Option Instr :=
  match s.phase with
  | .eHdr => some (.hdr encFlags methodLzo s.level s.blockSize)
  | .eBlock => (s.memRead 0 s.ulen.toNat).map (blockRecord s.codec s.level s.ulen)
  | .eEos => some (.eos 0)
  | .eTrailer => some (.cksum (ckFinal s.ckacc))
  | _ => none

/-- The block record whose lengths are in ULEN and SLEN and whose stored bytes are in STAGE: the dispatch (R216, R217). -/
def State.held (s : State) : Option Instr :=
  (s.memRead 0 s.slen.toNat).map fun b => if s.slen = s.ulen then .blkS b else .blkC s.ulen b

/-- A phase whose step is the operation given. -/
def runOperation (i : Option Instr) (s : State) : Result :=
  match i with
  | some i => exec i s
  | none => .fault .stageOutOfRange

/-- `E_INIT` (R172). -/
def phaseEInit (s : State) : Result := andThen (exec .ckInit s) fun s' => .next (s'.goto .eRead)

/-- `E_READ` (R173): a block, or the end of the input. -/
def phaseERead (s : State) : Result :=
  let r := takeIn s.inp s.blockSize.toNat
  let s' := { s with inp := r.rest }
  match r.status with
  | .fail => .next (s'.raise .ioInFail)
  | .stalled => .next s
  | .ok | .eoi =>
    if r.bytes = [] then .next (s'.goto .eEos)
    else match s'.memWrite 0 r.bytes with
      | none => .fault .stageOutOfRange
      | some s'' => .next { s'' with ulen := BitVec.ofNat 32 r.bytes.length, phase := .eBlock }

/-- `E_BLOCK` (R174): CK.UPDATE, the codec call, the record. If OUT does not answer, the step has not been taken. -/
def phaseEBlock (s : State) : Result :=
  match s.memRead 0 s.ulen.toNat with
  | none => .fault .stageOutOfRange
  | some blk =>
    if s.outStalled then .next s
    else andThen (exec (.ckUpdate blk) s) (exec (blockRecord s.codec s.level s.ulen blk))

/-- `D_MAGIC` (R201, R202). -/
def phaseDMagic (s : State) : Result :=
  readThen 7 .ioUnexpectedEoi s fun b s' =>
    if b ≠ magic then .next (s'.raise .formatBadMagic) else .next (s'.goto .dHdr)

/-- `D_HDR` (R204). -/
def phaseDHdr (s : State) : Result :=
  readThen 10 .ioUnexpectedEoi s fun b s' => exec (headerFields b) s'

/-- `D_ALLOC` (R208): StageCap becomes `STAGE_CAP(BLOCK_SIZE)`, which is a function of PHASE; no register is written. -/
def phaseDAlloc (s : State) : Result := .next (s.goto .dUlen)

/-- `D_ULEN` (R210). -/
def phaseDUlen (s : State) : Result := readThen 4 .ioUnexpectedEoi s fun b s' => latchUlen (unbe32 b) s'

/-- `D_SLEN` (R212). -/
def phaseDSlen (s : State) : Result := readThen 4 .ioUnexpectedEoi s fun b s' => latchSlen (unbe32 b) s'

/-- `D_DATA` (R214): a short read here is `TruncatedStreamError`. -/
def phaseDData (s : State) : Result := readThen s.slen.toNat .truncatedShortBlock s fun b s' => storeStored b s'

/-- `D_EOS` (R226). -/
def phaseDEos (s : State) : Result := readThen eosRest .ioUnexpectedEoi s fun b s' => exec (.eos (unbe32 b)) s'

/-- `D_TRAILER` (R230): with `FLAGS[0] = 0` nothing is read. -/
def phaseDTrailer (s : State) : Result :=
  if cksumFlag s.flags then readThen 4 .ioUnexpectedEoi s fun b s' => exec (.cksum (unbe32 b)) s'
  else .next (s.goto .done)

/-- One step of the framer: the rule PHASE names (R12, R25). In IDLE, DONE and FAILED it takes none. -/
def phaseStep (s : State) : Result :=
  match s.phase with
  | .idle => .next s
  | .eHdr => runOperation s.emitted s
  | .eInit => phaseEInit s
  | .eRead => phaseERead s
  | .eBlock => phaseEBlock s
  | .eEos => runOperation s.emitted s
  | .eTrailer => runOperation s.emitted s
  | .dMagic => phaseDMagic s
  | .dHdr => phaseDHdr s
  | .dAlloc => phaseDAlloc s
  | .dUlen => phaseDUlen s
  | .dSlen => phaseDSlen s
  | .dData => phaseDData s
  | .dBlock => runOperation s.held s
  | .dEos => phaseDEos s
  | .dTrailer => phaseDTrailer s
  | .done => .next s
  | .failed => .next s

end Sys2Proof.Machine
end

