-- ==== Sys2Proof/Machine/HostPort.lean ====
section
/-! DEFINITION. The host's side (70_reset_and_hazards.md rule R306): a command taken, a register read, reset. -/

namespace Sys2Proof.Machine

/-- The framer takes the word written to S11 (R130): the operation it encodes runs; a reserved op is refused (R120,
R137), or ignored like every word while busy (R139). -/
def takeCommand (w : CmdWord) (s : State) : Result :=
  match decodeCommand w with
  | .ok i => exec i s
  | .error _ => if s.busy then .next s else .next (s.refuse .commandBadOp)

/-- A host read (R44): the register's value; while busy the true value of STATUS, MODE and PHASE only, and a free value
of the register's width for every other. No register changes. -/
def hostRead (r : ReadReg) (s : State) : State :=
  if s.busy && !r.pollable then
    { s with
      hostData := ((Config.busyRead s.draws r.number).setWidth r.width).setWidth 32
      draws := s.draws + 1 }
  else { s with hostData := s.regValue r }

/-- The port call that can be in flight in a phase (R73). -/
inductive PortCall where
  | none
  | read (k : Nat)
  | write (b : Bytes)
  deriving DecidableEq, Repr

/-- What a block record held in STAGE makes the framer write (R218, R221): nothing when the codec's answer is rejected. -/
def heldWrite (c : Codec) (i : Option Instr) : PortCall :=
  match i with
  | some (.blkS d) => .write d
  | some (.blkC u p) =>
    match codecDecompress c p u with
    | some d => if d.length = u.toNat then .write d else .none
    | none => .none
  | _ => .none

/-- The port call of the step PHASE names (R73). -/
def State.portCall (s : State) : PortCall :=
  match s.phase with
  | .eHdr | .eBlock | .eEos | .eTrailer =>
    match s.emitted with
    | some i => .write (encode i)
    | none => .none
  | .eRead => .read s.blockSize.toNat
  | .dMagic => .read 7
  | .dHdr => .read 10
  | .dUlen | .dSlen => .read 4
  | .dEos => .read eosRest
  | .dData => .read s.slen.toNat
  | .dBlock => heldWrite s.codec s.held
  | .dTrailer => if cksumFlag s.flags then .read 4 else .none
  | .idle | .eInit | .dAlloc | .done | .failed => .none

/-- What is left on IN after at most `n` bytes of a read in flight have crossed. -/
def dropBytes : Nat → List InEvent → List InEvent
  | n + 1, .byte _ :: t => dropBytes n t
  | _, evs => evs

/-- Hardware reset (R300, R301): the reset state; what had crossed the ports stays crossed, and of a port call in flight
`cut` bytes had (as many as the call has, at most). DESIGN CHOICE (notes/assumptions/10.md): R301 leaves the byte of the
cut open. A read is cut before a failure or a stall that is listed; a write is cut at `cut` whatever its far end would have
answered, and that answer stays listed for the next write. -/
def State.resetWith (cut : Nat) (s : State) : State :=
  { State.reset with
    inp := match s.portCall with
      | .read k => dropBytes (min cut k) s.inp
      | _ => s.inp
    out := match s.portCall with
      | .write b => s.out ++ b.take cut
      | _ => s.out
    outAns := s.outAns
    codec := s.codec
    host := s.host
    hostData := s.hostData
    draws := s.draws }

/-- One move of the host (R306). DESIGN CHOICE (notes/assumptions/17.md): R306 obliges the host to keep the ports attached
until the end of an operation and gives no effect for one that does not; here `driveIn`, `driveOut` and `attachOut` act at
any time, while busy and after an end of the input too, and the operation goes on. -/
def hostMove (m : HostMove) (s : State) : Result :=
  match m with
  | .run => phaseStep s
  | .command w => .next { s with cmd := some w }
  | .read r => .next (hostRead r s)
  | .driveIn evs => .next { s with inp := evs }
  | .driveOut answers => .next { s with outAns := answers }
  | .attachOut answers => .next { s with out := [], outAns := answers }
  | .reset cut => .next (s.resetWith cut)

end Sys2Proof.Machine
end

