-- ==== Sys2Proof/Machine/Fetch.lean ====
section
/-! DEFINITION. Where an encoded operation lies for the framer to fetch it, and which bytes of it a phase fetches. -/

namespace Sys2Proof.Machine

/-- The bytes of a record that the step at a Decode phase fetches from IN: how many lie before them, and how many they
are (R73). -/
def fetchSpan (i : Instr) (p : Phase) : Option (Nat × Nat) :=
  match i, p with
  | .hdr _ _ _ _, .dMagic => some (0, 7)
  | .hdr _ _ _ _, .dHdr => some (7, 10)
  | .blkS _, .dUlen => some (0, 4)
  | .blkS _, .dSlen => some (4, 4)
  | .blkS d, .dData => some (8, d.length)
  | .blkC _ _, .dUlen => some (0, 4)
  | .blkC _ _, .dSlen => some (4, 4)
  | .blkC _ d, .dData => some (8, d.length)
  | .eos _, .dUlen => some (0, 4)
  | .eos _, .dEos => some (4, eosRest)
  | .cksum _, .dTrailer => some (0, 4)
  | _, _ => none

/-- The host's queue with the framer's step next. -/
def runNext (h : List HostMove) : List HostMove :=
  match h with
  | [] => []
  | _ => .run :: h

/-- An encoded operation placed so that the very next step begins with it: a command in S11; a record on IN in front of
what is there, with Decode at the phase that expects it (and, for the trailer, the checksum flag set, R99). -/
def place (p : Position) (b : Bytes) (s : State) : State :=
  match p with
  | .command => { s with cmd := some (unbe48 b) }
  | .header =>
    { s with
      cmd := none, host := runNext s.host, mode := .decode, phase := .dMagic, inp := b.map .byte ++ s.inp }
  | .block =>
    { s with
      cmd := none, host := runNext s.host, mode := .decode, phase := .dUlen, inp := b.map .byte ++ s.inp }
  | .trailer =>
    { s with
      cmd := none, host := runNext s.host, mode := .decode, phase := .dTrailer, flags := s.flags ||| 1,
      inp := b.map .byte ++ s.inp }

end Sys2Proof.Machine
end

