-- ==== Sys2Proof/Machine/Step.lean ====
section
/-! DEFINITION. One step of the machine (R12, R15): a command the host has written is taken; otherwise the host makes its
next move; otherwise the framer takes the step PHASE names. -/

namespace Sys2Proof.Machine

/-- One step. A wait (IDLE, DONE, FAILED, or a port that does not answer) is a step that changes nothing else. -/
def step (s : State) : Host.Outcome State Fault Refusal :=
  match s.cmd with
  | some w => takeCommand w { s with cmd := none }
  | none =>
    match s.host with
    | [] => phaseStep s
    | m :: t => hostMove m { s with host := t }

/-- `s` with the operation of a table word placed where the next step fetches it; an operation without an encoding (R90)
has no word and leaves `s` as it is. -/
def State.withFetchWord (s : State) (nbits w : Nat) : State :=
  match tablePosition nbits w with
  | some p => place p (tableBytes p nbits w) s
  | none => s

end Sys2Proof.Machine
end

