-- ==== Sys2Proof/Safety.lean ====
section
/-! DEFINITION. The terms claims use: when the framer's own step is next, the premises of well-behaved ports (R66, R69)
and of a round trip (R235, R245), the invariant of the machine, and the two whole operations as functions (R183, R234). -/

namespace Sys2Proof.Machine

/-- No command has been written and the host makes no move: the framer's own step is next. -/
abbrev State.quiet (s : State) : Prop := s.cmd = none ∧ s.host = []

/-- `InWellBehaved(X)` (R66): IN carries the finite byte sequence `X` and then ends. -/
abbrev State.inCarries (X : Bytes) (s : State) : Prop := s.inp = X.map .byte

/-- `OutWellBehaved` (R69): no write ever fails. -/
abbrev State.outWellBehaved (s : State) : Prop := s.outAns = []

/-- The host's next move is a hardware reset, and no written command comes before it. -/
def State.resetNext (s : State) : Bool :=
  match s.cmd, s.host with
  | none, .reset _ :: _ => true
  | _, _ => false

/-- The host's next move changes what the far end of IN holds. -/
def State.driveInNext (s : State) : Bool :=
  match s.cmd, s.host with
  | none, .driveIn _ :: _ => true
  | _, _ => false

/-- The host's next move attaches a new sink to OUT. -/
def State.attachOutNext (s : State) : Bool :=
  match s.cmd, s.host with
  | none, .attachOut _ :: _ => true
  | _, _ => false

/-! The invariant. -/

/-- The mode that goes with a phase (R24, R25, R137, R285). -/
def modeFits (m : Mode) (p : Phase) : Bool :=
  match p with
  | .idle => m == .none
  | .eHdr | .eInit | .eRead | .eBlock | .eEos | .eTrailer => m == .encode
  | .dMagic | .dHdr | .dAlloc | .dUlen | .dSlen | .dData | .dBlock | .dEos | .dTrailer => m == .decode
  | .done => m != .none
  | .failed => true

/-- The mode in which an error is raised (R261): no mode for CommandError; in Encode only the IoErrors of its ports (R170). -/
def causeFits (c : Cause) (m : Mode) : Bool :=
  match c with
  | .commandBadOp | .commandBadLevel | .commandZeroBlockSize | .commandBlockSizeTooBig => m == .none
  | .ioInFail | .ioOutFail => m != .none
  | _ => m == .decode

/-- What Encode's command registers hold from acceptance on (R132). -/
abbrev State.encodeOperands (s : State) : Prop :=
  levelAllowed s.level = true ∧ 1 ≤ s.blockSize.toNat ∧ s.blockSize.toNat ≤ physStage

/-- What the header registers hold in Encode from E_HDR on (R171). -/
abbrev State.encodeHeader (s : State) : Prop := s.flags = encFlags ∧ s.method = methodLzo

/-- What the header registers hold in Decode from D_HDR on (R204). -/
abbrev State.decodeHeader (s : State) : Prop :=
  s.method = methodLzo ∧ bsMin ≤ s.blockSize.toNat ∧ s.blockSize.toNat ≤ bsMax

/-- What the registers an operation has written hold at each phase. -/
def State.registersFit (s : State) : Prop :=
  match s.phase with
  | .idle => True
  | .eHdr => s.encodeOperands
  | .eInit => s.encodeOperands ∧ s.encodeHeader
  | .eRead => s.encodeOperands ∧ s.encodeHeader
  | .eBlock => s.encodeOperands ∧ s.encodeHeader ∧ 1 ≤ s.ulen.toNat ∧ s.ulen.toNat ≤ s.blockSize.toNat
  | .eEos => s.encodeOperands ∧ s.encodeHeader
  | .eTrailer => s.encodeOperands ∧ s.encodeHeader ∧ s.ulen = 0 ∧ s.slen = 0
  | .dMagic => True
  | .dHdr => True
  | .dAlloc => s.decodeHeader
  | .dUlen => s.decodeHeader
  | .dSlen => s.decodeHeader ∧ s.ulen ≠ 0
  | .dData => s.decodeHeader ∧ s.ulen ≠ 0 ∧ s.slen.toNat ≤ stageCapOf s.blockSize.toNat
  | .dBlock => s.decodeHeader ∧ s.ulen ≠ 0 ∧ s.slen.toNat ≤ stageCapOf s.blockSize.toNat
  | .dEos => s.decodeHeader ∧ s.ulen = 0
  | .dTrailer => s.decodeHeader ∧ s.ulen = 0
  | .done =>
    match s.mode with
    | .none => False
    | .encode => s.encodeOperands ∧ s.encodeHeader ∧ s.ulen = 0 ∧ s.slen = 0
    | .decode => s.decodeHeader ∧ s.ulen = 0
  | .failed => True

/-- Both halves of an accumulator value are below 65521 (R157). -/
abbrev ckLegal (w : Word) : Prop := w.toNat % 65536 < ckModulus ∧ w.toNat / 65536 < ckModulus

/-- The weighted sum of R157 (c): `n*x_1 + (n-1)*x_2 + ... + 1*x_n`. -/
def weightedSum : Bytes → Nat
  | [] => 0
  | x :: t => (t.length + 1) * x.toNat + weightedSum t

/-- The phases at which the operation has initialised its accumulator (R134, R172). -/
def Phase.accumulating : Phase → Bool
  | .idle | .eHdr | .eInit | .failed => false
  | _ => true

/-- The invariant every step keeps. -/
structure State.Inv (s : State) : Prop where
  /-- STAGE is in canonical form. -/
  stageWf : s.stage.wf
  /-- No byte of STAGE lies beyond the memory built (R42). -/
  stageBuilt : ∀ c ∈ s.stage, c.1 < physStage
  /-- MODE fits PHASE. -/
  mode : modeFits s.mode s.phase = true
  /-- There is an error exactly in FAILED (R270, R131). -/
  failed : s.err.isSome = true ↔ s.phase = .failed
  /-- An error is one of its mode. -/
  cause : ∀ c, s.err = some c → causeFits c s.mode = true
  /-- CKCHK says what R30 says of it. -/
  checked : s.ckchk = true →
    s.phase = .done ∧ s.mode = .decode ∧ cksumFlag s.flags = true ∧ s.ckrx = ckFinal s.ckacc
  /-- A Decode that ended DONE has `CKCHK = FLAGS[0]` (R232). -/
  decoded : s.phase = .done → s.mode = .decode → s.ckchk = cksumFlag s.flags
  /-- The registers the operation has written hold what its rules wrote. -/
  registers : s.registersFit
  /-- The accumulator's halves are below the modulus (R157). -/
  accumulator : s.phase.accumulating = true → ckLegal s.ckacc

/-! Encode as a function (R183). -/

/-- The first `n` of the consecutive pieces of `B` bytes of `X`, the last shorter if need be. -/
def piecesUpTo (B : Nat) : Nat → Bytes → List Bytes
  | 0, _ => []
  | _ + 1, [] => []
  | n + 1, x :: t => (x :: t).take B :: piecesUpTo B n ((x :: t).drop B)

/-- The split of `X` into pieces of `B` bytes, all but the last; no piece when `X` is empty (R183). -/
def pieces (B : Nat) (X : Bytes) : List Bytes := piecesUpTo B X.length X

/-! The premises of a round trip (R235). -/

/-- What the codec makes of `Y` it turns back into `Y`. -/
abbrev Codec.givesBack (c : Codec) (lv : Byte) (Y : Bytes) : Prop :=
  codecDecompress c (codecCompress c lv Y) (BitVec.ofNat 32 Y.length) = some Y

/-- `CodecRoundTrip` (R245), for the byte sequences whose length a block record can carry. -/
def Codec.RoundTrip (c : Codec) : Prop :=
  ∀ (lv : Byte) (Y : Bytes), levelAllowed lv = true → 1 ≤ Y.length → Y.length < 2 ^ 32 → c.givesBack lv Y

/-- `NoTie` (R235): no block of `X` has a compressed form of exactly its length, unless that form is the block. -/
abbrev noTie (c : Codec) (lv : Byte) (B : Word) (X : Bytes) : Prop :=
  ∀ Y ∈ pieces B.toNat X, (codecCompress c lv Y).length ≠ Y.length ∨ codecCompress c lv Y = Y

/-! Encode as a function (R183), continued. -/

/-- `be32(len(b))`. -/
def lenField (b : Bytes) : Bytes := be32 (BitVec.ofNat 32 b.length)

/-- `Rec(lv, Y)` (R183). -/
def recordBytes (c : Codec) (lv : Byte) (Y : Bytes) : Bytes :=
  if Y.length < (codecCompress c lv Y).length then lenField Y ++ lenField Y ++ Y
  else lenField Y ++ lenField (codecCompress c lv Y) ++ codecCompress c lv Y

/-- `Enc(lv, B, X)` (R183). -/
def container (c : Codec) (lv : Byte) (B : Word) (X : Bytes) : Bytes :=
  magic ++ be32 1 ++ [1] ++ [lv] ++ be32 B ++ (pieces B.toNat X).flatMap (recordBytes c lv) ++ be32 0 ++ be32 0 ++
    be32 (ckFinal (ckUpdate ckInit X))

/-! Decode as a function (R234). -/

/-- How a Decode ends: the error, what is on OUT, the accumulator, what is left of the input, whether it was checked. -/
structure DecodeEnd where
  err : Option Cause
  out : Bytes
  acc : Word
  rest : Bytes
  checked : Bool
  deriving DecidableEq, Repr

/-- The input ended where bytes were required. -/
def endedEarly (c : Cause) (out : Bytes) (acc : Word) : DecodeEnd := ⟨some c, out, acc, [], false⟩

/-- The end of R234, behind the marker. -/
def decodeTrailer (flags : Word) (out : Bytes) (acc : Word) (W : Bytes) : DecodeEnd :=
  if cksumFlag flags = false then ⟨none, out, acc, W, false⟩
  else if W.length < 4 then endedEarly .ioUnexpectedEoi out acc
  else if unbe32 (W.take 4) ≠ ckFinal acc then ⟨some .checksumMismatch, out, acc, W.drop 4, false⟩
  else ⟨none, out, acc, W.drop 4, true⟩

/-- The original bytes of a block with lengths `u`, `s` and stored bytes `p`, or why there are none (R234). -/
def originalBytes (c : Codec) (u s : Word) (p : Bytes) : Except Cause Bytes :=
  if s = u then .ok p
  else match codecDecompress c p u with
    | none => .error .corruptCodecFail
    | some d => if d.length ≠ u.toNat then .error .corruptLengthMismatch else .ok d

/-- The loop of R234, at most as many passes as its first number says. -/
def decodeBlocks (c : Codec) (flags bs : Word) : Nat → Bytes → Word → Bytes → DecodeEnd
  | 0, out, acc, _ => endedEarly .ioUnexpectedEoi out acc
  | n + 1, out, acc, W =>
    if W.length < 4 then endedEarly .ioUnexpectedEoi out acc
    else
      let u := unbe32 (W.take 4)
      if W.length < 8 then endedEarly .ioUnexpectedEoi out acc
      else if u = 0 then decodeTrailer flags out acc (W.drop 8)
      else
        let s := unbe32 ((W.drop 4).take 4)
        let V := W.drop 8
        if stageCapOf bs.toNat < s.toNat then ⟨some .corruptStageOversize, out, acc, V, false⟩
        else if V.length < s.toNat then endedEarly .truncatedShortBlock out acc
        else match originalBytes c u s (V.take s.toNat) with
          | .error e => ⟨some e, out, acc, V.drop s.toNat, false⟩
          | .ok d => decodeBlocks c flags bs n (out ++ d) (ckUpdate acc d) (V.drop s.toNat)

/-- Decode of `W` (R234): `out` is what stood on OUT before. A pass of the loop takes eight bytes at least, so as many
passes as there are bytes are enough. -/
def decodeStream (c : Codec) (out W : Bytes) : DecodeEnd :=
  if W.length < 7 then endedEarly .ioUnexpectedEoi out ckInit
  else if W.take 7 ≠ magic then ⟨some .formatBadMagic, out, ckInit, W.drop 7, false⟩
  else if W.length < 17 then endedEarly .ioUnexpectedEoi out ckInit
  else
    let bs := unbe32 ((W.drop 13).take 4)
    if W.getD 11 0 ≠ 1 then ⟨some .formatBadMethod, out, ckInit, W.drop 17, false⟩
    else if bs.toNat < 1024 ∨ 8388608 < bs.toNat then ⟨some .formatBadBlockSize, out, ckInit, W.drop 17, false⟩
    else decodeBlocks c (unbe32 ((W.drop 7).take 4)) bs (W.length + 1) out ckInit (W.drop 17)

end Sys2Proof.Machine
end

