-- ==== Sys2Proof/Certificates/Slice0/Obligations.lean ====
section
/-! DEFINITION. The statements about the model, from the numbered rules of spec/. -/

open Sys2Proof Sys2Proof.Machine

/-! ## Encoding -/

/-- Words written out from R92, R96, R98, R99, R102 decode to what they stand for. -/
def Obligations.DecoderReadsWrittenOutWords : Prop :=
  decodeCommand 0x010100040000 = .ok (.encode 1 262144) ∧
  decodeCommand 0x0277DEADBEEF = .ok (.decode 0x77 0xDEADBEEF) ∧
  decodeCommand 0x030100000400 = .error .reservedOp ∧
  decode .header [0x00, 0xE9, 0x4C, 0x5A, 0x4F, 0xFF, 0x1A, 0x00, 0x00, 0x00, 0x01, 0x01, 0x09, 0x00, 0x04, 0x00, 0x00] =
    .ok (.hdr 1 1 9 262144, []) ∧
  decode .block [0x00, 0x00, 0x00, 0x03, 0x00, 0x00, 0x00, 0x03, 0x61, 0x62, 0x63] =
    .ok (.blkS [0x61, 0x62, 0x63], []) ∧
  decode .block [0x00, 0x00, 0x00, 0x08, 0x00, 0x00, 0x00, 0x03, 0xAA, 0xBB, 0xCC] =
    .ok (.blkC 8 [0xAA, 0xBB, 0xCC], []) ∧
  decode .block [0x00, 0x00, 0x00, 0x00, 0x00, 0x00, 0x00, 0x07, 0x99] = .ok (.eos 7, [0x99]) ∧
  decode .trailer [0x02, 0x4D, 0x01, 0x27] = .ok (.cksum 0x024D0127, [])

/-- Every well-formed operation that has an encoding is read back whole from its bytes, whatever follows them. -/
def Obligations.DecodeOfEncodeIsIdentity : Prop :=
  ∀ (i : Instr) (p : Position) (rest : Bytes), i.wf = true → i.position = some p →
    decode p (encode i ++ rest) = .ok (i, rest)

/-- Whatever is decoded is well formed, stands at its position, and its encoding is exactly the bytes consumed: no two
byte sequences decode to one operation and no bit is dropped. -/
def Obligations.EncodeOfDecodeIsIdentity : Prop :=
  ∀ (p : Position) (b : Bytes) (i : Instr) (rest : Bytes), decode p b = .ok (i, rest) →
    i.wf = true ∧ i.position = some p ∧ encode i ++ rest = b

/-- The tie hazard on the wire (R312): a compressed form of exactly the block's length reads back as a stored block. -/
def Obligations.TieBlockReadsBackAsStored : Prop :=
  ∀ (u : Word) (c rest : Bytes), u ≠ 0 → c.length = u.toNat →
    decode .block (encode (.blkC u c) ++ rest) = .ok (.blkS c, rest)

/-! ## A step runs the decoded operation -/

/-- A command the host has written is taken in the next step, which is the operation its word encodes. The host's write
puts the word into S11 and changes nothing else (R44, R130); its move `run` lets the framer take the step it takes when the
host makes no move, so what is said of a quiet framer holds in every run. The host's list of moves is the model's
(notes/assumptions/8.md). -/
def Obligations.StepRunsTheWrittenCommand : Prop :=
  ∀ (s : State) (w : CmdWord) (h : List HostMove),
    (∀ i, s.cmd = some w → decodeCommand w = .ok i → step s = exec i { s with cmd := none }) ∧
    (s.cmd = none → s.host = .command w :: h → step s = .next { s with cmd := some w, host := h }) ∧
    (∀ t, s.quiet → step s = .next t → step { s with host := .run :: h } = .next { t with host := h })

/-- When the rest of a record's bytes lies on IN at a Decode phase that fetches a part of it, the step consumes that part
and is the record's operation at that phase. A header may have any method byte. -/
def Obligations.StepRunsTheRecordOnIn : Prop :=
  ∀ (s : State) (i : Instr) (off n : Nat) (rest : List InEvent), s.quiet → fetchSpan i s.phase = some (off, n) →
    (i.wf = true ∨ ∃ f m lv bs, i = .hdr f m lv bs) →
    (s.phase = .dData → s.slen.toNat = n) → (s.phase = .dTrailer → cksumFlag s.flags = true) →
    s.inp = ((encode i).drop off).map .byte ++ rest →
    step s = exec i { s with inp := ((encode i).drop (off + n)).map .byte ++ rest }

/-- At the phases that write a record, and at the one that finishes a block record, the step is the operation of the
record that the registers and STAGE make up. -/
def Obligations.StepRunsTheRecordInRegisters : Prop :=
  ∀ s : State, s.quiet →
    (s.phase = .eHdr → step s = exec (.hdr encFlags methodLzo s.level s.blockSize) s) ∧
    (s.phase = .eEos → step s = exec (.eos 0) s) ∧
    (s.phase = .eTrailer → step s = exec (.cksum (ckFinal s.ckacc)) s) ∧
    (s.phase = .dBlock → s.slen.toNat ≤ stageCapOf s.blockSize.toNat →
      (s.slen = s.ulen → step s = exec (.blkS (s.stage.bytesAt 0 s.slen.toNat)) s) ∧
      (s.slen ≠ s.ulen → step s = exec (.blkC s.ulen (s.stage.bytesAt 0 s.slen.toNat)) s))

/-- A record is expected by position alone (R105): run at any other phase it is refused by name, and stored bytes that
STAGE cannot hold (R62) stop the machine. No step reaches either (NoStepStops); notes/assumptions/9.md and 11.md. -/
def Obligations.RecordsOutOfPositionStop : Prop :=
  ∀ (s : State) (f u v : Word) (m lv : Byte) (bs : Word) (d : Bytes),
    (s.phase ∉ [.eHdr, .dMagic, .dHdr, .dAlloc] → exec (.hdr f m lv bs) s = .refused .outOfPosition) ∧
    (s.phase ∉ [.eBlock, .dUlen, .dSlen, .dData, .dBlock] →
      exec (.blkS d) s = .refused .outOfPosition ∧ exec (.blkC u d) s = .refused .outOfPosition) ∧
    (s.phase ∉ [.eEos, .dUlen, .dEos] → exec (.eos v) s = .refused .outOfPosition) ∧
    (s.phase ∉ [.eTrailer, .dTrailer] → exec (.cksum v) s = .refused .outOfPosition) ∧
    (s.phase = .dData → stageCapOf s.blockSize.toNat < d.length →
      exec (.blkS d) s = .fault .stageOutOfRange ∧ exec (.blkC u d) s = .fault .stageOutOfRange)

/-! ## Host commands -/

/-- `ENCODE` considered: accepted iff its operands are allowed (R132, decision D14), with exactly the registers of R131
and R132 written; otherwise refused. -/
def Obligations.EncodeCommandAcceptedIffAllowed : Prop :=
  ∀ (s : State) (lv : Byte) (bs : Word), s.busy = false →
    ((lv = levelFast ∨ lv = levelBest) ∧ 1 ≤ bs.toNat ∧ bs.toNat ≤ physStage →
      exec (.encode lv bs) s = .next
        { s with ckchk := false, err := none, mode := .encode, phase := .eHdr, level := lv, blockSize := bs }) ∧
    (¬((lv = levelFast ∨ lv = levelBest) ∧ 1 ≤ bs.toNat ∧ bs.toNat ≤ physStage) →
      ∃ c, causeFits c .none = true ∧ exec (.encode lv bs) s = .next
        { s with ckchk := false, err := some c, mode := .none, phase := .failed })

/-- `DECODE` considered: always accepted, operands ignored, the accumulator initialised (R134, decision D19). -/
def Obligations.DecodeCommandAccepted : Prop :=
  ∀ (s : State) (lv : Byte) (bs : Word), s.busy = false →
    exec (.decode lv bs) s = .next
      { s with ckchk := false, err := none, mode := .decode, phase := .dMagic, ckacc := ckInit }

/-- A considered word that is not accepted (R137, R268, decision D14): the sub-cause is the first check that fails, no
port is touched, and only MODE, PHASE and the status fields are written. -/
def Obligations.RefusedCommandReportsFirstCause : Prop :=
  ∀ (s : State) (w : CmdWord), s.cmd = some w → s.busy = false → cmdOp w ≠ 0x02 →
    (cmdOp w ≠ 0x01 ∨ levelAllowed (cmdLevel w) = false ∨ cmdBlockSize w = 0 ∨ physStage < (cmdBlockSize w).toNat) →
    step s = .next
      { s with
        cmd := none, ckchk := false, mode := .none, phase := .failed
        err := some (if cmdOp w ≠ 0x01 then .commandBadOp
          else if levelAllowed (cmdLevel w) = false then .commandBadLevel
          else if cmdBlockSize w = 0 then .commandZeroBlockSize
          else .commandBlockSizeTooBig) }

/-- A word written while busy is lost (R139, decision D14), whatever it encodes. -/
def Obligations.CommandWhileBusyIgnored : Prop :=
  ∀ (s : State) (w : CmdWord), s.cmd = some w → s.busy = true → step s = .next { s with cmd := none }

/-! ## The integrity accumulator -/

/-- `CKACC <- CK_INIT` (R151) and nothing else; invoked by `E_INIT` and at acceptance of `DECODE`. What number CK_INIT is
is decided by the spec (R156, decision D5) and not said here. -/
def Obligations.AccumulatorInitialised : Prop :=
  ∀ s : State, exec .ckInit s = .next { s with ckacc := ckInit } ∧
    (s.quiet → s.phase = .eInit → ∃ t, step s = .next t ∧ t.ckacc = ckInit) ∧
    (∀ lv bs, s.busy = false → ∃ t, exec (.decode lv bs) s = .next t ∧ t.ckacc = ckInit)

/-- `CKACC <- CkUpdate(CKACC, b)` (R152) and nothing else, where CkUpdate is the left fold of the one-byte step. -/
def Obligations.AccumulatorFoldsBytesInOrder : Prop :=
  (∀ (s : State) (b : Bytes), exec (.ckUpdate b) s = .next { s with ckacc := ckUpdate s.ckacc b }) ∧
  (∀ w : Word, ckUpdate w [] = w) ∧
  (∀ (w : Word) (x : Byte) (t : Bytes), ckUpdate w ([x] ++ t) = ckUpdate (ckStep w x) t)

/-- `CK.FINAL` returns `CkFinal(CKACC)` (R153), `CK.CMP v` whether `v = CkFinal(CKACC)` (R154); no register changes. Where
the answer is returned is the model's own field (notes/assumptions/5.md). -/
def Obligations.FinalAndCompareOnlyReturn : Prop :=
  (∀ s : State, exec .ckFinal s = .next { s with ret := .word (ckFinal s.ckacc) }) ∧
  (∀ (s : State) (v : Word), v = ckFinal s.ckacc → exec (.ckCmp v) s = .next { s with ret := .truth true }) ∧
  (∀ (s : State) (v : Word), v ≠ ckFinal s.ckacc → exec (.ckCmp v) s = .next { s with ret := .truth false })

/-- Chunking invariance (R155): two updates are one with the concatenation, and so are any number of them. -/
def Obligations.ChecksumIndependentOfChunking : Prop :=
  (∀ (s : Word) (x y : Bytes), ckUpdate (ckUpdate s x) y = ckUpdate s (x ++ y)) ∧
  (∀ (s : Word) (bs : List Bytes), bs.foldl ckUpdate s = ckUpdate s bs.flatten)

/-- The decided checksum function (R156, R157 (a) and (b), decision D5): from a legal accumulator the one-byte step is one
conditional subtraction in each half, and both halves stay below 65521. -/
def Obligations.ChecksumStepIsAdler : Prop :=
  ckInit.toNat = 1 ∧ (∀ s : Word, ckFinal s = s) ∧
  ∀ (s : Word) (x : Byte), ckLegal s →
    let a := s.toNat % 65536 + x.toNat
    let a' := if a < 65521 then a else a - 65521
    let b := s.toNat / 65536 + a'
    let b' := if b < 65521 then b else b - 65521
    (ckStep s x).toNat = b' * 65536 + a' ∧ ckLegal (ckStep s x)

/-- The closed form of the decided checksum function (R157 (c), decision D5). -/
def Obligations.ChecksumClosedForm : Prop :=
  ∀ b : Bytes,
    (ckUpdate ckInit b).toNat % 65536 = (1 + (b.map BitVec.toNat).sum) % 65521 ∧
    (ckUpdate ckInit b).toNat / 65536 = (b.length + weightedSum b) % 65521

/-! ## The CODEC port -/

/-- The two port calls run on their own (R241, R243): the codec's answer is returned and no register changes; an answer
the codec table lists is that one. -/
def Obligations.CodecCallsReturnTheAnswer : Prop :=
  (∀ (s : State) (lv : Byte) (b : Bytes),
    exec (.codecCompress lv b) s = .next { s with ret := .bytes (codecCompress s.codec lv b) } ∧
    ∀ a, s.codec.compress.lookup (lv, b) = some a → codecCompress s.codec lv b = a) ∧
  (∀ (s : State) (p : Bytes) (n : Word),
    (∀ d, codecDecompress s.codec p n = some d →
      exec (.codecDecompress p n) s = .next { s with ret := .bytes d }) ∧
    (codecDecompress s.codec p n = none →
      exec (.codecDecompress p n) s = .next { s with ret := .codecFail }) ∧
    ∀ a, s.codec.decompress.lookup (p, n) = some a → codecDecompress s.codec p n = a)

/-! ## Encode -/

/-- `E_HDR` (R171): FLAGS and METHOD are written and the 17 bytes go out; a failing write leaves a part of them and
raises `IoError(OUT_FAIL)`. -/
def Obligations.HeaderEmitted : Prop :=
  ∀ (s : State) (f : Word) (m lv : Byte) (bs : Word), s.phase = .eHdr →
    (s.quiet → step s = exec (.hdr 0x00000001 1 s.level s.blockSize) s) ∧
    (s.outReady = true → exec (.hdr f m lv bs) s = .next
      { s with
        flags := f, method := m, phase := .eInit, outAns := s.outAns.tail
        out := s.out ++ ([0x00, 0xE9, 0x4C, 0x5A, 0x4F, 0xFF, 0x1A] ++ be32 f ++ [m] ++ [lv] ++ be32 bs) }) ∧
    (∀ n t, s.outAns = .fail n :: t → exec (.hdr f m lv bs) s = .next
      { s with
        flags := f, method := m, phase := .failed, err := some .ioOutFail, outAns := t
        out := s.out ++ ([0x00, 0xE9, 0x4C, 0x5A, 0x4F, 0xFF, 0x1A] ++ be32 f ++ [m] ++ [lv] ++ be32 bs).take n })

/-- `E_INIT` (R172): CK.INIT, then `E_READ`. -/
def Obligations.EncodeInitialisesAccumulator : Prop :=
  ∀ s : State, s.quiet → s.phase = .eInit → step s = .next { s with ckacc := ckInit, phase := .eRead }

/-- `E_READ` (R173, decision D8): a full block, a short last block, no bytes at the end of the input, a failure. STAGE is
said byte by byte. -/
def Obligations.EncodeReadsBlocks : Prop :=
  ∀ (s : State) (b : Bytes) (rest : List InEvent), s.quiet → s.phase = .eRead → 1 ≤ s.blockSize.toNat →
    (b.length = s.blockSize.toNat → s.inp = b.map .byte ++ rest →
      ∃ t, step s = .next { s with inp := rest, stage := t, ulen := s.blockSize, phase := .eBlock } ∧
        ∀ a, t.byteAt a = if a < b.length then b.getD a 0 else s.stage.byteAt a) ∧
    (0 < b.length → b.length < s.blockSize.toNat → s.inp = b.map .byte →
      ∃ t, step s = .next
          { s with inp := [], stage := t, ulen := BitVec.ofNat 32 b.length, phase := .eBlock } ∧
        ∀ a, t.byteAt a = if a < b.length then b.getD a 0 else s.stage.byteAt a) ∧
    (s.inp = [] → step s = .next { s with phase := .eEos }) ∧
    (b.length < s.blockSize.toNat → s.inp = b.map .byte ++ .fail :: rest →
      step s = .next { s with inp := rest, err := some .ioInFail, phase := .failed })

/-- `E_BLOCK` (R174, R175, R176): the accumulator takes the original bytes; the block is stored iff the codec's answer is
strictly longer; ULEN, STAGE and everything else stay. -/
def Obligations.EncodeBlockStep : Prop :=
  ∀ s : State, s.quiet → s.phase = .eBlock → s.ulen.toNat ≤ s.blockSize.toNat → s.outReady = true →
    let blk := s.stage.bytesAt 0 s.ulen.toNat
    let c := codecCompress s.codec s.level blk
    (s.ulen.toNat < c.length → step s = .next
      { s with
        ckacc := ckUpdate s.ckacc blk, slen := s.ulen, phase := .eRead, outAns := s.outAns.tail
        out := s.out ++ (be32 s.ulen ++ be32 s.ulen ++ blk) }) ∧
    (c.length ≤ s.ulen.toNat → step s = .next
      { s with
        ckacc := ckUpdate s.ckacc blk, slen := BitVec.ofNat 32 c.length, phase := .eRead, outAns := s.outAns.tail
        out := s.out ++ (be32 s.ulen ++ be32 (BitVec.ofNat 32 c.length) ++ c) })

/-- A failing write of a block record (R175, R185, R271): the accumulator already includes the block, a part of the record
is on OUT, the operation ends with `IoError(OUT_FAIL)`. -/
def Obligations.EncodeBlockWriteFailure : Prop :=
  ∀ (s : State) (n : Nat) (t : List OutAnswer), s.quiet → s.phase = .eBlock →
    s.ulen.toNat ≤ s.blockSize.toNat → s.outAns = .fail n :: t →
    let blk := s.stage.bytesAt 0 s.ulen.toNat
    let c := codecCompress s.codec s.level blk
    let slen := if s.ulen.toNat < c.length then s.ulen else BitVec.ofNat 32 c.length
    let stored := if s.ulen.toNat < c.length then blk else c
    step s = .next
      { s with
        ckacc := ckUpdate s.ckacc blk, slen := slen, phase := .failed, err := some .ioOutFail, outAns := t
        out := s.out ++ (be32 s.ulen ++ be32 slen ++ stored).take n }

/-- Emission of `BLK.S` (R177). -/
def Obligations.StoredBlockEmitted : Prop :=
  ∀ (s : State) (d : Bytes), s.phase = .eBlock →
    (s.outReady = true → exec (.blkS d) s = .next
      { s with
        slen := BitVec.ofNat 32 d.length, phase := .eRead, outAns := s.outAns.tail
        out := s.out ++ (be32 (BitVec.ofNat 32 d.length) ++ be32 (BitVec.ofNat 32 d.length) ++ d) }) ∧
    (∀ n t, s.outAns = .fail n :: t → exec (.blkS d) s = .next
      { s with
        slen := BitVec.ofNat 32 d.length, phase := .failed, err := some .ioOutFail, outAns := t
        out := s.out ++ (be32 (BitVec.ofNat 32 d.length) ++ be32 (BitVec.ofNat 32 d.length) ++ d).take n })

/-- Emission of `BLK.C` (R178), a tie and an empty compressed form included. -/
def Obligations.CompressedBlockEmitted : Prop :=
  ∀ (s : State) (u : Word) (c : Bytes), s.phase = .eBlock →
    (s.outReady = true → exec (.blkC u c) s = .next
      { s with
        slen := BitVec.ofNat 32 c.length, phase := .eRead, outAns := s.outAns.tail
        out := s.out ++ (be32 u ++ be32 (BitVec.ofNat 32 c.length) ++ c) }) ∧
    (∀ n t, s.outAns = .fail n :: t → exec (.blkC u c) s = .next
      { s with
        slen := BitVec.ofNat 32 c.length, phase := .failed, err := some .ioOutFail, outAns := t
        out := s.out ++ (be32 u ++ be32 (BitVec.ofNat 32 c.length) ++ c).take n })

/-- The lengths of every block record Encode emits (R179): `1 <= u <= BLOCK_SIZE`, `0 <= s <= u`, and `s` bytes follow. -/
def Obligations.EmittedBlockLengthsInRange : Prop :=
  ∀ s t : State, s.quiet → s.phase = .eBlock → 1 ≤ s.ulen.toNat → s.ulen.toNat ≤ s.blockSize.toNat →
    step s = .next t → t.phase = .eRead →
    ∃ (u n : Word) (d : Bytes), t.out = s.out ++ (be32 u ++ be32 n ++ d) ∧ d.length = n.toNat ∧
      1 ≤ u.toNat ∧ u.toNat ≤ s.blockSize.toNat ∧ n.toNat ≤ u.toNat

/-- `E_EOS` (R180): ULEN and SLEN are cleared and eight zero bytes go out. -/
def Obligations.EosEmitted : Prop :=
  ∀ (s : State) (v : Word), s.phase = .eEos →
    (s.quiet → step s = exec (.eos 0) s) ∧
    (s.outReady = true → exec (.eos v) s = .next
      { s with
        ulen := 0, slen := v, phase := .eTrailer, outAns := s.outAns.tail
        out := s.out ++ ([0x00, 0x00, 0x00, 0x00] ++ be32 v) }) ∧
    (∀ n t, s.outAns = .fail n :: t → exec (.eos v) s = .next
      { s with
        ulen := 0, slen := v, phase := .failed, err := some .ioOutFail, outAns := t
        out := s.out ++ ([0x00, 0x00, 0x00, 0x00] ++ be32 v).take n }) ∧
    be32 0 = [0x00, 0x00, 0x00, 0x00]

/-- `E_TRAILER` (R181): the final checksum, whatever FLAGS holds. -/
def Obligations.ChecksumEmitted : Prop :=
  ∀ (s : State) (v : Word), s.phase = .eTrailer →
    (s.quiet → step s = exec (.cksum (ckFinal s.ckacc)) s) ∧
    (s.outReady = true → exec (.cksum v) s = .next
      { s with phase := .done, outAns := s.outAns.tail, out := s.out ++ be32 v }) ∧
    (∀ n t, s.outAns = .fail n :: t → exec (.cksum v) s = .next
      { s with phase := .failed, err := some .ioOutFail, outAns := t, out := s.out ++ (be32 v).take n })

/-! ## Decode -/

/-- `D_MAGIC` (R201, R202): the seven bytes are consumed in every case and compared whole; nothing is written to OUT. -/
def Obligations.MagicCompared : Prop :=
  ∀ (s : State) (b : Bytes) (rest : List InEvent), s.quiet → s.phase = .dMagic →
    (b.length = 7 → s.inp = b.map .byte ++ rest → b = [0x00, 0xE9, 0x4C, 0x5A, 0x4F, 0xFF, 0x1A] →
      step s = .next { s with inp := rest, phase := .dHdr }) ∧
    (b.length = 7 → s.inp = b.map .byte ++ rest → b ≠ [0x00, 0xE9, 0x4C, 0x5A, 0x4F, 0xFF, 0x1A] →
      step s = .next { s with inp := rest, err := some .formatBadMagic, phase := .failed }) ∧
    (b.length < 7 → s.inp = b.map .byte →
      step s = .next { s with inp := [], err := some .ioUnexpectedEoi, phase := .failed }) ∧
    (b.length < 7 → s.inp = b.map .byte ++ .fail :: rest →
      step s = .next { s with inp := rest, err := some .ioInFail, phase := .failed })

/-- `D_HDR` (R204, R205, R206): the fields of the ten bytes; all four registers are latched before either check; the
method is checked first; the block size is unsigned; a read that does not give ten bytes writes no register. -/
def Obligations.HeaderConsumed : Prop :=
  (∀ (s : State) (b : Bytes) (rest : List InEvent), s.quiet → s.phase = .dHdr →
    (b.length = 10 → s.inp = b.map .byte ++ rest →
      step s = exec (.hdr (unbe32 (b.take 4)) (b.getD 4 0) (b.getD 5 0) (unbe32 (b.drop 6))) { s with inp := rest }) ∧
    (b.length < 10 → s.inp = b.map .byte →
      step s = .next { s with inp := [], err := some .ioUnexpectedEoi, phase := .failed }) ∧
    (b.length < 10 → s.inp = b.map .byte ++ .fail :: rest →
      step s = .next { s with inp := rest, err := some .ioInFail, phase := .failed })) ∧
  (∀ (s : State) (f : Word) (m lv : Byte) (bs : Word), s.phase = .dHdr →
    (m = 1 → 1024 ≤ bs.toNat → bs.toNat ≤ 8388608 → exec (.hdr f m lv bs) s = .next
      { s with flags := f, method := m, level := lv, blockSize := bs, phase := .dAlloc }) ∧
    (m ≠ 1 → exec (.hdr f m lv bs) s = .next
      { s with
        flags := f, method := m, level := lv, blockSize := bs, err := some .formatBadMethod, phase := .failed }) ∧
    (m = 1 → bs.toNat < 1024 ∨ 8388608 < bs.toNat → exec (.hdr f m lv bs) s = .next
      { s with
        flags := f, method := m, level := lv, blockSize := bs, err := some .formatBadBlockSize, phase := .failed }))

/-- The step at `D_ALLOC` (R208, decision D13): no register and no port is touched; StageCap becomes `STAGE_CAP(BLOCK_SIZE)`
(R40). That exec of HDR at `D_ALLOC` is that step, and that at `D_MAGIC`, its bytes fetched and matching, it only moves on, is
the model's reading and said by no rule: R90 and R105 give HDR only `D_MAGIC` and `D_HDR`, R208 speaks of the step alone
(notes/assumptions/9.md). -/
def Obligations.StagingBufferSized : Prop :=
  ∀ (s : State) (f : Word) (m lv : Byte) (bs : Word),
    (s.phase = .dMagic → exec (.hdr f m lv bs) s = .next { s with phase := .dHdr }) ∧
    (s.phase = .dAlloc →
      exec (.hdr f m lv bs) s = .next { s with phase := .dUlen } ∧
      (s.quiet → step s = .next { s with phase := .dUlen }) ∧
      State.stageCap { s with phase := .dUlen } = some (s.blockSize.toNat + s.blockSize.toNat / 16 + 67))

/-- `D_ULEN` (R210): the four bytes are latched; zero is the end-of-stream marker. -/
def Obligations.UncompressedLengthRead : Prop :=
  ∀ (s : State) (b : Bytes) (rest : List InEvent), s.quiet → s.phase = .dUlen →
    (b.length = 4 → s.inp = b.map .byte ++ rest → unbe32 b = 0 →
      step s = .next { s with inp := rest, ulen := 0, phase := .dEos }) ∧
    (b.length = 4 → s.inp = b.map .byte ++ rest → unbe32 b ≠ 0 →
      step s = .next { s with inp := rest, ulen := unbe32 b, phase := .dSlen }) ∧
    (b.length < 4 → s.inp = b.map .byte →
      step s = .next { s with inp := [], err := some .ioUnexpectedEoi, phase := .failed }) ∧
    (b.length < 4 → s.inp = b.map .byte ++ .fail :: rest →
      step s = .next { s with inp := rest, err := some .ioInFail, phase := .failed })

/-- `D_SLEN` (R212, R213, decision D12): the four bytes are latched; more than StageCap is refused before any stored byte
is read; StageCap itself is accepted; ULEN and BLOCK_SIZE are not compared. -/
def Obligations.StoredLengthRead : Prop :=
  ∀ (s : State) (b : Bytes) (rest : List InEvent), s.quiet → s.phase = .dSlen → b.length = 4 →
    s.inp = b.map .byte ++ rest →
    ((unbe32 b).toNat ≤ stageCapOf s.blockSize.toNat →
      step s = .next { s with inp := rest, slen := unbe32 b, phase := .dData }) ∧
    (stageCapOf s.blockSize.toNat < (unbe32 b).toNat →
      step s = .next
        { s with inp := rest, slen := unbe32 b, err := some .corruptStageOversize, phase := .failed })

/-- `D_DATA` (R214): exactly SLEN bytes into STAGE from index 0, every other byte of STAGE as before; a short read is
`TruncatedStreamError`. -/
def Obligations.StoredBytesRead : Prop :=
  ∀ (s : State) (b : Bytes) (rest : List InEvent), s.quiet → s.phase = .dData →
    s.slen.toNat ≤ stageCapOf s.blockSize.toNat →
    (b.length = s.slen.toNat → s.inp = b.map .byte ++ rest →
      ∃ t, step s = .next { s with inp := rest, stage := t, phase := .dBlock } ∧
        ∀ a, t.byteAt a = if a < b.length then b.getD a 0 else s.stage.byteAt a) ∧
    (b.length < s.slen.toNat → s.inp = b.map .byte →
      step s = .next { s with inp := [], err := some .truncatedShortBlock, phase := .failed }) ∧
    (b.length < s.slen.toNat → s.inp = b.map .byte ++ .fail :: rest →
      step s = .next { s with inp := rest, err := some .ioInFail, phase := .failed })

/-- `BLK.S` consumed (R217, R218, decision D19): written to OUT, then into the accumulator; a failing write leaves the
accumulator. The codec is not asked. -/
def Obligations.StoredBlockConsumed : Prop :=
  ∀ (s : State) (d : Bytes), s.phase = .dBlock → 0 < d.length →
    (s.outReady = true → exec (.blkS d) s = .next
      { s with out := s.out ++ d, outAns := s.outAns.tail, ckacc := ckUpdate s.ckacc d, phase := .dUlen }) ∧
    (∀ n t, s.outAns = .fail n :: t → exec (.blkS d) s = .next
      { s with out := s.out ++ d.take n, outAns := t, err := some .ioOutFail, phase := .failed })

/-- `BLK.C` consumed (R220; R221, decision D19): the codec's failure and a wrong length are found before anything of the
block is written; otherwise its answer is written to OUT, then into the accumulator. -/
def Obligations.CompressedBlockConsumed : Prop :=
  ∀ (s : State) (u : Word) (p : Bytes), s.phase = .dBlock → u ≠ 0 →
    (codecDecompress s.codec p u = none →
      exec (.blkC u p) s = .next { s with err := some .corruptCodecFail, phase := .failed }) ∧
    (∀ d, codecDecompress s.codec p u = some d → d.length ≠ u.toNat →
      exec (.blkC u p) s = .next { s with err := some .corruptLengthMismatch, phase := .failed }) ∧
    (∀ d, codecDecompress s.codec p u = some d → d.length = u.toNat → s.outReady = true →
      exec (.blkC u p) s = .next
        { s with out := s.out ++ d, outAns := s.outAns.tail, ckacc := ckUpdate s.ckacc d, phase := .dUlen }) ∧
    (∀ d n t, codecDecompress s.codec p u = some d → d.length = u.toNat → s.outAns = .fail n :: t →
      exec (.blkC u p) s = .next
        { s with out := s.out ++ d.take n, outAns := t, err := some .ioOutFail, phase := .failed })

/-- `EOS` consumed (R226, decision D6): the second field is latched and not tested. At `D_ULEN` its first field is. -/
def Obligations.EosConsumed : Prop :=
  ∀ (s : State) (v : Word),
    (s.phase = .dEos → exec (.eos v) s = .next { s with slen := v, phase := .dTrailer }) ∧
    (s.phase = .dUlen → exec (.eos v) s = .next { s with ulen := 0, phase := .dEos })

/-- `D_TRAILER` (R230): with the flag clear nothing is read; with it set the four bytes are latched in CKRX and compared
with the accumulator's final value. -/
def Obligations.TrailerChecked : Prop :=
  ∀ (s : State) (b : Bytes) (rest : List InEvent) (v : Word), s.phase = .dTrailer →
    (s.quiet → s.flags.getLsbD 0 = false → step s = .next { s with phase := .done }) ∧
    (s.quiet → s.flags.getLsbD 0 = true → b.length = 4 → s.inp = b.map .byte ++ rest →
      step s = exec (.cksum (unbe32 b)) { s with inp := rest }) ∧
    (s.quiet → s.flags.getLsbD 0 = true → b.length < 4 → s.inp = b.map .byte →
      step s = .next { s with inp := [], err := some .ioUnexpectedEoi, phase := .failed }) ∧
    (s.quiet → s.flags.getLsbD 0 = true → b.length < 4 → s.inp = b.map .byte ++ .fail :: rest →
      step s = .next { s with inp := rest, err := some .ioInFail, phase := .failed }) ∧
    (s.flags.getLsbD 0 = false → exec (.cksum v) s = .next { s with phase := .done }) ∧
    (s.flags.getLsbD 0 = true → v = ckFinal s.ckacc →
      exec (.cksum v) s = .next { s with ckrx := v, ckchk := true, phase := .done }) ∧
    (s.flags.getLsbD 0 = true → v ≠ ckFinal s.ckacc →
      exec (.cksum v) s = .next { s with ckrx := v, err := some .checksumMismatch, phase := .failed })

/-- The end of the input, and a failing read, where a Decode step requires bytes (R236, decision D9). -/
def Obligations.EndOfInputRaises : Prop :=
  ∀ (s : State) (k : Nat) (b : Bytes) (rest : List InEvent), s.quiet → s.portCall = .read k → s.phase ≠ .eRead →
    b.length < k →
    (s.inp = b.map .byte → step s = .next
      { s with
        inp := [], phase := .failed
        err := some (if s.phase = .dData then .truncatedShortBlock else .ioUnexpectedEoi) }) ∧
    (s.inp = b.map .byte ++ .fail :: rest →
      step s = .next { s with inp := rest, phase := .failed, err := some .ioInFail })

/-! ## Status, errors, reset, the host -/

/-- The STATUS word, field by field (R30, decision D11). -/
def Obligations.StatusWordFields : Prop :=
  ∀ s : State,
    (s.statusWord.getLsbD 0 = true ↔ s.phase ≠ .idle ∧ s.phase ≠ .done ∧ s.phase ≠ .failed) ∧
    (s.statusWord.getLsbD 1 = true ↔ s.phase = .done) ∧
    (s.statusWord.getLsbD 2 = true ↔ s.phase = .failed) ∧
    s.statusWord.getLsbD 3 = s.ckchk ∧
    (s.statusWord.extractLsb' 4 3).toNat = errCode s.err ∧
    (s.statusWord.extractLsb' 7 4).toNat = errInfo s.err ∧
    s.statusWord.extractLsb' 11 5 = 0

/-- The numbers of the errors (R261, R262, decision D10): the table, by which each pair stands for one error and no error
has code 0 or 7; what ERRCODE and ERRINFO hold (R30). -/
def Obligations.ErrorNumbersIdentifyTheCause : Prop :=
  (∀ e ∈ [(Cause.ioInFail, 1, 1), (.ioOutFail, 1, 2), (.ioUnexpectedEoi, 1, 3), (.formatBadMagic, 2, 1),
      (.formatBadMethod, 2, 2), (.formatBadBlockSize, 2, 3), (.truncatedShortBlock, 3, 1), (.corruptCodecFail, 4, 1),
      (.corruptLengthMismatch, 4, 2), (.corruptStageOversize, 4, 3), (.checksumMismatch, 5, 1), (.commandBadOp, 6, 1),
      (.commandBadLevel, 6, 2), (.commandZeroBlockSize, 6, 3), (.commandBlockSizeTooBig, 6, 4)],
    e.1.code = e.2.1 ∧ e.1.info = e.2.2) ∧
  (∀ c d : Cause, c.code = d.code → c.info = d.info → c = d) ∧
  (∀ c : Cause, 1 ≤ c.code ∧ c.code ≤ 6 ∧ 1 ≤ c.info ∧ c.info ≤ 4) ∧
  (∀ c : Cause, c.code = 6 ↔ causeFits c .none = true) ∧
  (∀ c : Cause, errCode (some c) = c.code ∧ errInfo (some c) = c.info) ∧ errCode none = 0 ∧ errInfo none = 0

/-- Abort (R270, decision D10): a step of the framer that ends in FAILED records an error and writes neither MODE nor
CKCHK nor STAGE; the header registers keep their values unless the step is the one that latches them, and so do ULEN,
SLEN, CKACC and CKRX. -/
def Obligations.AbortKeepsTheRegisters : Prop :=
  ∀ s t : State, s.quiet → s.busy = true → step s = .next t → t.phase = .failed →
    t.err.isSome = true ∧ t.mode = s.mode ∧ t.ckchk = s.ckchk ∧ t.stage = s.stage ∧
    (s.phase ≠ .eHdr → s.phase ≠ .dHdr → t.flags = s.flags ∧ t.method = s.method) ∧
    (s.phase ≠ .dHdr → t.level = s.level ∧ t.blockSize = s.blockSize) ∧
    (s.phase ≠ .eEos → t.ulen = s.ulen) ∧
    (s.phase ≠ .eEos → s.phase ≠ .eBlock → s.phase ≠ .dSlen → t.slen = s.slen) ∧
    (s.phase ≠ .eBlock → t.ckacc = s.ckacc) ∧
    (s.phase ≠ .dTrailer → t.ckrx = s.ckrx)

/-- Waiting: in IDLE, DONE and FAILED the framer takes no step (R25, R270, R278), and a step whose port does not answer
(R292; notes/assumptions/7.md) changes nothing. -/
def Obligations.WaitingChangesNothing : Prop :=
  ∀ s : State, s.quiet →
    (s.busy = false → step s = .next s) ∧
    (∀ (k : Nat) (b : Bytes) (rest : List InEvent), s.portCall = .read k → b.length < k →
      s.inp = b.map .byte ++ .stall :: rest → step s = .next s) ∧
    (∀ b : Bytes, s.portCall = .write b → b ≠ [] → s.outStalled = true → step s = .next s)

/-- What the spec gives for reset (R50, R300, decision D15). -/
def Obligations.ResetLeavesTheFramerIdle : Prop :=
  State.reset.mode.code = 0 ∧ State.reset.phase.code = 0 ∧ State.reset.statusWord = 0 ∧ State.reset.cmd = none ∧
  step State.reset = .next State.reset

/-- Reset at any time (R300, R301, decision D15): the operation ends without DONE and without an error code; what has
crossed OUT is not rolled back and what has crossed IN is not given back; of a port call in flight a part has crossed, no
other port changes, and when no operation runs none does. Which call is in flight, and where it can be cut, is the model's
choice (notes/assumptions/10.md). -/
def Obligations.ResetEndsTheOperation : Prop :=
  ∀ (s : State) (cut : Nat) (h : List HostMove), s.cmd = none → s.host = .reset cut :: h →
    ∃ t, step s = .next t ∧ t.mode = .none ∧ t.phase = .idle ∧ t.statusWord = 0 ∧ t.host = h ∧
      (∀ b, s.portCall = .write b → ∃ p, p <+: b ∧ t.out = s.out ++ p) ∧
      ((∀ b, s.portCall ≠ .write b) → t.out = s.out) ∧
      (∀ k, s.portCall = .read k → ∃ b : Bytes, b.length ≤ k ∧ s.inp = b.map .byte ++ t.inp) ∧
      ((∀ k, s.portCall ≠ .read k) → t.inp = s.inp) ∧
      (s.busy = false → t.out = s.out ∧ t.inp = s.inp)

/-- A host read (R44, decision D23): the register's value when not busy; a value of STATUS, MODE or PHASE at any time; no
register changes by a read. What each register reads as (R21, R24, R25, R30, decision D2), the narrower ones zero-extended.
That a read of STATUS, MODE or PHASE while busy shows the current step boundary, where R44 says some, is the model's choice
(notes/assumptions/6.md), as is the place the value is returned in. -/
def Obligations.HostReadsWithoutSideEffect : Prop :=
  (∀ (s : State) (r : ReadReg) (h : List HostMove), s.cmd = none → s.host = .read r :: h →
    (s.busy = false ∨ r = .status ∨ r = .mode ∨ r = .phase →
      step s = .next { s with host := h, hostData := s.regValue r }) ∧
    (∃ v n, v.toNat < 2 ^ r.width ∧ step s = .next { s with host := h, hostData := v, draws := n })) ∧
  (∀ s : State,
    s.regValue .status = s.statusWord.setWidth 32 ∧
    (s.mode = .none → s.regValue .mode = 0) ∧ (s.mode = .encode → s.regValue .mode = 1) ∧
    (s.mode = .decode → s.regValue .mode = 2) ∧
    (s.regValue .phase).toNat = s.phase.code ∧
    s.regValue .flags = s.flags ∧ s.regValue .method = s.method.setWidth 32 ∧
    s.regValue .level = s.level.setWidth 32 ∧ s.regValue .blockSize = s.blockSize ∧ s.regValue .ulen = s.ulen ∧
    s.regValue .slen = s.slen ∧ s.regValue .ckacc = s.ckacc ∧ s.regValue .ckrx = s.ckrx) ∧
  [Phase.idle, .eHdr, .eInit, .eRead, .eBlock, .eEos, .eTrailer, .dMagic, .dHdr, .dAlloc, .dUlen, .dSlen, .dData, .dBlock,
    .dEos, .dTrailer, .done, .failed].map Phase.code = List.range 18 ∧
  [ReadReg.status, .mode, .phase, .flags, .method, .level, .blockSize, .ulen, .slen, .ckacc, .ckrx].map
    (fun r => (r.number, r.width)) =
    [(0, 16), (1, 2), (2, 5), (3, 32), (4, 8), (5, 8), (6, 32), (7, 32), (8, 32), (9, 32), (10, 32)]

/-! ## The machine as a whole -/

/-- The invariant holds after reset. It rests there on the reset values the model names (notes/assumptions/1.md) only
where no rule reads them. -/
def Obligations.ResetMeetsTheInvariant : Prop := State.reset.Inv

/-- Every step keeps the invariant. -/
def Obligations.StepKeepsTheInvariant : Prop := ∀ s t : State, s.Inv → step s = .next t → t.Inv

/-- From a state that meets the invariant no step stops: no access to STAGE leaves it (R62) and no record is run out of
position, whatever the ports, the codec and the host do. -/
def Obligations.NoStepStops : Prop := ∀ s : State, s.Inv → ∃ t, step s = .next t

/-- The header registers are immutable (R23): FLAGS and METHOD change in `E_HDR` and `D_HDR` only, LEVEL and BLOCK_SIZE in
`D_HDR` and when an ENCODE is accepted only (or, all four, by reset). -/
def Obligations.HeaderRegistersImmutable : Prop :=
  ∀ s t : State, s.resetNext = false → step s = .next t →
    (t.flags ≠ s.flags ∨ t.method ≠ s.method → s.phase = .eHdr ∨ s.phase = .dHdr) ∧
    (t.level ≠ s.level ∨ t.blockSize ≠ s.blockSize →
      s.phase = .dHdr ∨ (s.cmd.isSome = true ∧ s.busy = false ∧ t.mode = .encode ∧ t.phase = .eHdr))

/-- No rollback (R271): no step takes anything back from OUT, and none gives back anything to IN, unless the host attaches
another stream. -/
def Obligations.PortsNeverRolledBack : Prop :=
  ∀ s t : State, step s = .next t →
    (s.attachOutNext = false → s.out <+: t.out) ∧ (s.driveInNext = false → t.inp <:+ s.inp)

/-- Only `E_READ` and `D_DATA` write STAGE (R63); reset leaves it unspecified (notes/assumptions/1.md). -/
def Obligations.OnlyReadStepsWriteStage : Prop :=
  ∀ s t : State, s.resetNext = false → step s = .next t → s.phase ≠ .eRead → s.phase ≠ .dData → t.stage = s.stage

/-- MODE is written only when a command is accepted or refused (R24, R285, decision D2), or by reset. -/
def Obligations.ModeWrittenOnlyByCommands : Prop :=
  ∀ s t : State, s.resetNext = false → step s = .next t → t.mode ≠ s.mode → s.cmd.isSome = true ∧ s.busy = false

/-- CKCHK is set by one rule only (R31, decision D11): on a trailer that is there and equal to the accumulator. -/
def Obligations.CheckedOnlyByAMatchingTrailer : Prop :=
  ∀ s t : State, step s = .next t → s.ckchk = false → t.ckchk = true →
    s.phase = .dTrailer ∧ s.flags.getLsbD 0 = true ∧ t.phase = .done ∧ t.ckrx = ckFinal t.ckacc

/-- The accumulator is written by CK.INIT and CK.UPDATE alone (R35; R151 and R152 say where): CK_INIT at `E_INIT` and when a
DECODE is accepted, the block in STAGE folded in at `E_BLOCK`, the bytes that went to OUT at `D_BLOCK`. Reset leaves it
unspecified (notes/assumptions/1.md). -/
def Obligations.AccumulatorWrittenOnlyByItsOperations : Prop :=
  ∀ s t : State, s.resetNext = false → step s = .next t → t.ckacc ≠ s.ckacc →
    (s.cmd = none ∧ s.phase = .eInit ∧ t.ckacc = ckInit) ∨
    ((∃ w, s.cmd = some w ∧ cmdOp w = 0x02) ∧ s.busy = false ∧ t.phase = .dMagic ∧ t.ckacc = ckInit) ∨
    (s.cmd = none ∧ s.phase = .eBlock ∧ t.ckacc = ckUpdate s.ckacc (s.stage.bytesAt 0 s.ulen.toNat)) ∨
    (s.cmd = none ∧ s.phase = .dBlock ∧ t.phase = .dUlen ∧
      ∃ b, b.length = s.ulen.toNat ∧ t.out = s.out ++ b ∧ t.ckacc = ckUpdate s.ckacc b)

/-- Encode as a function (R183): with well-behaved ports an accepted ENCODE ends DONE after two steps a block and six
more, has consumed the whole input and has written exactly `Enc(lv, B, X)`. -/
def Obligations.EncodeWritesTheContainer : Prop :=
  ∀ (s : State) (lv : Byte) (B : Word) (X : Bytes), s.busy = false → s.host = [] →
    s.cmd = some (encodeCommand 0x01 lv B) → (lv = levelFast ∨ lv = levelBest) → 1 ≤ B.toNat → B.toNat ≤ physStage →
    s.inCarries X → s.outWellBehaved →
    ∃ t, Host.Core.run core (2 * (pieces B.toNat X).length + 6) s = .next t ∧ t.phase = .done ∧ t.mode = .encode ∧
      t.err = none ∧ t.ckchk = false ∧ t.inp = [] ∧ t.out = s.out ++ container s.codec lv B X

/-- Decode as a function (R234): with well-behaved ports a DECODE ends as the function says, in its error, its output, its
accumulator and the input it leaves unread. -/
def Obligations.DecodeComputesTheStream : Prop :=
  ∀ (s : State) (w : CmdWord) (W : Bytes), s.busy = false → s.host = [] → s.cmd = some w → cmdOp w = 0x02 →
    s.inCarries W → s.outWellBehaved →
    ∃ n t, Host.Core.run core n s = .next t ∧ t.busy = false ∧ t.mode = .decode ∧
      t.err = (decodeStream s.codec s.out W).err ∧ t.out = (decodeStream s.codec s.out W).out ∧
      t.ckacc = (decodeStream s.codec s.out W).acc ∧ t.inp = ((decodeStream s.codec s.out W).rest).map .byte ∧
      t.ckchk = (decodeStream s.codec s.out W).checked ∧
      (t.phase = .done ↔ (decodeStream s.codec s.out W).err = none)

/-- Round trip (R235): a DECODE of the container an ENCODE writes ends DONE, checked, with the original data, when the
codec gives every block of the data back, as the premise CodecRoundTrip says of it (R245, Codec.RoundTrip), no block is a
tie (noTie), and the block size is one Decode accepts. -/
def Obligations.DecodeOfEncodedContainer : Prop :=
  ∀ (s : State) (w : CmdWord) (lv : Byte) (B : Word) (X rest : Bytes), s.busy = false → s.host = [] →
    s.cmd = some w → cmdOp w = 0x02 → 1024 ≤ B.toNat → B.toNat ≤ 8388608 →
    (∀ Y ∈ pieces B.toNat X, s.codec.givesBack lv Y) → noTie s.codec lv B X →
    s.inCarries (container s.codec lv B X ++ rest) → s.outWellBehaved →
    ∃ n t, Host.Core.run core n s = .next t ∧ t.phase = .done ∧ t.err = none ∧ t.ckchk = true ∧
      t.out = s.out ++ X ∧ t.inp = rest.map .byte

/-- An operation does not depend on the past (R46, R302, R319): two framers at rest with the same ports, whatever their
registers and STAGE hold, that take the same command step alike for ever in everything the ports and STATUS show. -/
def Obligations.OperationIndependentOfThePast : Prop :=
  ∀ (s t : State) (w : CmdWord) (n : Nat) (s' t' : State), s.busy = false → t.busy = false →
    s.cmd = some w → t.cmd = some w → s.host = [] → t.host = [] →
    s.inp = t.inp → s.out = t.out → s.outAns = t.outAns → s.codec = t.codec →
    Host.Core.run core (n + 1) s = .next s' → Host.Core.run core (n + 1) t = .next t' →
    s'.inp = t'.inp ∧ s'.out = t'.out ∧ s'.phase = t'.phase ∧ s'.mode = t'.mode ∧ s'.statusWord = t'.statusWord
end

