-- ==== Sys2Proof/Laws/Bytes.lean ====
section
/-! SUPPORT. The values of the parameters; byte order (R10): lengths and round trips of the big-endian forms, and the
fields of a command word (R102). -/

namespace Sys2Proof.Machine

/-! The values the spec decides (R7). -/

theorem ckInit_eq : ckInit = 1 := rfl
theorem ckFinal_eq (s : Word) : ckFinal s = s := rfl
theorem ckUpdate_nil (s : Word) : ckUpdate s [] = s := rfl
theorem ckUpdate_cons (s : Word) (x : Byte) (t : Bytes) : ckUpdate s (x :: t) = ckUpdate (ckStep s x) t := rfl
theorem levelFast_eq : levelFast = 1 := rfl
theorem levelBest_eq : levelBest = 9 := rfl
theorem stageCapOf_eq (bs : Nat) : stageCapOf bs = bs + bs / 16 + 64 + 3 := rfl
theorem physStage_eq : physStage = physStageMin + Config.stageBeyondMin := rfl
@[simp] theorem eosLen_eq : eosLen = 8 := rfl
@[simp] theorem eosRest_eq : eosRest = 4 := rfl

@[simp] theorem be32_take_eosRest (v : Word) : (be32 v).take eosRest = be32 v := rfl

/-! Byte order. -/

@[simp] theorem be32_length (v : Word) : (be32 v).length = 4 := rfl

@[simp] theorem be48_length (w : CmdWord) : (be48 w).length = 6 := rfl

@[simp] theorem magic_length : magic.length = 7 := rfl

/-- R10's formula. -/
theorem unbe_four (a b c d : Byte) :
    unbe [a, b, c, d] = a.toNat * 2 ^ 24 + b.toNat * 2 ^ 16 + c.toNat * 2 ^ 8 + d.toNat := by
  simp [unbe]; omega

theorem unbe_six (a b c d e f : Byte) :
    unbe [a, b, c, d, e, f] = a.toNat * 2 ^ 40 + b.toNat * 2 ^ 32 + c.toNat * 2 ^ 24 + d.toNat * 2 ^ 16 +
      e.toNat * 2 ^ 8 + f.toNat := by
  simp [unbe]; omega

@[simp] theorem unbe32_be32 (v : Word) : unbe32 (be32 v) = v := by
  apply BitVec.eq_of_toNat_eq
  have h := v.isLt
  simp only [unbe32, be32, unbe_four, BitVec.toNat_ofNat, BitVec.extractLsb'_toNat, Nat.shiftRight_eq_div_pow]
  omega

theorem be32_unbe32 (a b c d : Byte) : be32 (unbe32 [a, b, c, d]) = [a, b, c, d] := by
  have ha := a.isLt; have hb := b.isLt; have hc := c.isLt; have hd := d.isLt
  have h : (unbe32 [a, b, c, d]).toNat = a.toNat * 2 ^ 24 + b.toNat * 2 ^ 16 + c.toNat * 2 ^ 8 + d.toNat := by
    simp only [unbe32, unbe_four, BitVec.toNat_ofNat]; omega
  simp only [be32, List.cons.injEq, and_true]
  refine ⟨?_, ?_, ?_, ?_⟩ <;>
    (apply BitVec.eq_of_toNat_eq
     simp only [BitVec.extractLsb'_toNat, h, Nat.shiftRight_eq_div_pow]
     omega)

@[simp] theorem unbe48_be48 (w : CmdWord) : unbe48 (be48 w) = w := by
  apply BitVec.eq_of_toNat_eq
  have h := w.isLt
  simp only [unbe48, be48, unbe_six, BitVec.toNat_ofNat, BitVec.extractLsb'_toNat, Nat.shiftRight_eq_div_pow]
  omega

theorem be48_unbe48 (a b c d e f : Byte) : be48 (unbe48 [a, b, c, d, e, f]) = [a, b, c, d, e, f] := by
  have ha := a.isLt; have hb := b.isLt; have hc := c.isLt; have hd := d.isLt; have he := e.isLt; have hf := f.isLt
  have h : (unbe48 [a, b, c, d, e, f]).toNat = a.toNat * 2 ^ 40 + b.toNat * 2 ^ 32 + c.toNat * 2 ^ 24 +
      d.toNat * 2 ^ 16 + e.toNat * 2 ^ 8 + f.toNat := by
    simp only [unbe48, unbe_six, BitVec.toNat_ofNat]; omega
  simp only [be48, List.cons.injEq, and_true]
  refine ⟨?_, ?_, ?_, ?_, ?_, ?_⟩ <;>
    (apply BitVec.eq_of_toNat_eq
     simp only [BitVec.extractLsb'_toNat, h, Nat.shiftRight_eq_div_pow]
     omega)

theorem encodeCommand_toNat (op lv : Byte) (bs : Word) :
    (encodeCommand op lv bs).toNat = op.toNat * 2 ^ 40 + lv.toNat * 2 ^ 32 + bs.toNat := by
  have h1 := op.isLt; have h2 := lv.isLt; have h3 := bs.isLt
  have he : encodeCommand op lv bs = op ++ lv ++ bs := by
    unfold encodeCommand
    show (op.setWidth 48 <<< 40 ||| lv.setWidth 48 <<< 32 ||| bs.setWidth 48 <<< 0) = _
    apply BitVec.eq_of_getLsbD_eq
    intro i hi
    simp only [BitVec.getLsbD_or, BitVec.getLsbD_shiftLeft, BitVec.getLsbD_setWidth, BitVec.getLsbD_append]
    by_cases h32 : i < 32
    · simp [h32, show i < 40 by omega]; omega
    · by_cases h40 : i < 40
      · have : bs.getLsbD i = false := BitVec.getLsbD_of_ge _ _ (by omega)
        simp [h32, h40, this, show i - 32 < 8 by omega, show i - 32 < 48 by omega, hi]
      · have : bs.getLsbD i = false := BitVec.getLsbD_of_ge _ _ (by omega)
        have h2 : lv.getLsbD (i - 32) = false := BitVec.getLsbD_of_ge _ _ (by omega)
        simp [h32, h40, this, h2, show ¬ i - 32 < 8 by omega, Nat.sub_sub, show i - 40 < 48 by omega, hi]
  rw [he, BitVec.toNat_append, BitVec.toNat_append, ← Nat.shiftLeft_add_eq_or_of_lt h3, ← Nat.shiftLeft_add_eq_or_of_lt h2,
    Nat.shiftLeft_eq, Nat.shiftLeft_eq]
  omega

/-- The three fields of a word that spells an op code, a level and a block size. -/
theorem cmdFields_of_toNat {op lv : Byte} {bs : Word} {w : CmdWord}
    (h : w.toNat = op.toNat * 2 ^ 40 + lv.toNat * 2 ^ 32 + bs.toNat) :
    cmdOp w = op ∧ cmdLevel w = lv ∧ cmdBlockSize w = bs := by
  have h1 := op.isLt; have h2 := lv.isLt; have h3 := bs.isLt
  refine ⟨?_, ?_, ?_⟩ <;>
    (apply BitVec.eq_of_toNat_eq
     simp only [cmdOp, cmdLevel, cmdBlockSize, config, BitVec.extractLsb'_toNat, Nat.shiftRight_eq_div_pow]
     omega)

@[simp] theorem cmdOp_encodeCommand (op lv : Byte) (bs : Word) : cmdOp (encodeCommand op lv bs) = op :=
  (cmdFields_of_toNat (encodeCommand_toNat op lv bs)).1

@[simp] theorem cmdLevel_encodeCommand (op lv : Byte) (bs : Word) : cmdLevel (encodeCommand op lv bs) = lv :=
  (cmdFields_of_toNat (encodeCommand_toNat op lv bs)).2.1

@[simp] theorem cmdBlockSize_encodeCommand (op lv : Byte) (bs : Word) :
    cmdBlockSize (encodeCommand op lv bs) = bs :=
  (cmdFields_of_toNat (encodeCommand_toNat op lv bs)).2.2

/-- A command word is its three fields. -/
theorem encodeCommand_fields (w : CmdWord) : encodeCommand (cmdOp w) (cmdLevel w) (cmdBlockSize w) = w := by
  have h := w.isLt
  apply BitVec.eq_of_toNat_eq
  rw [encodeCommand_toNat]
  simp only [cmdOp, cmdLevel, cmdBlockSize, config, BitVec.extractLsb'_toNat, Nat.shiftRight_eq_div_pow]; omega

end Sys2Proof.Machine
end

