-- ==== Sys2Proof/Laws/Checksum.lean ====
section
/-! SUPPORT. The one-byte step of the checksum function as arithmetic on numbers. -/

namespace Sys2Proof.Machine

theorem extractLow_toNat (s : Word) : (s.extractLsb' 0 16).toNat = s.toNat % 65536 := by
  simp [BitVec.extractLsb'_toNat]

theorem extractHigh_toNat (s : Word) : (s.extractLsb' 16 16).toNat = s.toNat / 65536 := by
  have := s.isLt
  simp only [BitVec.extractLsb'_toNat, Nat.shiftRight_eq_div_pow]
  omega

/-- The value of `CkStep` (R156): the new sums, the high one above the low one. -/
theorem ckStep_toNat (s : Word) (x : Byte) :
    (ckStep s x).toNat =
      ((s.toNat / 65536 + (s.toNat % 65536 + x.toNat) % 65521) % 65521) * 65536 +
        (s.toNat % 65536 + x.toNat) % 65521 := by
  show (adlerStep s x).toNat = _
  unfold adlerStep
  simp only [extractLow_toNat, extractHigh_toNat, ckModulus]
  generalize hA : (s.toNat % 65536 + x.toNat) % 65521 = A
  generalize hB : (s.toNat / 65536 + A) % 65521 = B
  have ha : A < 65521 := by omega
  have hb : B < 65521 := by omega
  rw [BitVec.toNat_append, ← Nat.shiftLeft_add_eq_or_of_lt (BitVec.isLt _), Nat.shiftLeft_eq]
  simp only [BitVec.toNat_ofNat]
  rw [Nat.mod_eq_of_lt (by omega), Nat.mod_eq_of_lt (by omega)]

end Sys2Proof.Machine
end

