-- ==== Sys2Proof/Laws/Ports.lean ====
section
/-! SUPPORT. The ports: what InRead and OutWrite can do (R65, R68), said once. -/

namespace Sys2Proof.Machine

/-! `takeIn`. -/

@[simp] theorem takeIn_zero (evs : List InEvent) : takeIn evs 0 = ⟨[], .ok, evs⟩ := by
  cases evs <;> rfl

/-- `len(b) <= k`. -/
theorem takeIn_length_le (evs : List InEvent) (k : Nat) : (takeIn evs k).bytes.length ≤ k := by
  induction evs generalizing k with
  | nil => cases k <;> simp [takeIn]
  | cons e t ih =>
    cases k with
    | zero => simp
    | succ k => cases e <;> simp [takeIn, ih]

/-- `OK` means `len(b) = k` (R65). -/
theorem takeIn_length_of_ok {evs : List InEvent} {k : Nat} (h : (takeIn evs k).status = .ok) :
    (takeIn evs k).bytes.length = k := by
  induction evs generalizing k with
  | nil => cases k <;> simp_all [takeIn]
  | cons e t ih =>
    cases k with
    | zero => simp
    | succ k =>
      cases e
      · simp only [takeIn] at h ⊢
        simp [ih h]
      · simp [takeIn] at h
      · simp [takeIn] at h

/-- What the far end held is what was delivered and what is left (R65: in order, each byte once), but for a failure that
was met, which is used up. -/
theorem takeIn_split (evs : List InEvent) (k : Nat) :
    evs = (takeIn evs k).bytes.map .byte ++
      ((if (takeIn evs k).status = .fail then [.fail] else []) ++ (takeIn evs k).rest) := by
  induction evs generalizing k with
  | nil => cases k <;> simp [takeIn]
  | cons e t ih =>
    cases k with
    | zero => simp
    | succ k =>
      cases e
      · simp only [takeIn, List.map_cons, List.cons_append, List.cons.injEq, true_and]
        exact ih k
      · simp [takeIn]
      · simp [takeIn]

/-- Reading bytes that are there. -/
theorem takeIn_of_bytes (b : Bytes) (rest : List InEvent) :
    takeIn (b.map .byte ++ rest) b.length = ⟨b, .ok, rest⟩ := by
  induction b with
  | nil => simp
  | cons x t ih => simp [takeIn, ih]

/-- Reading past the end of the input. -/
theorem takeIn_of_short {b : Bytes} {k : Nat} (h : b.length < k) : takeIn (b.map .byte) k = ⟨b, .eoi, []⟩ := by
  induction b generalizing k with
  | nil =>
    cases k with
    | zero => simp at h
    | succ k => rfl
  | cons x t ih =>
    cases k with
    | zero => simp at h
    | succ k =>
      have := ih (k := k) (by simp at h; omega)
      simp [takeIn, this]

/-- Reading past a failure. -/
theorem takeIn_of_fail {b : Bytes} {rest : List InEvent} {k : Nat} (h : b.length < k) :
    takeIn (b.map .byte ++ .fail :: rest) k = ⟨b, .fail, rest⟩ := by
  induction b generalizing k with
  | nil =>
    cases k with
    | zero => simp at h
    | succ k => rfl
  | cons x t ih =>
    cases k with
    | zero => simp at h
    | succ k =>
      have := ih (k := k) (by simp at h; omega)
      simp [takeIn, this]

/-- Reading up to where the far end does not answer. -/
theorem takeIn_of_stall {b : Bytes} {rest : List InEvent} {k : Nat} (h : b.length < k) :
    takeIn (b.map .byte ++ .stall :: rest) k = ⟨b, .stalled, .stall :: rest⟩ := by
  induction b generalizing k with
  | nil =>
    cases k with
    | zero => simp at h
    | succ k => rfl
  | cons x t ih =>
    cases k with
    | zero => simp at h
    | succ k =>
      have := ih (k := k) (by simp at h; omega)
      simp [takeIn, this]

/-! `readThen`. -/

/-- Everything a step that needs `k` bytes can do. -/
theorem readThen_cases (k : Nat) (e : Cause) (s : State) (f : Bytes → State → Result) :
    (∃ b rest, b.length = k ∧ s.inp = b.map .byte ++ rest ∧ readThen k e s f = f b { s with inp := rest }) ∨
    (∃ rest, rest <:+ s.inp ∧ (readThen k e s f = .next (State.raise e { s with inp := rest }) ∨
      readThen k e s f = .next (State.raise .ioInFail { s with inp := rest }))) ∨
    readThen k e s f = .next s := by
  have hs := takeIn_split s.inp k
  unfold readThen
  cases h : (takeIn s.inp k).status <;> simp only [h] at hs ⊢
  · exact .inl ⟨_, _, takeIn_length_of_ok h, by simpa using hs, rfl⟩
  · exact .inr (.inl ⟨_, ⟨_, hs.symm.trans (by simp)⟩, .inl rfl⟩)
  · refine .inr (.inl ⟨_, ?_, .inr rfl⟩)
    exact ⟨(takeIn s.inp k).bytes.map .byte ++ [.fail], by simpa using hs.symm⟩
  · exact .inr (.inr trivial)

/-- With its bytes there, the step goes on. -/
theorem readThen_of_bytes {k : Nat} {e : Cause} {s : State} {f : Bytes → State → Result} {b : Bytes}
    {rest : List InEvent} (hk : b.length = k) (h : s.inp = b.map .byte ++ rest) :
    readThen k e s f = f b { s with inp := rest } := by
  subst hk
  simp [readThen, h, takeIn_of_bytes]

/-- With the input ending early, the step raises its error. -/
theorem readThen_of_short {k : Nat} {e : Cause} {s : State} {f : Bytes → State → Result} {b : Bytes}
    (hk : b.length < k) (h : s.inp = b.map .byte) :
    readThen k e s f = .next (State.raise e { s with inp := [] }) := by
  simp [readThen, h, takeIn_of_short hk]

/-- With a failure before its last byte, the step raises `IoError(IN_FAIL)`. -/
theorem readThen_of_fail {k : Nat} {e : Cause} {s : State} {f : Bytes → State → Result} {b : Bytes}
    {rest : List InEvent} (hk : b.length < k) (h : s.inp = b.map .byte ++ .fail :: rest) :
    readThen k e s f = .next (State.raise .ioInFail { s with inp := rest }) := by
  simp [readThen, h, takeIn_of_fail hk]

/-! `outWrite`. -/

/-- `OutWrite([])` touches nothing (R68). -/
@[simp] theorem outWrite_nil (s : State) : outWrite [] s = .ok s := rfl

/-- A ready far end takes the write whole. -/
theorem outWrite_of_ready {b : Bytes} {s : State} (hb : b ≠ []) (h : s.outReady = true) :
    outWrite b s = .ok (s.wrote b) := by
  unfold State.outReady at h
  unfold outWrite
  rw [if_neg hb]
  split at h <;> simp_all

/-- Everything a write can do. -/
theorem outWrite_cases (b : Bytes) (s : State) :
    (b = [] ∧ outWrite b s = .ok s) ∨ (b ≠ [] ∧ s.outReady = true ∧ outWrite b s = .ok (s.wrote b)) ∨
    (∃ n, outWrite b s = .fail (s.wrote (b.take n))) ∨ (s.outStalled = true ∧ outWrite b s = .stalled) := by
  by_cases hb : b = []
  · exact .inl ⟨hb, by simp [hb]⟩
  · unfold outWrite State.outReady State.outStalled
    rw [if_neg hb]
    cases h : s.outAns with
    | nil => simp [hb]
    | cons a t =>
      cases a with
      | ok => simp [hb]
      | fail n => exact .inr (.inr (.inl ⟨n, rfl⟩))
      | stall => simp [hb]

/-- Everything a step that writes can do. -/
theorem writeThen_cases (s0 : State) (b : Bytes) (s : State) (f : State → Result) :
    (b = [] ∧ writeThen s0 b s f = f s) ∨ (b ≠ [] ∧ s.outReady = true ∧ writeThen s0 b s f = f (s.wrote b)) ∨
    (∃ n, writeThen s0 b s f = .next ((s.wrote (b.take n)).raise .ioOutFail)) ∨
    (s.outStalled = true ∧ writeThen s0 b s f = .next s0) := by
  unfold writeThen
  rcases outWrite_cases b s with ⟨hb, h⟩ | ⟨hb, hr, h⟩ | ⟨n, h⟩ | ⟨hr, h⟩ <;> rw [h]
  · exact .inl ⟨hb, rfl⟩
  · exact .inr (.inl ⟨hb, hr, rfl⟩)
  · exact .inr (.inr (.inl ⟨n, rfl⟩))
  · exact .inr (.inr (.inr ⟨hr, rfl⟩))

/-- With a ready far end, the step goes on. -/
theorem writeThen_of_ready {s0 : State} {b : Bytes} {s : State} {f : State → Result} (hb : b ≠ [])
    (h : s.outReady = true) : writeThen s0 b s f = f (s.wrote b) := by
  simp [writeThen, outWrite_of_ready hb h]

/-- With a failing far end, the step raises its error. -/
theorem writeThen_of_fail {s0 : State} {b : Bytes} {s : State} {f : State → Result} {n : Nat} {t : List OutAnswer}
    (hb : b ≠ []) (h : s.outAns = .fail n :: t) :
    writeThen s0 b s f = .next ((s.wrote (b.take n)).raise .ioOutFail) := by
  simp [writeThen, outWrite, hb, h]

end Sys2Proof.Machine
end

