-- ==== Sys2Proof/Laws/Exec.lean ====
section
/-! SUPPORT. What a step, a phase and a record's operation are, one equation for each phase: the lemmas that proofs
about step and exec cite in place of unfolding them. -/

namespace Sys2Proof.Machine

/-! The step. -/

theorem step_of_cmd {s : State} {w : CmdWord} (h : s.cmd = some w) : step s = takeCommand w { s with cmd := none } := by
  unfold step; rw [h]

theorem step_of_quiet {s : State} (hc : s.cmd = none) (hh : s.host = []) : step s = phaseStep s := by
  unfold step; rw [hc, hh]

theorem step_of_move {s : State} {m : HostMove} {t : List HostMove} (hc : s.cmd = none) (hh : s.host = m :: t) :
    step s = hostMove m { s with host := t } := by
  unfold step; rw [hc, hh]

/-- Everything a step can be. -/
theorem step_cases (s : State) :
    (∃ w, s.cmd = some w ∧ step s = takeCommand w { s with cmd := none }) ∨
    (s.cmd = none ∧ s.host = [] ∧ step s = phaseStep s) ∨
    (∃ m t, s.cmd = none ∧ s.host = m :: t ∧ step s = hostMove m { s with host := t }) := by
  rcases hc : s.cmd with _ | w
  · rcases hh : s.host with _ | ⟨m, t⟩
    · exact .inr (.inl ⟨rfl, rfl, step_of_quiet hc hh⟩)
    · refine .inr (.inr ⟨m, t, rfl, rfl, ?_⟩)
      rw [step_of_move hc hh, hc]
  · exact .inl ⟨w, rfl, step_of_cmd hc⟩

/-! The phases. -/

section
variable {s : State}

theorem phaseStep_idle (h : s.phase = .idle) : phaseStep s = .next s := by
  unfold phaseStep; split <;> simp_all
theorem phaseStep_eHdr (h : s.phase = .eHdr) :
    phaseStep s = exec (.hdr encFlags methodLzo s.level s.blockSize) s := by
  unfold phaseStep State.emitted; split <;> simp_all [runOperation]
theorem phaseStep_eInit (h : s.phase = .eInit) : phaseStep s = phaseEInit s := by
  unfold phaseStep; split <;> simp_all
theorem phaseStep_eRead (h : s.phase = .eRead) : phaseStep s = phaseERead s := by
  unfold phaseStep; split <;> simp_all
theorem phaseStep_eBlock (h : s.phase = .eBlock) : phaseStep s = phaseEBlock s := by
  unfold phaseStep; split <;> simp_all
theorem phaseStep_eEos (h : s.phase = .eEos) : phaseStep s = exec (.eos 0) s := by
  unfold phaseStep State.emitted; split <;> simp_all [runOperation]
theorem phaseStep_eTrailer (h : s.phase = .eTrailer) : phaseStep s = exec (.cksum (ckFinal s.ckacc)) s := by
  unfold phaseStep State.emitted; split <;> simp_all [runOperation]
theorem phaseStep_dMagic (h : s.phase = .dMagic) : phaseStep s = phaseDMagic s := by
  unfold phaseStep; split <;> simp_all
theorem phaseStep_dHdr (h : s.phase = .dHdr) : phaseStep s = phaseDHdr s := by
  unfold phaseStep; split <;> simp_all
theorem phaseStep_dAlloc (h : s.phase = .dAlloc) : phaseStep s = .next (s.goto .dUlen) := by
  unfold phaseStep; split <;> simp_all [phaseDAlloc]
theorem phaseStep_dUlen (h : s.phase = .dUlen) : phaseStep s = phaseDUlen s := by
  unfold phaseStep; split <;> simp_all
theorem phaseStep_dSlen (h : s.phase = .dSlen) : phaseStep s = phaseDSlen s := by
  unfold phaseStep; split <;> simp_all
theorem phaseStep_dData (h : s.phase = .dData) : phaseStep s = phaseDData s := by
  unfold phaseStep; split <;> simp_all
theorem phaseStep_dBlock (h : s.phase = .dBlock) : phaseStep s = runOperation s.held s := by
  unfold phaseStep; split <;> simp_all
/-- `D_EOS` fetches what the marker has behind its first length: four bytes (R226). -/
theorem phaseDEos_eq (s : State) :
    phaseDEos s = readThen 4 .ioUnexpectedEoi s fun b s' => exec (.eos (unbe32 b)) s' := rfl
theorem phaseStep_dEos (h : s.phase = .dEos) : phaseStep s = phaseDEos s := by
  unfold phaseStep; split <;> simp_all
theorem phaseStep_dTrailer (h : s.phase = .dTrailer) : phaseStep s = phaseDTrailer s := by
  unfold phaseStep; split <;> simp_all
theorem phaseStep_done (h : s.phase = .done) : phaseStep s = .next s := by
  unfold phaseStep; split <;> simp_all
theorem phaseStep_failed (h : s.phase = .failed) : phaseStep s = .next s := by
  unfold phaseStep; split <;> simp_all

/-! The commands. -/

variable {lv : Byte} {bs : Word}

theorem exec_encode_busy (h : s.busy = true) : exec (.encode lv bs) s = .next s := by
  simp [exec, execEncode, h]
theorem exec_encode_refused {c : Cause} (h : s.busy = false) (hc : encodeRefusal lv bs = some c) :
    exec (.encode lv bs) s = .next (s.refuse c) := by
  simp [exec, execEncode, h, hc]
theorem exec_encode_accepted (h : s.busy = false) (hc : encodeRefusal lv bs = none) :
    exec (.encode lv bs) s = .next { s.accept .encode .eHdr with level := lv, blockSize := bs } := by
  simp [exec, execEncode, h, hc]
theorem exec_decode_busy (h : s.busy = true) : exec (.decode lv bs) s = .next s := by
  simp [exec, execDecode, h]
theorem exec_decode_accepted (h : s.busy = false) :
    exec (.decode lv bs) s = .next (s.accept .decode .dMagic).ckReset := by
  simp [exec, execDecode, h]

/-! The records. -/

variable {f : Word} {m : Byte} {u v : Word} {d : Bytes}

theorem exec_hdr_eHdr (h : s.phase = .eHdr) :
    exec (.hdr f m lv bs) s = emit s (.hdr f m lv bs) .eInit { s with flags := f, method := m } := by
  unfold exec execHdr; split <;> simp_all
theorem exec_hdr_dMagic (h : s.phase = .dMagic) : exec (.hdr f m lv bs) s = .next (s.goto .dHdr) := by
  unfold exec execHdr; split <;> simp_all
theorem exec_hdr_dHdr (h : s.phase = .dHdr) : exec (.hdr f m lv bs) s = latchHeader f m lv bs s := by
  unfold exec execHdr; split <;> simp_all
theorem exec_hdr_dAlloc (h : s.phase = .dAlloc) : exec (.hdr f m lv bs) s = .next (s.goto .dUlen) := by
  unfold exec execHdr; split <;> simp_all

theorem exec_blkS_eBlock (h : s.phase = .eBlock) :
    exec (.blkS d) s = emit s (.blkS d) .eRead { s with slen := BitVec.ofNat 32 d.length } := by
  unfold exec execBlkS; split <;> simp_all
theorem exec_blkS_dUlen (h : s.phase = .dUlen) : exec (.blkS d) s = latchUlen (BitVec.ofNat 32 d.length) s := by
  unfold exec execBlkS; split <;> simp_all
theorem exec_blkS_dSlen (h : s.phase = .dSlen) : exec (.blkS d) s = latchSlen (BitVec.ofNat 32 d.length) s := by
  unfold exec execBlkS; split <;> simp_all
theorem exec_blkS_dData (h : s.phase = .dData) : exec (.blkS d) s = storeStored d s := by
  unfold exec execBlkS; split <;> simp_all
theorem exec_blkS_dBlock (h : s.phase = .dBlock) : exec (.blkS d) s = deliver d s := by
  unfold exec execBlkS; split <;> simp_all

theorem exec_blkC_eBlock (h : s.phase = .eBlock) :
    exec (.blkC u d) s = emit s (.blkC u d) .eRead { s with slen := BitVec.ofNat 32 d.length } := by
  unfold exec execBlkC; split <;> simp_all
theorem exec_blkC_dUlen (h : s.phase = .dUlen) : exec (.blkC u d) s = latchUlen u s := by
  unfold exec execBlkC; split <;> simp_all
theorem exec_blkC_dSlen (h : s.phase = .dSlen) : exec (.blkC u d) s = latchSlen (BitVec.ofNat 32 d.length) s := by
  unfold exec execBlkC; split <;> simp_all
theorem exec_blkC_dData (h : s.phase = .dData) : exec (.blkC u d) s = storeStored d s := by
  unfold exec execBlkC; split <;> simp_all

theorem exec_blkC_dBlock_eq (h : s.phase = .dBlock) :
    exec (.blkC u d) s = match codecDecompress s.codec d u with
      | none => .next (s.raise .corruptCodecFail)
      | some x => if x.length ≠ u.toNat then .next (s.raise .corruptLengthMismatch) else deliver x s := by
  simp only [exec]
  unfold execBlkC
  split <;> simp_all <;> rfl

/-- Everything a compressed block can do at `D_BLOCK` (R220, R221). -/
theorem exec_blkC_dBlock (h : s.phase = .dBlock) :
    (codecDecompress s.codec d u = none ∧ exec (.blkC u d) s = .next (s.raise .corruptCodecFail)) ∨
    (∃ x, codecDecompress s.codec d u = some x ∧
      ((x.length ≠ u.toNat ∧ exec (.blkC u d) s = .next (s.raise .corruptLengthMismatch)) ∨
        (x.length = u.toNat ∧ exec (.blkC u d) s = deliver x s))) := by
  rw [exec_blkC_dBlock_eq h]
  cases codecDecompress s.codec d u with
  | none => exact .inl ⟨rfl, rfl⟩
  | some x =>
    refine .inr ⟨x, rfl, ?_⟩
    by_cases hl : x.length = u.toNat <;> simp [hl]

theorem exec_eos_eEos (h : s.phase = .eEos) :
    exec (.eos v) s = emit s (.eos v) .eTrailer { s with ulen := 0, slen := v } := by
  unfold exec execEos; split <;> simp_all
theorem exec_eos_dUlen (h : s.phase = .dUlen) : exec (.eos v) s = latchUlen 0 s := by
  unfold exec execEos; split <;> simp_all
theorem exec_eos_dEos (h : s.phase = .dEos) : exec (.eos v) s = .next { s with slen := v, phase := .dTrailer } := by
  unfold exec execEos; split <;> simp_all

theorem exec_cksum_eTrailer (h : s.phase = .eTrailer) : exec (.cksum v) s = emit s (.cksum v) .done s := by
  unfold exec execCksum; split <;> simp_all
theorem exec_cksum_dTrailer (h : s.phase = .dTrailer) :
    exec (.cksum v) s = if cksumFlag s.flags then checkTrailer v s else .next (s.goto .done) := by
  unfold exec execCksum; split <;> simp_all

end

/-- The store-versus-compress decision (R176). -/
theorem blockRecord_cases (c : Codec) (lv : Byte) (u : Word) (blk : Bytes) :
    (u.toNat < (codecCompress c lv blk).length ∧ blockRecord c lv u blk = .blkS blk) ∨
    ((codecCompress c lv blk).length ≤ u.toNat ∧ blockRecord c lv u blk = .blkC u (codecCompress c lv blk)) := by
  by_cases h : u.toNat < (codecCompress c lv blk).length
  · exact .inl ⟨h, by simp [blockRecord, h]⟩
  · exact .inr ⟨by omega, by simp [blockRecord, h]⟩

/-! The checks on operands. -/

theorem fitsPhysStage_iff (bs : Word) : fitsPhysStage bs = true ↔ bs.toNat ≤ physStage := by
  have : physStageMin ≤ physStage := Nat.le_add_right _ _
  simp only [fitsPhysStage, Bool.or_eq_true, decide_eq_true_eq]
  omega

theorem levelAllowed_iff (lv : Byte) : levelAllowed lv = true ↔ lv = levelFast ∨ lv = levelBest := by
  simp [levelAllowed]

/-- When a header is accepted (R204, R205, R206). -/
theorem headerRejection_none_iff (m : Byte) (bs : Word) :
    headerRejection m bs = none ↔ m = methodLzo ∧ bsMin ≤ bs.toNat ∧ bs.toNat ≤ bsMax := by
  unfold headerRejection
  split
  · simp_all
  · split
    · simp_all; omega
    · simp_all

theorem headerRejection_method {m : Byte} {bs : Word} (h : m ≠ methodLzo) :
    headerRejection m bs = some .formatBadMethod := by
  simp [headerRejection, h]

theorem headerRejection_blockSize {m : Byte} {bs : Word} (hm : m = methodLzo)
    (h : bs.toNat < bsMin ∨ bsMax < bs.toNat) : headerRejection m bs = some .formatBadBlockSize := by
  simp [headerRejection, hm, h]

theorem latchHeader_accepted {f : Word} {m lv : Byte} {bs : Word} {s : State} (h : headerRejection m bs = none) :
    latchHeader f m lv bs s =
      .next { s with flags := f, method := m, level := lv, blockSize := bs, phase := .dAlloc } := by
  simp only [latchHeader, h]; rfl

theorem latchHeader_rejected {f : Word} {m lv : Byte} {bs : Word} {s : State} {c : Cause}
    (h : headerRejection m bs = some c) :
    latchHeader f m lv bs s =
      .next { s with flags := f, method := m, level := lv, blockSize := bs, err := some c, phase := .failed } := by
  simp only [latchHeader, h]; rfl

/-! Every encoded record has bytes. -/

theorem encode_hdr_ne (f : Word) (m lv : Byte) (bs : Word) : encode (.hdr f m lv bs) ≠ [] := by simp [encode, magic]
theorem encode_blkS_ne (d : Bytes) : encode (.blkS d) ≠ [] := by simp [encode, blockBytes, be32]
theorem encode_blkC_ne (u : Word) (d : Bytes) : encode (.blkC u d) ≠ [] := by simp [encode, blockBytes, be32]
theorem encode_eos_ne (v : Word) : encode (.eos v) ≠ [] := by simp [encode, be32]
theorem encode_cksum_ne (v : Word) : encode (.cksum v) ≠ [] := by simp [encode, be32]

/-! The emission of a record. -/

/-- Everything the emission of a record can do. -/
theorem emit_cases {s s' : State} {i : Instr} {p : Phase} (hb : encode i ≠ []) :
    (s'.outReady = true ∧ emit s i p s' = .next ((s'.wrote (encode i)).goto p)) ∨
    (∃ n, emit s i p s' = .next ((s'.wrote ((encode i).take n)).raise .ioOutFail)) ∨
    (s'.outStalled = true ∧ emit s i p s' = .next s) := by
  unfold emit
  rcases writeThen_cases s (encode i) s' fun s'' => .next (s''.goto p) with ⟨h, _⟩ | ⟨_, hr, h⟩ | h | h
  · exact absurd h hb
  · exact .inl ⟨hr, h⟩
  · exact .inr (.inl h)
  · exact .inr (.inr h)

theorem emit_of_ready {s s' : State} {i : Instr} {p : Phase} (hb : encode i ≠ []) (h : s'.outReady = true) :
    emit s i p s' = .next ((s'.wrote (encode i)).goto p) := writeThen_of_ready hb h

theorem emit_of_fail {s s' : State} {i : Instr} {p : Phase} {n : Nat} {t : List OutAnswer} (hb : encode i ≠ [])
    (h : s'.outAns = .fail n :: t) :
    emit s i p s' = .next ((s'.wrote ((encode i).take n)).raise .ioOutFail) := writeThen_of_fail hb h

end Sys2Proof.Machine
end

