-- ==== Sys2Proof/Laws/HostMoves.lean ====
section
/-! SUPPORT. No operation and no step of the framer reads or writes the host's list of moves. -/

namespace Sys2Proof.Machine

/-- The state with another list of moves. -/
abbrev State.withHost (h : List HostMove) (s : State) : State := { s with host := h }

/-- The same outcome with another list of moves. -/
def sameWithHost (h : List HostMove) (r : Result) : Result := andThen r fun t => .next (t.withHost h)

variable {s : State} (h : List HostMove)

@[simp] theorem sameWithHost_next (t : State) : sameWithHost h (.next t) = .next (t.withHost h) := rfl
@[simp] theorem sameWithHost_fault (e : Fault) : sameWithHost h (.fault e) = .fault e := rfl
@[simp] theorem sameWithHost_refused (e : Refusal) : sameWithHost h (.refused e) = .refused e := rfl

theorem andThen_withHost {r : Result} {f : State → Result}
    (hf : ∀ s, f (s.withHost h) = sameWithHost h (f s)) :
    andThen (sameWithHost h r) f = sameWithHost h (andThen r f) := by
  cases r with
  | next t => exact hf t
  | fault e => rfl
  | refused e => rfl

theorem readThen_withHost {k : Nat} {c : Cause} {f : Bytes → State → Result}
    (hf : ∀ b s, f b (s.withHost h) = sameWithHost h (f b s)) :
    readThen k c (s.withHost h) f = sameWithHost h (readThen k c s f) := by
  unfold readThen
  cases hr : (takeIn s.inp k).status <;> simp only [hr]
  · exact hf _ { s with inp := (takeIn s.inp k).rest }
  all_goals rfl

theorem writeThen_withHost {s0 : State} {b : Bytes} {f : State → Result}
    (hf : ∀ s, f (s.withHost h) = sameWithHost h (f s)) :
    writeThen (s0.withHost h) b (s.withHost h) f = sameWithHost h (writeThen s0 b s f) := by
  unfold writeThen outWrite
  by_cases hb : b = []
  · simp only [if_pos hb]; exact hf s
  · simp only [if_neg hb]
    rcases hs : s.outAns with _ | ⟨_ | n | _, t⟩ <;> simp only
    · exact hf (s.wrote b)
    · exact hf (s.wrote b)
    all_goals rfl

theorem deliver_withHost (d : Bytes) : deliver d (s.withHost h) = sameWithHost h (deliver d s) :=
  writeThen_withHost h fun _ => rfl

theorem emit_withHost (i : Instr) (p : Phase) (s' : State) :
    emit (s.withHost h) i p (s'.withHost h) = sameWithHost h (emit s i p s') :=
  writeThen_withHost h fun _ => rfl

theorem latchSlen_withHost (v : Word) : latchSlen v (s.withHost h) = sameWithHost h (latchSlen v s) := by
  unfold latchSlen
  show (match s.stageCap with | none => _ | some cap => _) = _
  cases s.stageCap with
  | none => rfl
  | some cap => dsimp only; split <;> rfl

theorem memWrite_withHost (a : Nat) (b : Bytes) :
    (s.withHost h).memWrite a b = (s.memWrite a b).map (State.withHost h) := by
  unfold State.memWrite
  have hi : (s.withHost h).inStage a b.length = s.inStage a b.length := rfl
  rw [hi]
  cases s.inStage a b.length <;> rfl

theorem storeStored_withHost (b : Bytes) : storeStored b (s.withHost h) = sameWithHost h (storeStored b s) := by
  unfold storeStored
  rw [memWrite_withHost]
  cases s.memWrite 0 b <;> rfl

theorem latchHeader_withHost (f : Word) (m lv : Byte) (bs : Word) :
    latchHeader f m lv bs (s.withHost h) = sameWithHost h (latchHeader f m lv bs s) := by
  unfold latchHeader
  cases headerRejection m bs <;> rfl

theorem checkTrailer_withHost (v : Word) : checkTrailer v (s.withHost h) = sameWithHost h (checkTrailer v s) := by
  unfold checkTrailer
  dsimp only
  split <;> rfl

/-- An operation run with another list of moves. -/
theorem exec_withHost (i : Instr) : exec i (s.withHost h) = sameWithHost h (exec i s) := by
  cases i with
  | encode lv bs =>
    show (if s.busy then _ else _ : Result) = sameWithHost h (if s.busy then _ else _)
    split
    · rfl
    · cases encodeRefusal lv bs <;> rfl
  | decode lv bs =>
    show (if s.busy then _ else _ : Result) = sameWithHost h (if s.busy then _ else _)
    split <;> rfl
  | hdr f m lv bs =>
    cases hp : s.phase
    case eHdr =>
      rw [exec_hdr_eHdr hp, exec_hdr_eHdr (s := s.withHost h) hp]
      exact emit_withHost h _ _ { s with flags := f, method := m }
    case dHdr =>
      rw [exec_hdr_dHdr hp, exec_hdr_dHdr (s := s.withHost h) hp]
      exact latchHeader_withHost h f m lv bs
    all_goals simp only [exec, execHdr, hp]; rfl
  | blkS d =>
    cases hp : s.phase
    case eBlock =>
      rw [exec_blkS_eBlock hp, exec_blkS_eBlock (s := s.withHost h) hp]
      exact emit_withHost h _ _ { s with slen := BitVec.ofNat 32 d.length }
    case dSlen =>
      rw [exec_blkS_dSlen hp, exec_blkS_dSlen (s := s.withHost h) hp]
      exact latchSlen_withHost h _
    case dData =>
      rw [exec_blkS_dData hp, exec_blkS_dData (s := s.withHost h) hp]
      exact storeStored_withHost h d
    case dBlock =>
      rw [exec_blkS_dBlock hp, exec_blkS_dBlock (s := s.withHost h) hp]
      exact deliver_withHost h d
    all_goals simp only [exec, execBlkS, hp]; rfl
  | blkC u d =>
    cases hp : s.phase
    case eBlock =>
      rw [exec_blkC_eBlock hp, exec_blkC_eBlock (s := s.withHost h) hp]
      exact emit_withHost h _ _ { s with slen := BitVec.ofNat 32 d.length }
    case dSlen =>
      rw [exec_blkC_dSlen hp, exec_blkC_dSlen (s := s.withHost h) hp]
      exact latchSlen_withHost h _
    case dData =>
      rw [exec_blkC_dData hp, exec_blkC_dData (s := s.withHost h) hp]
      exact storeStored_withHost h d
    case dBlock =>
      rw [exec_blkC_dBlock_eq hp, exec_blkC_dBlock_eq (s := s.withHost h) hp]
      cases codecDecompress s.codec d u with
      | none => rfl
      | some x =>
        dsimp only
        split
        · rfl
        · exact deliver_withHost h x
    all_goals simp only [exec, execBlkC, hp] <;> rfl
  | eos v =>
    cases hp : s.phase
    case eEos =>
      rw [exec_eos_eEos hp, exec_eos_eEos (s := s.withHost h) hp]
      exact emit_withHost h _ _ { s with ulen := 0, slen := v }
    all_goals simp only [exec, execEos, hp]; rfl
  | cksum v =>
    cases hp : s.phase
    case eTrailer =>
      rw [exec_cksum_eTrailer hp, exec_cksum_eTrailer (s := s.withHost h) hp]
      exact emit_withHost h _ _ s
    case dTrailer =>
      rw [exec_cksum_dTrailer hp, exec_cksum_dTrailer (s := s.withHost h) hp]
      show (if cksumFlag s.flags = true then _ else _ : Result) = sameWithHost h (if cksumFlag s.flags = true then _ else _)
      split
      · exact checkTrailer_withHost h v
      · rfl
    all_goals simp only [exec, execCksum, hp] <;> rfl
  | ckInit => rfl
  | ckUpdate b => rfl
  | ckFinal => rfl
  | ckCmp v => rfl
  | codecCompress lv b => rfl
  | codecDecompress p n =>
    simp only [exec, execCodecDecompress]
    cases codecDecompress s.codec p n <;> rfl

theorem runOperation_withHost (i : Option Instr) : runOperation i (s.withHost h) = sameWithHost h (runOperation i s) := by
  cases i with
  | none => rfl
  | some i => exact exec_withHost h i

/-- The framer's step with another list of moves. -/
theorem phaseStep_withHost : phaseStep (s.withHost h) = sameWithHost h (phaseStep s) := by
  have hw (i : Instr) (s : State) := exec_withHost (s := s) h i
  cases hp : s.phase with
  | idle => rw [phaseStep_idle hp, phaseStep_idle (s := s.withHost h) hp]; rfl
  | done => rw [phaseStep_done hp, phaseStep_done (s := s.withHost h) hp]; rfl
  | failed => rw [phaseStep_failed hp, phaseStep_failed (s := s.withHost h) hp]; rfl
  | eHdr => rw [phaseStep_eHdr hp, phaseStep_eHdr (s := s.withHost h) hp]; exact hw _ s
  | eEos => rw [phaseStep_eEos hp, phaseStep_eEos (s := s.withHost h) hp]; exact hw _ s
  | eTrailer => rw [phaseStep_eTrailer hp, phaseStep_eTrailer (s := s.withHost h) hp]; exact hw _ s
  | eInit => rw [phaseStep_eInit hp, phaseStep_eInit (s := s.withHost h) hp]; rfl
  | eRead =>
    rw [phaseStep_eRead hp, phaseStep_eRead (s := s.withHost h) hp]
    unfold phaseERead
    cases hr : (takeIn s.inp s.blockSize.toNat).status <;> simp only [hr]
    case fail => rfl
    case stalled => rfl
    all_goals
      by_cases hb : (takeIn s.inp s.blockSize.toNat).bytes = []
      · simp only [if_pos hb]; rfl
      · have hm := memWrite_withHost (s := { s with inp := (takeIn s.inp s.blockSize.toNat).rest }) h 0
          (takeIn s.inp s.blockSize.toNat).bytes
        simp only [State.withHost] at hm
        simp only [if_neg hb, hm]
        cases State.memWrite 0 (takeIn s.inp s.blockSize.toNat).bytes
          { s with inp := (takeIn s.inp s.blockSize.toNat).rest } <;> rfl
  | eBlock =>
    rw [phaseStep_eBlock hp, phaseStep_eBlock (s := s.withHost h) hp]
    unfold phaseEBlock
    show (match s.memRead 0 s.ulen.toNat with | none => _ | some blk => _) = _
    cases s.memRead 0 s.ulen.toNat with
    | none => rfl
    | some blk =>
      show (if s.outStalled then _ else _ : Result) = sameWithHost h (if s.outStalled then _ else _)
      split
      · rfl
      · rw [hw]; exact andThen_withHost h fun s => hw _ s
  | dMagic =>
    rw [phaseStep_dMagic hp, phaseStep_dMagic (s := s.withHost h) hp]
    refine readThen_withHost h fun b s => ?_
    split <;> rfl
  | dHdr =>
    rw [phaseStep_dHdr hp, phaseStep_dHdr (s := s.withHost h) hp]
    exact readThen_withHost h fun b s => hw _ s
  | dAlloc => rw [phaseStep_dAlloc hp, phaseStep_dAlloc (s := s.withHost h) hp]; rfl
  | dUlen =>
    rw [phaseStep_dUlen hp, phaseStep_dUlen (s := s.withHost h) hp]
    exact readThen_withHost h fun b s => rfl
  | dSlen =>
    rw [phaseStep_dSlen hp, phaseStep_dSlen (s := s.withHost h) hp]
    exact readThen_withHost h fun b s => latchSlen_withHost h _
  | dData =>
    rw [phaseStep_dData hp, phaseStep_dData (s := s.withHost h) hp]
    exact readThen_withHost h fun b s => storeStored_withHost h b
  | dBlock =>
    rw [phaseStep_dBlock hp, phaseStep_dBlock (s := s.withHost h) hp]
    exact runOperation_withHost h _
  | dEos =>
    rw [phaseStep_dEos hp, phaseStep_dEos (s := s.withHost h) hp]
    exact readThen_withHost h fun b s => hw _ s
  | dTrailer =>
    rw [phaseStep_dTrailer hp, phaseStep_dTrailer (s := s.withHost h) hp]
    unfold phaseDTrailer
    show (if cksumFlag s.flags then _ else _ : Result) = sameWithHost h (if cksumFlag s.flags then _ else _)
    split
    · exact readThen_withHost h fun b s => hw _ s
    · rfl

end Sys2Proof.Machine
end

