-- ==== Sys2Proof/Laws/Memory.lean ====
section
/-! SUPPORT. The staging memory: a write keeps the canonical form, a read after a write, and what a write leaves alone. -/

namespace Sys2Proof.Machine

theorem Memory.wf_nil : Memory.wf [] := ⟨.nil, by simp⟩

/-- The cells of a byte sequence lie in its index range and hold its bytes. -/
theorem Memory.cells_mem {a : Nat} {v : Bytes} {c : Host.Cell} (h : c ∈ Memory.cells a v) :
    a ≤ c.1 ∧ c.1 < a + v.length ∧ c.2 ≠ 0 := by
  induction v generalizing a with
  | nil => simp [Memory.cells] at h
  | cons x t ih =>
    unfold Memory.cells at h
    split at h
    · have h' := ih h
      simp only [List.length_cons]
      exact ⟨by omega, by omega, h'.2.2⟩
    · rcases List.mem_cons.mp h with rfl | h
      · simp_all
      · have h' := ih h
        simp only [List.length_cons]
        exact ⟨by omega, by omega, h'.2.2⟩

theorem Memory.cells_wf (a : Nat) (v : Bytes) : (Memory.cells a v).wf := by
  induction v generalizing a with
  | nil => exact Memory.wf_nil
  | cons x t ih =>
    unfold Memory.cells
    split
    · exact ih _
    · rename_i hx
      refine ⟨List.pairwise_cons.mpr ⟨fun c hc => ?_, (ih _).1⟩, ?_⟩
      · have := Memory.cells_mem hc; show a < c.1; omega
      · intro c hc
        rcases List.mem_cons.mp hc with rfl | hc
        · exact hx
        · exact (ih _).2 c hc

/-- Every write keeps the canonical form. -/
theorem Memory.write_wf {m : Memory} (h : m.wf) (a : Nat) (v : Bytes) : (m.write a v).wf := by
  refine ⟨?_, ?_⟩
  · unfold Memory.write
    rw [List.append_assoc, List.pairwise_append, List.pairwise_append]
    refine ⟨h.1.filter _, ⟨(Memory.cells_wf a v).1, h.1.filter _, ?_⟩, ?_⟩
    · intro x hx y hy
      have := Memory.cells_mem hx; simp at hy; omega
    · intro x hx y hy
      simp at hx
      rcases List.mem_append.mp hy with hy | hy
      · have := Memory.cells_mem hy; omega
      · simp at hy; omega
  · intro c hc
    simp only [Memory.write, List.append_assoc, List.mem_append, List.mem_filter] at hc
    rcases hc with hc | hc | hc
    · exact h.2 c hc.1
    · exact (Memory.cells_mem hc).2.2
    · exact h.2 c hc.1

/-- Where the cells of a written memory lie. -/
theorem Memory.write_addr {m : Memory} {a : Nat} {v : Bytes} {c : Host.Cell} (h : c ∈ m.write a v) :
    c ∈ m ∨ c.1 < a + v.length := by
  simp only [Memory.write, List.append_assoc, List.mem_append, List.mem_filter] at h
  rcases h with h | h | h
  · exact .inl h.1
  · exact .inr (Memory.cells_mem h).2.1
  · exact .inl h.1

theorem Memory.lookup_filter {m : Memory} {p : Nat → Bool} {a : Nat} :
    (m.filter (fun c => p c.1)).lookup a = if p a then m.lookup a else none := by
  induction m with
  | nil => simp
  | cons c t ih =>
    obtain ⟨k, x⟩ := c
    by_cases hk : p k <;> by_cases ha : a = k
    · subst ha; simp [hk]
    · have : (a == k) = false := by simpa using ha
      simp [hk, List.lookup_cons, this, ih]
    · subst ha
      simp only [List.filter_cons, hk, if_false, ih, Bool.false_eq_true]
    · have : (a == k) = false := by simpa using ha
      simp [hk, List.lookup_cons, this, ih]

theorem Memory.cells_lookup {a k : Nat} {v : Bytes} :
    ((Memory.cells a v).lookup k).getD 0 = if a ≤ k ∧ k < a + v.length then v.getD (k - a) 0 else 0 := by
  induction v generalizing a with
  | nil => simp [Memory.cells]
  | cons x t ih =>
    have tail : k ≠ a → (if a + 1 ≤ k ∧ k < a + 1 + t.length then t.getD (k - (a + 1)) 0 else 0) =
        if a ≤ k ∧ k < a + (x :: t).length then (x :: t).getD (k - a) 0 else 0 := by
      intro hk
      by_cases h : a + 1 ≤ k ∧ k < a + 1 + t.length
      · have h' : a ≤ k ∧ k < a + (x :: t).length := by simp only [List.length_cons]; omega
        obtain ⟨d, hd⟩ : ∃ d, k - a = d + 1 := ⟨k - a - 1, by omega⟩
        have hd' : k - (a + 1) = d := by omega
        rw [if_pos h, if_pos h', hd, hd', List.getD_cons_succ]
      · have h' : ¬(a ≤ k ∧ k < a + (x :: t).length) := by simp only [List.length_cons]; omega
        rw [if_neg h, if_neg h']
    have head : k = a → (if a ≤ k ∧ k < a + (x :: t).length then (x :: t).getD (k - a) 0 else 0) = x := by
      rintro rfl
      simp
    unfold Memory.cells
    split
    · rename_i hx
      by_cases hk : k = a
      · rw [ih, head hk, hx, if_neg (by omega)]
      · rw [ih, tail hk]
    · by_cases hk : k = a
      · rw [head hk, hk]; simp
      · have hb : (k == a) = false := by simpa using hk
        rw [List.lookup_cons, hb, ← tail hk, ← ih]

/-- A byte read after a write (R62): the written byte inside its range, the byte of before outside. -/
theorem Memory.byteAt_write (m : Memory) (a : Nat) (v : Bytes) (k : Nat) :
    (m.write a v).byteAt k = if a ≤ k ∧ k < a + v.length then v.getD (k - a) 0 else m.byteAt k := by
  have low := Memory.lookup_filter (m := m) (p := fun x => decide (x < a)) (a := k)
  have high := Memory.lookup_filter (m := m) (p := fun x => decide (a + v.length ≤ x)) (a := k)
  have mid := Memory.cells_lookup (a := a) (k := k) (v := v)
  have out : ¬(a ≤ k ∧ k < a + v.length) → (Memory.cells a v).lookup k = none := by
    intro h
    rw [List.lookup_eq_none_iff]
    intro c hc
    have := Memory.cells_mem hc
    simp only [bne_iff_ne]
    omega
  simp only [decide_eq_true_eq] at low high
  unfold Memory.byteAt Memory.write
  rw [List.append_assoc, List.lookup_append, List.lookup_append, low, high]
  by_cases h : a ≤ k ∧ k < a + v.length
  · rw [if_pos h] at mid ⊢
    have h1 : ¬k < a := by omega
    have h2 : ¬a + v.length ≤ k := by omega
    simp only [h1, h2, if_false, Option.none_or, Option.or_none, mid]
  · rw [if_neg h, out h]
    by_cases h1 : k < a
    · have h2 : ¬a + v.length ≤ k := by omega
      simp [h1, h2]
    · have h2 : a + v.length ≤ k := by omega
      simp [h1, h2]

@[simp] theorem Memory.bytesAt_length (m : Memory) (a n : Nat) : (m.bytesAt a n).length = n := by
  simp [Memory.bytesAt]

/-- The bytes just written are read back (R62). -/
theorem Memory.bytesAt_write (m : Memory) (v : Bytes) : (m.write 0 v).bytesAt 0 v.length = v := by
  apply List.ext_getElem (by simp)
  intro i h1 h2
  simp [Memory.bytesAt, Memory.byteAt_write, h2]

end Sys2Proof.Machine
end

