-- ==== Sys2Proof/Laws/PerInstr.lean ====
section
/-! SUPPORT. Families of statements made per operation: one lemma for each constructor of Instr. -/

namespace Sys2Proof.Laws

namespace EncodedLength

/-- How many bytes an operation's encoding has (R90, R100, R102): a command 6, HDR 17, EOS 8, CKSUM 4, a block record 8
and its stored bytes, an operation that is not on any wire none. -/
def bytes : Instr → Nat
  | .encode _ _ => 6
  | .decode _ _ => 6
  | .hdr _ _ _ _ => 17
  | .blkS d => 8 + d.length
  | .blkC _ p => 8 + p.length
  | .eos _ => 8
  | .cksum _ => 4
  | .ckInit => 0
  | .ckUpdate _ => 0
  | .ckFinal => 0
  | .ckCmp _ => 0
  | .codecCompress _ _ => 0
  | .codecDecompress _ _ => 0

/-- The encoding has that length, and an operation has an encoding exactly when it stands at a position. -/
def Statement (i : Instr) : Prop :=
  (Sys2Proof.encode i).length = bytes i ∧ (i.position = none ↔ Sys2Proof.encode i = [])

theorem encode (lv : Byte) (bs : Word) : Statement (.encode lv bs) := by
  simp [Statement, Sys2Proof.encode, bytes, Machine.be48, Instr.position]
theorem decode (lv : Byte) (bs : Word) : Statement (.decode lv bs) := by
  simp [Statement, Sys2Proof.encode, bytes, Machine.be48, Instr.position]
theorem hdr (f : Word) (m lv : Byte) (bs : Word) : Statement (.hdr f m lv bs) := by
  simp [Statement, Sys2Proof.encode, bytes, Machine.magic, Machine.be32, Instr.position]
theorem blkS (d : Bytes) : Statement (.blkS d) := by
  simp [Statement, Sys2Proof.encode, bytes, blockBytes, Machine.be32, Instr.position]; omega
theorem blkC (u : Word) (p : Bytes) : Statement (.blkC u p) := by
  simp [Statement, Sys2Proof.encode, bytes, blockBytes, Machine.be32, Instr.position]; omega
theorem eos (v : Word) : Statement (.eos v) := by
  simp [Statement, Sys2Proof.encode, bytes, Machine.be32, Machine.eosRest_eq, Instr.position]
theorem cksum (v : Word) : Statement (.cksum v) := by
  simp [Statement, Sys2Proof.encode, bytes, Machine.be32, Instr.position]
theorem ckInit : Statement .ckInit := by simp [Statement, Sys2Proof.encode, bytes, Instr.position]
theorem ckUpdate (b : Bytes) : Statement (.ckUpdate b) := by
  simp [Statement, Sys2Proof.encode, bytes, Instr.position]
theorem ckFinal : Statement .ckFinal := by simp [Statement, Sys2Proof.encode, bytes, Instr.position]
theorem ckCmp (v : Word) : Statement (.ckCmp v) := by simp [Statement, Sys2Proof.encode, bytes, Instr.position]
theorem codecCompress (lv : Byte) (b : Bytes) : Statement (.codecCompress lv b) := by
  simp [Statement, Sys2Proof.encode, bytes, Instr.position]
theorem codecDecompress (p : Bytes) (n : Word) : Statement (.codecDecompress p n) := by
  simp [Statement, Sys2Proof.encode, bytes, Instr.position]

end EncodedLength

end Sys2Proof.Laws
end

