-- ==== Sys2Proof/Laws/Pieces.lean ====
section
/-! SUPPORT. The split of the input into blocks (R183), and the premise CodecRoundTrip on it (R235, R245). -/

namespace Sys2Proof.Machine

/-- More passes than the input has bytes change nothing. -/
theorem piecesUpTo_eq {B : Nat} (hB : 1 ≤ B) :
    ∀ (n m : Nat) (X : Bytes), X.length ≤ n → X.length ≤ m → piecesUpTo B n X = piecesUpTo B m X
  | 0, m, X, hn, _ => by
    obtain rfl := List.length_eq_zero_iff.mp (Nat.le_zero.mp hn)
    cases m <;> rfl
  | n + 1, m, [], _, _ => by cases m <;> rfl
  | n + 1, 0, x :: t, _, hm => by simp at hm
  | n + 1, m + 1, x :: t, hn, hm => by
    have hd : ((x :: t).drop B).length ≤ t.length := by simp; omega
    simp only [List.length_cons] at hn hm
    simp only [piecesUpTo]
    rw [piecesUpTo_eq hB n m _ (by omega) (by omega)]

theorem pieces_nil (B : Nat) : pieces B [] = [] := rfl

/-- A block, and the split of what follows it. -/
theorem pieces_cons {B : Nat} (hB : 1 ≤ B) {X : Bytes} (h : X ≠ []) :
    pieces B X = X.take B :: pieces B (X.drop B) := by
  cases X with
  | nil => exact absurd rfl h
  | cons x t =>
    unfold pieces
    simp only [List.length_cons, piecesUpTo]
    rw [piecesUpTo_eq hB t.length _ _ (by simp; omega) (Nat.le_refl _)]

/-- A block has between one byte and `B` (R13). -/
theorem pieces_length {B : Nat} (hB : 1 ≤ B) :
    ∀ (n : Nat) (X : Bytes), X.length ≤ n → ∀ Y ∈ pieces B X, 1 ≤ Y.length ∧ Y.length ≤ B
  | 0, X, h, Y, hY => by
    obtain rfl := List.length_eq_zero_iff.mp (Nat.le_zero.mp h)
    cases hY
  | n + 1, X, h, Y, hY => by
    by_cases hX : X = []
    · subst hX; cases hY
    · have := List.length_pos_iff.mpr hX
      rw [pieces_cons hB hX] at hY
      rcases List.mem_cons.mp hY with rfl | hY
      · rw [List.length_take]; omega
      · exact pieces_length hB n _ (by rw [List.length_drop]; omega) Y hY

/-- Under CodecRoundTrip every block of an input is given back. -/
theorem Codec.RoundTrip.givesBack_pieces {c : Codec} (hc : c.RoundTrip) {lv : Byte} (hl : levelAllowed lv = true)
    {B : Word} (hB : 1 ≤ B.toNat) (X : Bytes) : ∀ Y ∈ pieces B.toNat X, c.givesBack lv Y := fun Y hY =>
  have h := pieces_length hB X.length X (Nat.le_refl _) Y hY
  hc lv Y hl h.1 (Nat.lt_of_le_of_lt h.2 B.isLt)

end Sys2Proof.Machine
end

