-- ==== Sys2Proof/Laws/State.lean ====
section
/-! SUPPORT. The named updates of State, field by field (all true by rfl). -/

namespace Sys2Proof.Machine

/-! `State.goto`. -/

@[simp] theorem State.goto_ckchk (p : Phase) (s : State) : (State.goto p s).ckchk = s.ckchk := rfl
@[simp] theorem State.goto_err (p : Phase) (s : State) : (State.goto p s).err = s.err := rfl
@[simp] theorem State.goto_mode (p : Phase) (s : State) : (State.goto p s).mode = s.mode := rfl
@[simp] theorem State.goto_phase (p : Phase) (s : State) : (State.goto p s).phase = p := rfl
@[simp] theorem State.goto_flags (p : Phase) (s : State) : (State.goto p s).flags = s.flags := rfl
@[simp] theorem State.goto_method (p : Phase) (s : State) : (State.goto p s).method = s.method := rfl
@[simp] theorem State.goto_level (p : Phase) (s : State) : (State.goto p s).level = s.level := rfl
@[simp] theorem State.goto_blockSize (p : Phase) (s : State) : (State.goto p s).blockSize = s.blockSize := rfl
@[simp] theorem State.goto_ulen (p : Phase) (s : State) : (State.goto p s).ulen = s.ulen := rfl
@[simp] theorem State.goto_slen (p : Phase) (s : State) : (State.goto p s).slen = s.slen := rfl
@[simp] theorem State.goto_ckacc (p : Phase) (s : State) : (State.goto p s).ckacc = s.ckacc := rfl
@[simp] theorem State.goto_ckrx (p : Phase) (s : State) : (State.goto p s).ckrx = s.ckrx := rfl
@[simp] theorem State.goto_cmd (p : Phase) (s : State) : (State.goto p s).cmd = s.cmd := rfl
@[simp] theorem State.goto_stage (p : Phase) (s : State) : (State.goto p s).stage = s.stage := rfl
@[simp] theorem State.goto_inp (p : Phase) (s : State) : (State.goto p s).inp = s.inp := rfl
@[simp] theorem State.goto_out (p : Phase) (s : State) : (State.goto p s).out = s.out := rfl
@[simp] theorem State.goto_outAns (p : Phase) (s : State) : (State.goto p s).outAns = s.outAns := rfl
@[simp] theorem State.goto_codec (p : Phase) (s : State) : (State.goto p s).codec = s.codec := rfl
@[simp] theorem State.goto_host (p : Phase) (s : State) : (State.goto p s).host = s.host := rfl
@[simp] theorem State.goto_hostData (p : Phase) (s : State) : (State.goto p s).hostData = s.hostData := rfl
@[simp] theorem State.goto_ret (p : Phase) (s : State) : (State.goto p s).ret = s.ret := rfl
@[simp] theorem State.goto_draws (p : Phase) (s : State) : (State.goto p s).draws = s.draws := rfl

/-! `State.raise`. -/

@[simp] theorem State.raise_ckchk (c : Cause) (s : State) : (State.raise c s).ckchk = s.ckchk := rfl
@[simp] theorem State.raise_err (c : Cause) (s : State) : (State.raise c s).err = some c := rfl
@[simp] theorem State.raise_mode (c : Cause) (s : State) : (State.raise c s).mode = s.mode := rfl
@[simp] theorem State.raise_phase (c : Cause) (s : State) : (State.raise c s).phase = .failed := rfl
@[simp] theorem State.raise_flags (c : Cause) (s : State) : (State.raise c s).flags = s.flags := rfl
@[simp] theorem State.raise_method (c : Cause) (s : State) : (State.raise c s).method = s.method := rfl
@[simp] theorem State.raise_level (c : Cause) (s : State) : (State.raise c s).level = s.level := rfl
@[simp] theorem State.raise_blockSize (c : Cause) (s : State) : (State.raise c s).blockSize = s.blockSize := rfl
@[simp] theorem State.raise_ulen (c : Cause) (s : State) : (State.raise c s).ulen = s.ulen := rfl
@[simp] theorem State.raise_slen (c : Cause) (s : State) : (State.raise c s).slen = s.slen := rfl
@[simp] theorem State.raise_ckacc (c : Cause) (s : State) : (State.raise c s).ckacc = s.ckacc := rfl
@[simp] theorem State.raise_ckrx (c : Cause) (s : State) : (State.raise c s).ckrx = s.ckrx := rfl
@[simp] theorem State.raise_cmd (c : Cause) (s : State) : (State.raise c s).cmd = s.cmd := rfl
@[simp] theorem State.raise_stage (c : Cause) (s : State) : (State.raise c s).stage = s.stage := rfl
@[simp] theorem State.raise_inp (c : Cause) (s : State) : (State.raise c s).inp = s.inp := rfl
@[simp] theorem State.raise_out (c : Cause) (s : State) : (State.raise c s).out = s.out := rfl
@[simp] theorem State.raise_outAns (c : Cause) (s : State) : (State.raise c s).outAns = s.outAns := rfl
@[simp] theorem State.raise_codec (c : Cause) (s : State) : (State.raise c s).codec = s.codec := rfl
@[simp] theorem State.raise_host (c : Cause) (s : State) : (State.raise c s).host = s.host := rfl
@[simp] theorem State.raise_hostData (c : Cause) (s : State) : (State.raise c s).hostData = s.hostData := rfl
@[simp] theorem State.raise_ret (c : Cause) (s : State) : (State.raise c s).ret = s.ret := rfl
@[simp] theorem State.raise_draws (c : Cause) (s : State) : (State.raise c s).draws = s.draws := rfl

/-! `State.accept`. -/

@[simp] theorem State.accept_ckchk (m : Mode) (p : Phase) (s : State) : (State.accept m p s).ckchk = false := rfl
@[simp] theorem State.accept_err (m : Mode) (p : Phase) (s : State) : (State.accept m p s).err = none := rfl
@[simp] theorem State.accept_mode (m : Mode) (p : Phase) (s : State) : (State.accept m p s).mode = m := rfl
@[simp] theorem State.accept_phase (m : Mode) (p : Phase) (s : State) : (State.accept m p s).phase = p := rfl
@[simp] theorem State.accept_flags (m : Mode) (p : Phase) (s : State) : (State.accept m p s).flags = s.flags := rfl
@[simp] theorem State.accept_method (m : Mode) (p : Phase) (s : State) : (State.accept m p s).method = s.method := rfl
@[simp] theorem State.accept_level (m : Mode) (p : Phase) (s : State) : (State.accept m p s).level = s.level := rfl
@[simp] theorem State.accept_blockSize (m : Mode) (p : Phase) (s : State) : (State.accept m p s).blockSize = s.blockSize := rfl
@[simp] theorem State.accept_ulen (m : Mode) (p : Phase) (s : State) : (State.accept m p s).ulen = s.ulen := rfl
@[simp] theorem State.accept_slen (m : Mode) (p : Phase) (s : State) : (State.accept m p s).slen = s.slen := rfl
@[simp] theorem State.accept_ckacc (m : Mode) (p : Phase) (s : State) : (State.accept m p s).ckacc = s.ckacc := rfl
@[simp] theorem State.accept_ckrx (m : Mode) (p : Phase) (s : State) : (State.accept m p s).ckrx = s.ckrx := rfl
@[simp] theorem State.accept_cmd (m : Mode) (p : Phase) (s : State) : (State.accept m p s).cmd = s.cmd := rfl
@[simp] theorem State.accept_stage (m : Mode) (p : Phase) (s : State) : (State.accept m p s).stage = s.stage := rfl
@[simp] theorem State.accept_inp (m : Mode) (p : Phase) (s : State) : (State.accept m p s).inp = s.inp := rfl
@[simp] theorem State.accept_out (m : Mode) (p : Phase) (s : State) : (State.accept m p s).out = s.out := rfl
@[simp] theorem State.accept_outAns (m : Mode) (p : Phase) (s : State) : (State.accept m p s).outAns = s.outAns := rfl
@[simp] theorem State.accept_codec (m : Mode) (p : Phase) (s : State) : (State.accept m p s).codec = s.codec := rfl
@[simp] theorem State.accept_host (m : Mode) (p : Phase) (s : State) : (State.accept m p s).host = s.host := rfl
@[simp] theorem State.accept_hostData (m : Mode) (p : Phase) (s : State) : (State.accept m p s).hostData = s.hostData := rfl
@[simp] theorem State.accept_ret (m : Mode) (p : Phase) (s : State) : (State.accept m p s).ret = s.ret := rfl
@[simp] theorem State.accept_draws (m : Mode) (p : Phase) (s : State) : (State.accept m p s).draws = s.draws := rfl

/-! `State.refuse`. -/

@[simp] theorem State.refuse_ckchk (c : Cause) (s : State) : (State.refuse c s).ckchk = false := rfl
@[simp] theorem State.refuse_err (c : Cause) (s : State) : (State.refuse c s).err = some c := rfl
@[simp] theorem State.refuse_mode (c : Cause) (s : State) : (State.refuse c s).mode = .none := rfl
@[simp] theorem State.refuse_phase (c : Cause) (s : State) : (State.refuse c s).phase = .failed := rfl
@[simp] theorem State.refuse_flags (c : Cause) (s : State) : (State.refuse c s).flags = s.flags := rfl
@[simp] theorem State.refuse_method (c : Cause) (s : State) : (State.refuse c s).method = s.method := rfl
@[simp] theorem State.refuse_level (c : Cause) (s : State) : (State.refuse c s).level = s.level := rfl
@[simp] theorem State.refuse_blockSize (c : Cause) (s : State) : (State.refuse c s).blockSize = s.blockSize := rfl
@[simp] theorem State.refuse_ulen (c : Cause) (s : State) : (State.refuse c s).ulen = s.ulen := rfl
@[simp] theorem State.refuse_slen (c : Cause) (s : State) : (State.refuse c s).slen = s.slen := rfl
@[simp] theorem State.refuse_ckacc (c : Cause) (s : State) : (State.refuse c s).ckacc = s.ckacc := rfl
@[simp] theorem State.refuse_ckrx (c : Cause) (s : State) : (State.refuse c s).ckrx = s.ckrx := rfl
@[simp] theorem State.refuse_cmd (c : Cause) (s : State) : (State.refuse c s).cmd = s.cmd := rfl
@[simp] theorem State.refuse_stage (c : Cause) (s : State) : (State.refuse c s).stage = s.stage := rfl
@[simp] theorem State.refuse_inp (c : Cause) (s : State) : (State.refuse c s).inp = s.inp := rfl
@[simp] theorem State.refuse_out (c : Cause) (s : State) : (State.refuse c s).out = s.out := rfl
@[simp] theorem State.refuse_outAns (c : Cause) (s : State) : (State.refuse c s).outAns = s.outAns := rfl
@[simp] theorem State.refuse_codec (c : Cause) (s : State) : (State.refuse c s).codec = s.codec := rfl
@[simp] theorem State.refuse_host (c : Cause) (s : State) : (State.refuse c s).host = s.host := rfl
@[simp] theorem State.refuse_hostData (c : Cause) (s : State) : (State.refuse c s).hostData = s.hostData := rfl
@[simp] theorem State.refuse_ret (c : Cause) (s : State) : (State.refuse c s).ret = s.ret := rfl
@[simp] theorem State.refuse_draws (c : Cause) (s : State) : (State.refuse c s).draws = s.draws := rfl

/-! `State.wrote`. -/

@[simp] theorem State.wrote_ckchk (b : Bytes) (s : State) : (State.wrote b s).ckchk = s.ckchk := rfl
@[simp] theorem State.wrote_err (b : Bytes) (s : State) : (State.wrote b s).err = s.err := rfl
@[simp] theorem State.wrote_mode (b : Bytes) (s : State) : (State.wrote b s).mode = s.mode := rfl
@[simp] theorem State.wrote_phase (b : Bytes) (s : State) : (State.wrote b s).phase = s.phase := rfl
@[simp] theorem State.wrote_flags (b : Bytes) (s : State) : (State.wrote b s).flags = s.flags := rfl
@[simp] theorem State.wrote_method (b : Bytes) (s : State) : (State.wrote b s).method = s.method := rfl
@[simp] theorem State.wrote_level (b : Bytes) (s : State) : (State.wrote b s).level = s.level := rfl
@[simp] theorem State.wrote_blockSize (b : Bytes) (s : State) : (State.wrote b s).blockSize = s.blockSize := rfl
@[simp] theorem State.wrote_ulen (b : Bytes) (s : State) : (State.wrote b s).ulen = s.ulen := rfl
@[simp] theorem State.wrote_slen (b : Bytes) (s : State) : (State.wrote b s).slen = s.slen := rfl
@[simp] theorem State.wrote_ckacc (b : Bytes) (s : State) : (State.wrote b s).ckacc = s.ckacc := rfl
@[simp] theorem State.wrote_ckrx (b : Bytes) (s : State) : (State.wrote b s).ckrx = s.ckrx := rfl
@[simp] theorem State.wrote_cmd (b : Bytes) (s : State) : (State.wrote b s).cmd = s.cmd := rfl
@[simp] theorem State.wrote_stage (b : Bytes) (s : State) : (State.wrote b s).stage = s.stage := rfl
@[simp] theorem State.wrote_inp (b : Bytes) (s : State) : (State.wrote b s).inp = s.inp := rfl
@[simp] theorem State.wrote_out (b : Bytes) (s : State) : (State.wrote b s).out = s.out ++ b := rfl
@[simp] theorem State.wrote_outAns (b : Bytes) (s : State) : (State.wrote b s).outAns = s.outAns.tail := rfl
@[simp] theorem State.wrote_codec (b : Bytes) (s : State) : (State.wrote b s).codec = s.codec := rfl
@[simp] theorem State.wrote_host (b : Bytes) (s : State) : (State.wrote b s).host = s.host := rfl
@[simp] theorem State.wrote_hostData (b : Bytes) (s : State) : (State.wrote b s).hostData = s.hostData := rfl
@[simp] theorem State.wrote_ret (b : Bytes) (s : State) : (State.wrote b s).ret = s.ret := rfl
@[simp] theorem State.wrote_draws (b : Bytes) (s : State) : (State.wrote b s).draws = s.draws := rfl

/-! `State.ckReset`. -/

@[simp] theorem State.ckReset_ckchk (s : State) : (State.ckReset s).ckchk = s.ckchk := rfl
@[simp] theorem State.ckReset_err (s : State) : (State.ckReset s).err = s.err := rfl
@[simp] theorem State.ckReset_mode (s : State) : (State.ckReset s).mode = s.mode := rfl
@[simp] theorem State.ckReset_phase (s : State) : (State.ckReset s).phase = s.phase := rfl
@[simp] theorem State.ckReset_flags (s : State) : (State.ckReset s).flags = s.flags := rfl
@[simp] theorem State.ckReset_method (s : State) : (State.ckReset s).method = s.method := rfl
@[simp] theorem State.ckReset_level (s : State) : (State.ckReset s).level = s.level := rfl
@[simp] theorem State.ckReset_blockSize (s : State) : (State.ckReset s).blockSize = s.blockSize := rfl
@[simp] theorem State.ckReset_ulen (s : State) : (State.ckReset s).ulen = s.ulen := rfl
@[simp] theorem State.ckReset_slen (s : State) : (State.ckReset s).slen = s.slen := rfl
@[simp] theorem State.ckReset_ckacc (s : State) : (State.ckReset s).ckacc = ckInit := rfl
@[simp] theorem State.ckReset_ckrx (s : State) : (State.ckReset s).ckrx = s.ckrx := rfl
@[simp] theorem State.ckReset_cmd (s : State) : (State.ckReset s).cmd = s.cmd := rfl
@[simp] theorem State.ckReset_stage (s : State) : (State.ckReset s).stage = s.stage := rfl
@[simp] theorem State.ckReset_inp (s : State) : (State.ckReset s).inp = s.inp := rfl
@[simp] theorem State.ckReset_out (s : State) : (State.ckReset s).out = s.out := rfl
@[simp] theorem State.ckReset_outAns (s : State) : (State.ckReset s).outAns = s.outAns := rfl
@[simp] theorem State.ckReset_codec (s : State) : (State.ckReset s).codec = s.codec := rfl
@[simp] theorem State.ckReset_host (s : State) : (State.ckReset s).host = s.host := rfl
@[simp] theorem State.ckReset_hostData (s : State) : (State.ckReset s).hostData = s.hostData := rfl
@[simp] theorem State.ckReset_ret (s : State) : (State.ckReset s).ret = s.ret := rfl
@[simp] theorem State.ckReset_draws (s : State) : (State.ckReset s).draws = s.draws := rfl

/-! `State.ckFold`. -/

@[simp] theorem State.ckFold_ckchk (b : Bytes) (s : State) : (State.ckFold b s).ckchk = s.ckchk := rfl
@[simp] theorem State.ckFold_err (b : Bytes) (s : State) : (State.ckFold b s).err = s.err := rfl
@[simp] theorem State.ckFold_mode (b : Bytes) (s : State) : (State.ckFold b s).mode = s.mode := rfl
@[simp] theorem State.ckFold_phase (b : Bytes) (s : State) : (State.ckFold b s).phase = s.phase := rfl
@[simp] theorem State.ckFold_flags (b : Bytes) (s : State) : (State.ckFold b s).flags = s.flags := rfl
@[simp] theorem State.ckFold_method (b : Bytes) (s : State) : (State.ckFold b s).method = s.method := rfl
@[simp] theorem State.ckFold_level (b : Bytes) (s : State) : (State.ckFold b s).level = s.level := rfl
@[simp] theorem State.ckFold_blockSize (b : Bytes) (s : State) : (State.ckFold b s).blockSize = s.blockSize := rfl
@[simp] theorem State.ckFold_ulen (b : Bytes) (s : State) : (State.ckFold b s).ulen = s.ulen := rfl
@[simp] theorem State.ckFold_slen (b : Bytes) (s : State) : (State.ckFold b s).slen = s.slen := rfl
@[simp] theorem State.ckFold_ckacc (b : Bytes) (s : State) : (State.ckFold b s).ckacc = ckUpdate s.ckacc b := rfl
@[simp] theorem State.ckFold_ckrx (b : Bytes) (s : State) : (State.ckFold b s).ckrx = s.ckrx := rfl
@[simp] theorem State.ckFold_cmd (b : Bytes) (s : State) : (State.ckFold b s).cmd = s.cmd := rfl
@[simp] theorem State.ckFold_stage (b : Bytes) (s : State) : (State.ckFold b s).stage = s.stage := rfl
@[simp] theorem State.ckFold_inp (b : Bytes) (s : State) : (State.ckFold b s).inp = s.inp := rfl
@[simp] theorem State.ckFold_out (b : Bytes) (s : State) : (State.ckFold b s).out = s.out := rfl
@[simp] theorem State.ckFold_outAns (b : Bytes) (s : State) : (State.ckFold b s).outAns = s.outAns := rfl
@[simp] theorem State.ckFold_codec (b : Bytes) (s : State) : (State.ckFold b s).codec = s.codec := rfl
@[simp] theorem State.ckFold_host (b : Bytes) (s : State) : (State.ckFold b s).host = s.host := rfl
@[simp] theorem State.ckFold_hostData (b : Bytes) (s : State) : (State.ckFold b s).hostData = s.hostData := rfl
@[simp] theorem State.ckFold_ret (b : Bytes) (s : State) : (State.ckFold b s).ret = s.ret := rfl
@[simp] theorem State.ckFold_draws (b : Bytes) (s : State) : (State.ckFold b s).draws = s.draws := rfl

end Sys2Proof.Machine
end

