-- ==== Sys2Proof/Laws/Steps.lean ====
section
/-! SUPPORT. Everything a step can do when it answers a next state, said once: the inversion lemmas that a proof about
all steps cites. -/

namespace Sys2Proof.Machine

/-- The phases that read IN, and the error with which the end of the input, or a failure, ends each. -/
def readErrors (p : Phase) (c : Cause) : Prop :=
  match p with
  | .eRead => c = .ioInFail
  | .dMagic | .dHdr | .dUlen | .dSlen | .dEos | .dTrailer => c = .ioInFail ∨ c = .ioUnexpectedEoi
  | .dData => c = .ioInFail ∨ c = .truncatedShortBlock
  | _ => False

/-- The next states of the framer's own step, with what each rests on. -/
inductive PhaseNext (s : State) : State → Prop where
  | wait : PhaseNext s s
  | readError (c : Cause) (rest : List InEvent) : readErrors s.phase c → rest <:+ s.inp →
      PhaseNext s (State.raise c { s with inp := rest })
  | eHdr : s.phase = .eHdr → PhaseNext s
      ((State.wrote (encode (.hdr encFlags methodLzo s.level s.blockSize))
        { s with flags := encFlags, method := methodLzo }).goto .eInit)
  | eHdrFail (n : Nat) : s.phase = .eHdr → PhaseNext s
      ((State.wrote ((encode (.hdr encFlags methodLzo s.level s.blockSize)).take n)
        { s with flags := encFlags, method := methodLzo }).raise .ioOutFail)
  | eInit : s.phase = .eInit → PhaseNext s (s.ckReset.goto .eRead)
  | eReadBlock (b : Bytes) (rest : List InEvent) : s.phase = .eRead → b ≠ [] → b.length ≤ s.blockSize.toNat →
      s.inp = b.map .byte ++ rest → PhaseNext s
      { s with inp := rest, stage := s.stage.write 0 b, ulen := BitVec.ofNat 32 b.length, phase := .eBlock }
  | eReadEnd (rest : List InEvent) : s.phase = .eRead → rest <:+ s.inp →
      PhaseNext s (State.goto .eEos { s with inp := rest })
  | eBlock (v : Word) (w : Bytes) : s.phase = .eBlock → s.ulen.toNat ≤ s.blockSize.toNat → PhaseNext s
      ((State.wrote w { s.ckFold (s.stage.bytesAt 0 s.ulen.toNat) with slen := v }).goto .eRead)
  | eBlockFail (v : Word) (w : Bytes) : s.phase = .eBlock → s.ulen.toNat ≤ s.blockSize.toNat → PhaseNext s
      ((State.wrote w { s.ckFold (s.stage.bytesAt 0 s.ulen.toNat) with slen := v }).raise .ioOutFail)
  | eEos : s.phase = .eEos → PhaseNext s
      ((State.wrote (encode (.eos 0)) { s with ulen := 0, slen := 0 }).goto .eTrailer)
  | eEosFail (n : Nat) : s.phase = .eEos → PhaseNext s
      ((State.wrote ((encode (.eos 0)).take n) { s with ulen := 0, slen := 0 }).raise .ioOutFail)
  | eTrailer : s.phase = .eTrailer → PhaseNext s ((s.wrote (encode (.cksum (ckFinal s.ckacc)))).goto .done)
  | eTrailerFail (n : Nat) : s.phase = .eTrailer → PhaseNext s
      ((s.wrote ((encode (.cksum (ckFinal s.ckacc))).take n)).raise .ioOutFail)
  | dMagic (rest : List InEvent) : s.phase = .dMagic → rest <:+ s.inp →
      PhaseNext s (State.goto .dHdr { s with inp := rest })
  | dMagicBad (rest : List InEvent) : s.phase = .dMagic → rest <:+ s.inp →
      PhaseNext s (State.raise .formatBadMagic { s with inp := rest })
  | dHdr (f : Word) (m lv : Byte) (bs : Word) (rest : List InEvent) : s.phase = .dHdr → rest <:+ s.inp →
      m = methodLzo → bsMin ≤ bs.toNat → bs.toNat ≤ bsMax → PhaseNext s
      { s with inp := rest, flags := f, method := m, level := lv, blockSize := bs, phase := .dAlloc }
  | dHdrBad (f : Word) (m lv : Byte) (bs : Word) (c : Cause) (rest : List InEvent) : s.phase = .dHdr →
      rest <:+ s.inp → headerRejection m bs = some c → PhaseNext s
      { s with inp := rest, flags := f, method := m, level := lv, blockSize := bs, err := some c, phase := .failed }
  | dAlloc : s.phase = .dAlloc → PhaseNext s (s.goto .dUlen)
  | dUlen (u : Word) (rest : List InEvent) : s.phase = .dUlen → rest <:+ s.inp →
      PhaseNext s { s with inp := rest, ulen := u, phase := if u = 0 then .dEos else .dSlen }
  | dSlen (v : Word) (rest : List InEvent) : s.phase = .dSlen → rest <:+ s.inp →
      v.toNat ≤ stageCapOf s.blockSize.toNat → PhaseNext s { s with inp := rest, slen := v, phase := .dData }
  | dSlenBad (v : Word) (rest : List InEvent) : s.phase = .dSlen → rest <:+ s.inp →
      PhaseNext s (State.raise .corruptStageOversize { s with inp := rest, slen := v })
  | dData (b : Bytes) (rest : List InEvent) : s.phase = .dData → b.length = s.slen.toNat →
      b.length ≤ stageCapOf s.blockSize.toNat → s.inp = b.map .byte ++ rest →
      PhaseNext s { s with inp := rest, stage := s.stage.write 0 b, phase := .dBlock }
  | dBlock (d : Bytes) : s.phase = .dBlock → d.length = s.ulen.toNat → PhaseNext s
      ((State.ckFold d (s.wrote d)).goto .dUlen)
  | dBlockEmpty : s.phase = .dBlock → s.ulen.toNat = 0 → PhaseNext s ((State.ckFold [] s).goto .dUlen)
  | dBlockBad (c : Cause) : s.phase = .dBlock → c = .corruptCodecFail ∨ c = .corruptLengthMismatch →
      PhaseNext s (s.raise c)
  | dBlockFail (w : Bytes) : s.phase = .dBlock → PhaseNext s ((s.wrote w).raise .ioOutFail)
  | dEos (v : Word) (rest : List InEvent) : s.phase = .dEos → rest <:+ s.inp →
      PhaseNext s { s with inp := rest, slen := v, phase := .dTrailer }
  | dTrailerSkip : s.phase = .dTrailer → cksumFlag s.flags = false → PhaseNext s (s.goto .done)
  | dTrailer (v : Word) (rest : List InEvent) : s.phase = .dTrailer → rest <:+ s.inp →
      cksumFlag s.flags = true → v = ckFinal s.ckacc →
      PhaseNext s { s with inp := rest, ckrx := v, ckchk := true, phase := .done }
  | dTrailerBad (v : Word) (rest : List InEvent) : s.phase = .dTrailer → rest <:+ s.inp →
      PhaseNext s (State.raise .checksumMismatch { s with inp := rest, ckrx := v })

theorem memRead_of_some {a n : Nat} {b : Bytes} {s : State} (h : s.memRead a n = some b) :
    b = s.stage.bytesAt a n ∧ ∃ cap, s.stageCap = some cap ∧ a + n ≤ cap := by
  unfold State.memRead State.inStage at h
  cases hc : s.stageCap with
  | none => simp [hc] at h
  | some cap =>
    simp only [hc, decide_eq_true_eq, Option.ite_none_right_eq_some, Option.some.injEq] at h
    exact ⟨h.2.symm, cap, rfl, h.1⟩

theorem memWrite_of_some {a : Nat} {v : Bytes} {s t : State} (h : s.memWrite a v = some t) :
    t = { s with stage := s.stage.write a v } ∧ ∃ cap, s.stageCap = some cap ∧ a + v.length ≤ cap := by
  unfold State.memWrite State.inStage at h
  cases hc : s.stageCap with
  | none => simp [hc] at h
  | some cap =>
    simp only [hc, decide_eq_true_eq, Option.ite_none_right_eq_some, Option.some.injEq] at h
    exact ⟨h.2.symm, cap, rfl, h.1⟩

theorem takeIn_rest_suffix (evs : List InEvent) (k : Nat) : (takeIn evs k).rest <:+ evs := by
  have h := takeIn_split evs k
  rw [← List.append_assoc] at h
  exact ⟨_, h.symm⟩

theorem deliver_next {s t : State} {d : Bytes} (hp : s.phase = .dBlock) (hl : d.length = s.ulen.toNat)
    (h : deliver d s = .next t) : PhaseNext s t := by
  unfold deliver at h
  rcases writeThen_cases s d s fun s' => .next ((s'.ckFold d).goto .dUlen) with ⟨hd, e⟩ | ⟨_, _, e⟩ | ⟨n, e⟩ | ⟨_, e⟩ <;>
    rw [e] at h <;> cases h
  · subst hd; exact .dBlockEmpty hp hl.symm
  · exact .dBlock d hp hl
  · exact .dBlockFail _ hp
  · exact .wait

/-- The framer's own step. -/
theorem phaseStep_next {s t : State} (h : phaseStep s = .next t) : PhaseNext s t := by
  cases hp : s.phase with
  | idle => rw [phaseStep_idle hp] at h; cases h; exact .wait
  | done => rw [phaseStep_done hp] at h; cases h; exact .wait
  | failed => rw [phaseStep_failed hp] at h; cases h; exact .wait
  | eHdr =>
    rw [phaseStep_eHdr hp, exec_hdr_eHdr hp] at h
    rcases emit_cases (s := s) (s' := { s with flags := encFlags, method := methodLzo }) (p := .eInit)
      (encode_hdr_ne encFlags methodLzo s.level s.blockSize) with ⟨_, e⟩ | ⟨n, e⟩ | ⟨_, e⟩ <;> rw [e] at h <;> cases h
    · exact .eHdr hp
    · exact .eHdrFail n hp
    · exact .wait
  | eInit => rw [phaseStep_eInit hp] at h; cases h; exact .eInit hp
  | eRead =>
    rw [phaseStep_eRead hp] at h
    simp only [phaseERead] at h
    have hrest := takeIn_rest_suffix s.inp s.blockSize.toNat
    have hlen := takeIn_length_le s.inp s.blockSize.toNat
    have hsplit := takeIn_split s.inp s.blockSize.toNat
    have block : (takeIn s.inp s.blockSize.toNat).status ≠ .fail →
        (if (takeIn s.inp s.blockSize.toNat).bytes = [] then
          Host.Outcome.next (State.goto .eEos { s with inp := (takeIn s.inp s.blockSize.toNat).rest })
        else match State.memWrite 0 (takeIn s.inp s.blockSize.toNat).bytes
            { s with inp := (takeIn s.inp s.blockSize.toNat).rest } with
          | none => .fault .stageOutOfRange
          | some s'' => .next
              { s'' with ulen := BitVec.ofNat 32 (takeIn s.inp s.blockSize.toNat).bytes.length, phase := .eBlock }) =
        (.next t : Result) → PhaseNext s t := by
      intro hst h
      rw [if_neg hst] at hsplit
      split at h
      · cases h; exact .eReadEnd _ hp hrest
      · rename_i hne
        split at h
        · cases h
        · rename_i s'' hw
          obtain ⟨e, -⟩ := memWrite_of_some hw
          subst e; cases h
          exact .eReadBlock _ _ hp hne hlen (by simpa using hsplit)
    split at h
    · cases h; exact .readError _ _ (by rw [hp]; rfl) hrest
    · cases h; exact .wait
    · rename_i hst; exact block (by simp [hst]) h
    · rename_i hst; exact block (by simp [hst]) h
  | eBlock =>
    rw [phaseStep_eBlock hp] at h
    simp only [phaseEBlock] at h
    split at h
    · cases h
    · rename_i blk hm
      obtain ⟨rfl, cap, hcap, hle⟩ := memRead_of_some hm
      have hu : s.ulen.toNat ≤ s.blockSize.toNat := by
        simp only [State.stageCap, hp, Option.some.injEq] at hcap
        omega
      split at h
      · cases h; exact .wait
      · have hf : (s.ckFold (s.stage.bytesAt 0 s.ulen.toNat)).phase = .eBlock := hp
        rename_i hst
        have out : ∀ v i, encode i ≠ [] →
            emit (s.ckFold (s.stage.bytesAt 0 s.ulen.toNat)) i .eRead
              { s.ckFold (s.stage.bytesAt 0 s.ulen.toNat) with slen := v } = .next t → PhaseNext s t := by
          intro v i hi h
          rcases emit_cases (s := s.ckFold (s.stage.bytesAt 0 s.ulen.toNat))
            (s' := { s.ckFold (s.stage.bytesAt 0 s.ulen.toNat) with slen := v }) (p := .eRead) hi with
            ⟨_, e⟩ | ⟨n, e⟩ | ⟨hs, e⟩ <;> rw [e] at h
          · cases h; exact .eBlock v _ hp hu
          · cases h; exact .eBlockFail v _ hp hu
          · exact absurd hs hst
        replace h : exec (blockRecord s.codec s.level s.ulen (s.stage.bytesAt 0 s.ulen.toNat))
            (s.ckFold (s.stage.bytesAt 0 s.ulen.toNat)) = .next t := h
        rcases blockRecord_cases s.codec s.level s.ulen (s.stage.bytesAt 0 s.ulen.toNat) with ⟨_, e⟩ | ⟨_, e⟩ <;>
          rw [e] at h
        · exact out _ _ (encode_blkS_ne _) ((exec_blkS_eBlock hf).symm.trans h)
        · exact out _ _ (encode_blkC_ne _ _) ((exec_blkC_eBlock hf).symm.trans h)
  | eEos =>
    rw [phaseStep_eEos hp, exec_eos_eEos hp] at h
    rcases emit_cases (s := s) (s' := { s with ulen := 0, slen := 0 }) (p := .eTrailer) (encode_eos_ne 0) with
      ⟨_, e⟩ | ⟨n, e⟩ | ⟨_, e⟩ <;> rw [e] at h <;> cases h
    · exact .eEos hp
    · exact .eEosFail n hp
    · exact .wait
  | eTrailer =>
    rw [phaseStep_eTrailer hp, exec_cksum_eTrailer hp] at h
    rcases emit_cases (s := s) (s' := s) (p := .done) (encode_cksum_ne (ckFinal s.ckacc)) with
      ⟨_, e⟩ | ⟨n, e⟩ | ⟨_, e⟩ <;> rw [e] at h <;> cases h
    · exact .eTrailer hp
    · exact .eTrailerFail n hp
    · exact .wait
  | dMagic =>
    rw [phaseStep_dMagic hp] at h
    unfold phaseDMagic at h
    rcases readThen_cases 7 .ioUnexpectedEoi s fun b s' =>
      if b ≠ magic then .next (s'.raise .formatBadMagic) else .next (s'.goto .dHdr) with
      ⟨b, rest, _, hi, e⟩ | ⟨rest, hr, e | e⟩ | e <;> rw [e] at h
    · split at h <;> cases h
      · exact .dMagicBad rest hp ⟨_, hi.symm⟩
      · exact .dMagic rest hp ⟨_, hi.symm⟩
    · cases h; exact .readError _ rest (by rw [hp]; exact .inr rfl) hr
    · cases h; exact .readError _ rest (by rw [hp]; exact .inl rfl) hr
    · cases h; exact .wait
  | dHdr =>
    rw [phaseStep_dHdr hp] at h
    unfold phaseDHdr at h
    rcases readThen_cases 10 .ioUnexpectedEoi s fun b s' => exec (headerFields b) s' with
      ⟨b, rest, _, hi, e⟩ | ⟨rest, hr, e | e⟩ | e <;> rw [e] at h
    · have hp' : State.phase { s with inp := rest } = .dHdr := hp
      unfold headerFields at h
      rw [exec_hdr_dHdr hp'] at h
      cases hj : headerRejection (b.getD 4 0) (unbe32 ((b.drop 6).take 4)) with
      | none =>
        rw [latchHeader_accepted hj] at h
        obtain ⟨h1, h2, h3⟩ := (headerRejection_none_iff _ _).mp hj
        cases h
        exact .dHdr _ _ _ _ rest hp ⟨_, hi.symm⟩ h1 h2 h3
      | some c =>
        rw [latchHeader_rejected hj] at h
        cases h
        exact .dHdrBad _ _ _ _ c rest hp ⟨_, hi.symm⟩ hj
    · cases h; exact .readError _ rest (by rw [hp]; exact .inr rfl) hr
    · cases h; exact .readError _ rest (by rw [hp]; exact .inl rfl) hr
    · cases h; exact .wait
  | dAlloc => rw [phaseStep_dAlloc hp] at h; cases h; exact .dAlloc hp
  | dUlen =>
    rw [phaseStep_dUlen hp] at h
    unfold phaseDUlen at h
    rcases readThen_cases 4 .ioUnexpectedEoi s fun b s' => latchUlen (unbe32 b) s' with
      ⟨b, rest, _, hi, e⟩ | ⟨rest, hr, e | e⟩ | e <;> rw [e] at h <;> cases h
    · exact .dUlen _ rest hp ⟨_, hi.symm⟩
    · exact .readError _ rest (by rw [hp]; exact .inr rfl) hr
    · exact .readError _ rest (by rw [hp]; exact .inl rfl) hr
    · exact .wait
  | dSlen =>
    rw [phaseStep_dSlen hp] at h
    unfold phaseDSlen at h
    rcases readThen_cases 4 .ioUnexpectedEoi s fun b s' => latchSlen (unbe32 b) s' with
      ⟨b, rest, _, hi, e⟩ | ⟨rest, hr, e | e⟩ | e <;> rw [e] at h
    · have hcap : State.stageCap { s with inp := rest } = some (stageCapOf s.blockSize.toNat) := by
        simp only [State.stageCap, hp]
      unfold latchSlen at h
      rw [hcap] at h
      simp only at h
      split at h <;> cases h
      · exact .dSlenBad _ rest hp ⟨_, hi.symm⟩
      · rename_i hle
        exact .dSlen _ rest hp ⟨_, hi.symm⟩ (by simpa [oversize] using hle)
    · cases h; exact .readError _ rest (by rw [hp]; exact .inr rfl) hr
    · cases h; exact .readError _ rest (by rw [hp]; exact .inl rfl) hr
    · cases h; exact .wait
  | dData =>
    rw [phaseStep_dData hp] at h
    unfold phaseDData at h
    rcases readThen_cases s.slen.toNat .truncatedShortBlock s fun b s' => storeStored b s' with
      ⟨b, rest, hb, hi, e⟩ | ⟨rest, hr, e | e⟩ | e <;> rw [e] at h
    · unfold storeStored at h
      split at h
      · cases h
      · rename_i s'' hw
        obtain ⟨rfl, cap, hcap, hle⟩ := memWrite_of_some hw
        simp only [State.stageCap, hp, Option.some.injEq] at hcap
        cases h
        exact .dData b rest hp hb (by omega) hi
    · cases h; exact .readError _ rest (by rw [hp]; exact .inr rfl) hr
    · cases h; exact .readError _ rest (by rw [hp]; exact .inl rfl) hr
    · cases h; exact .wait
  | dBlock =>
    rw [phaseStep_dBlock hp] at h
    unfold State.held runOperation at h
    cases hm : s.memRead 0 s.slen.toNat with
    | none => rw [hm] at h; cases h
    | some b =>
      rw [hm] at h
      simp only [Option.map_some] at h
      split at h
      case isTrue he =>
        rw [exec_blkS_dBlock hp] at h
        exact deliver_next hp (by rw [(memRead_of_some hm).1, Memory.bytesAt_length, he]) h
      · rcases exec_blkC_dBlock (u := s.ulen) (d := b) hp with ⟨_, e⟩ | ⟨x, _, ⟨_, e⟩ | ⟨hx, e⟩⟩ <;> rw [e] at h
        · cases h; exact .dBlockBad _ hp (.inl rfl)
        · cases h; exact .dBlockBad _ hp (.inr rfl)
        · exact deliver_next hp hx h
  | dEos =>
    rw [phaseStep_dEos hp] at h
    rw [phaseDEos_eq] at h
    rcases readThen_cases 4 .ioUnexpectedEoi s fun b s' => exec (.eos (unbe32 b)) s' with
      ⟨b, rest, _, hi, e⟩ | ⟨rest, hr, e | e⟩ | e <;> rw [e] at h
    · have hp' : State.phase { s with inp := rest } = .dEos := hp
      rw [exec_eos_dEos hp'] at h
      cases h; exact .dEos _ rest hp ⟨_, hi.symm⟩
    · cases h; exact .readError _ rest (by rw [hp]; exact .inr rfl) hr
    · cases h; exact .readError _ rest (by rw [hp]; exact .inl rfl) hr
    · cases h; exact .wait
  | dTrailer =>
    rw [phaseStep_dTrailer hp] at h
    unfold phaseDTrailer at h
    split at h
    · rename_i hf
      rcases readThen_cases 4 .ioUnexpectedEoi s fun b s' => exec (.cksum (unbe32 b)) s' with
        ⟨b, rest, _, hi, e⟩ | ⟨rest, hr, e | e⟩ | e <;> rw [e] at h
      · have hp' : State.phase { s with inp := rest } = .dTrailer := hp
        have hf' : cksumFlag (State.flags { s with inp := rest }) = true := hf
        rw [exec_cksum_dTrailer hp', if_pos hf'] at h
        unfold checkTrailer at h
        simp only at h
        split at h <;> cases h
        · rename_i hc
          exact .dTrailer _ rest hp ⟨_, hi.symm⟩ hf (by simpa [ckCompare] using hc)
        · exact .dTrailerBad _ rest hp ⟨_, hi.symm⟩
      · cases h; exact .readError _ rest (by rw [hp]; exact .inr rfl) hr
      · cases h; exact .readError _ rest (by rw [hp]; exact .inl rfl) hr
      · cases h; exact .wait
    · rename_i hf
      cases h; exact .dTrailerSkip hp (by simpa using hf)

/-- A written command taken: it is lost while busy (R139), refused (R137), or accepted (R132, R134). -/
theorem takeCommand_cases (w : CmdWord) (s : State) :
    (s.busy = true ∧ takeCommand w s = .next s) ∨
    (s.busy = false ∧ ∃ c, causeFits c .none = true ∧ takeCommand w s = .next (s.refuse c)) ∨
    (s.busy = false ∧ cmdOp w = 0x01 ∧ encodeRefusal (cmdLevel w) (cmdBlockSize w) = none ∧
      takeCommand w s = .next
        { s.accept .encode .eHdr with level := cmdLevel w, blockSize := cmdBlockSize w }) ∨
    (s.busy = false ∧ cmdOp w = 0x02 ∧ takeCommand w s = .next (s.accept .decode .dMagic).ckReset) := by
  unfold takeCommand decodeCommand
  by_cases h1 : cmdOp w = 0x01
  · rw [if_pos h1]
    cases hb : s.busy with
    | true => exact .inl ⟨rfl, exec_encode_busy hb⟩
    | false =>
      cases hr : encodeRefusal (cmdLevel w) (cmdBlockSize w) with
      | none => exact .inr (.inr (.inl ⟨rfl, h1, rfl, exec_encode_accepted hb hr⟩))
      | some c =>
        refine .inr (.inl ⟨rfl, c, ?_, exec_encode_refused hb hr⟩)
        unfold encodeRefusal at hr
        split at hr
        · cases hr; rfl
        · split at hr
          · cases hr; rfl
          · split at hr <;> cases hr; rfl
  · rw [if_neg h1]
    by_cases h2 : cmdOp w = 0x02
    · rw [if_pos h2]
      cases hb : s.busy with
      | true => exact .inl ⟨rfl, exec_decode_busy hb⟩
      | false => exact .inr (.inr (.inr ⟨rfl, h2, exec_decode_accepted hb⟩))
    · rw [if_neg h2]
      cases hb : s.busy with
      | true => exact .inl ⟨rfl, by simp⟩
      | false => exact .inr (.inl ⟨rfl, .commandBadOp, rfl, by simp⟩)

/-- The next states of a step. -/
inductive StepNext (s : State) : State → Prop where
  | lost : s.cmd.isSome = true → s.busy = true → StepNext s { s with cmd := none }
  | refused (c : Cause) : s.cmd.isSome = true → s.busy = false → causeFits c .none = true →
      StepNext s (State.refuse c { s with cmd := none })
  | encode (w : CmdWord) : s.cmd = some w → s.busy = false → cmdOp w = 0x01 →
      encodeRefusal (cmdLevel w) (cmdBlockSize w) = none → StepNext s
      { State.accept .encode .eHdr { s with cmd := none } with level := cmdLevel w, blockSize := cmdBlockSize w }
  | decode (w : CmdWord) : s.cmd = some w → s.busy = false → cmdOp w = 0x02 →
      StepNext s (State.accept .decode .dMagic { s with cmd := none }).ckReset
  | own (t : State) : s.quiet → PhaseNext s t → StepNext s t
  | ownMoved (h : List HostMove) (t : State) : s.cmd = none → s.host = .run :: h → PhaseNext { s with host := h } t →
      StepNext s t
  | written (w : CmdWord) (h : List HostMove) : s.cmd = none → s.host = .command w :: h →
      StepNext s { s with host := h, cmd := some w }
  | read (r : ReadReg) (h : List HostMove) : s.cmd = none → s.host = .read r :: h →
      StepNext s (hostRead r { s with host := h })
  | driveIn (evs : List InEvent) (h : List HostMove) : s.cmd = none → s.host = .driveIn evs :: h →
      StepNext s { s with host := h, inp := evs }
  | driveOut (a : List OutAnswer) (h : List HostMove) : s.cmd = none → s.host = .driveOut a :: h →
      StepNext s { s with host := h, outAns := a }
  | attachOut (a : List OutAnswer) (h : List HostMove) : s.cmd = none → s.host = .attachOut a :: h →
      StepNext s { s with host := h, out := [], outAns := a }
  | reset (cut : Nat) (h : List HostMove) : s.cmd = none → s.host = .reset cut :: h →
      StepNext s (State.resetWith cut { s with host := h })

/-- A step. -/
theorem step_next {s t : State} (h : step s = .next t) : StepNext s t := by
  rcases step_cases s with ⟨w, hw, e⟩ | ⟨hc, hh, e⟩ | ⟨m, l, hc, hh, e⟩ <;> rw [e] at h
  · have hs : s.cmd.isSome = true := by rw [hw]; rfl
    have hb : State.busy { s with cmd := none } = s.busy := rfl
    rcases takeCommand_cases w { s with cmd := none } with ⟨b, e⟩ | ⟨b, c, hc, e⟩ | ⟨b, ho, hr, e⟩ | ⟨b, ho, e⟩ <;>
      rw [e] at h <;> rw [hb] at b <;> cases h
    · exact .lost hs b
    · exact .refused c hs b hc
    · exact .encode w hw b ho hr
    · exact .decode w hw b ho
  · exact .own t ⟨hc, hh⟩ (phaseStep_next h)
  · cases m with
    | run => exact .ownMoved l t hc hh (phaseStep_next h)
    | command w => cases h; exact .written w l hc hh
    | read r => cases h; exact .read r l hc hh
    | driveIn evs => cases h; exact .driveIn evs l hc hh
    | driveOut a => cases h; exact .driveOut a l hc hh
    | attachOut a => cases h; exact .attachOut a l hc hh
    | reset cut => cases h; exact .reset cut l hc hh

end Sys2Proof.Machine
end

