-- ==== Sys2Proof/Tests/Slice0.lean ====
section
/-! SUPPORT. Small tests. Expected values are from the vectors of spec/95_test_vectors.md (V-..., P...) or written out
from the formats of 30_encoding.md; none is from a run. The second half shows, for every obligation with hypotheses,
states and operands that meet them together. -/

namespace Sys2Proof.Tests

open Sys2Proof.Machine

/-! ## Helpers -/

/-- The state an outcome goes on with. -/
def nextOf (r : Result) : Option State :=
  match r with
  | .next s => some s
  | _ => none

/-- Encode at a phase, with `level = 1`, `BLOCK_SIZE = 1024`, a fresh accumulator and a codec of the vectors. -/
def enc (p : Phase) : State :=
  { State.reset with
    mode := .encode, phase := p, flags := 1, method := 1, level := 1, blockSize := 1024, ckacc := 1
    codec :=
      ⟨[((1, [0x61, 0x62, 0x63]), [1, 2, 3, 4, 5, 6, 7]), ((1, [0x61]), []), ((1, [0x41, 0x41]), [0x77, 0x78])], []⟩ }

/-- Decode at a phase, with the header of P1 read, a fresh accumulator and a codec of the vectors. -/
def dec (p : Phase) : State :=
  { State.reset with
    mode := .decode, phase := p, flags := 1, method := 1, level := 1, blockSize := 1024, ckacc := 1
    codec := ⟨[], [(([0xAA], 2), some [0x41, 0x41]), (([0xAB], 2), none), (([0xAC], 2), some [0x41])]⟩ }

/-- A byte string on IN. -/
def fed (s : State) (b : Bytes) : State := { s with inp := b.map .byte }

/-- The 17 bytes of V-H0b. -/
def headerBytes : Bytes :=
  [0x00, 0xE9, 0x4C, 0x5A, 0x4F, 0xFF, 0x1A, 0x00, 0x00, 0x00, 0x01, 0x01, 0x09, 0x00, 0x04, 0x00, 0x00]

/-! ## Well-formedness: an ill-formed term for each check -/

theorem test_wf_header_method : Instr.wf (.hdr 1 2 1 1024) = false := by decide
theorem test_wf_stored_empty : Instr.wf (.blkS []) = false := by decide
theorem test_wf_stored_too_long (d : Bytes) (h : d.length = 2 ^ 32) : Instr.wf (.blkS d) = false := by
  simp only [Instr.wf, h, Nat.lt_irrefl, decide_false, Bool.and_false]
theorem test_wf_compressed_of_nothing : Instr.wf (.blkC 0 [1]) = false := by decide
theorem test_wf_compressed_too_long (p : Bytes) (h : p.length = 2 ^ 32) : Instr.wf (.blkC 1 p) = false := by
  simp only [Instr.wf, h, Nat.lt_irrefl, decide_false, Bool.and_false, Bool.false_and]
theorem test_wf_compressed_tie : Instr.wf (.blkC 4 [0x77, 0x78, 0x79, 0x7A]) = false := by decide
theorem test_wf_compress_level : Instr.wf (.codecCompress 2 [0x41]) = false := by decide
theorem test_wf_compress_nothing : Instr.wf (.codecCompress 1 []) = false := by decide
theorem test_wf_decompress_to_nothing : Instr.wf (.codecDecompress [1] 0) = false := by decide
theorem test_wf_accepts :
    Instr.wf (.hdr 0xFFFFFFFE 1 255 0) = true ∧ Instr.wf (.blkS [0x61]) = true ∧ Instr.wf (.blkC 1 []) = true ∧
    Instr.wf (.blkC 2 [1, 2, 3]) = true ∧ Instr.wf (.codecCompress 9 [0x41]) = true ∧
    Instr.wf (.codecDecompress [] 5) = true := by decide

/-! ## Decoding of words written out from R92, R96, R98, R99, R102 -/

/-- V-C1, V-C13, V-C9, V-C11. -/
theorem test_decode_command :
    decodeCommand 0x010100000400 = .ok (.encode 1 1024) ∧
    decodeCommand 0x0277DEADBEEF = .ok (.decode 0x77 0xDEADBEEF) ∧
    decodeCommand 0x000100000400 = .error .reservedOp ∧ decodeCommand 0xFFFFFFFFFFFF = .error .reservedOp := by
  decide
theorem test_decode_command_bytes :
    decode .command [0x01, 0x09, 0x00, 0x04, 0x00, 0x00] = .ok (.encode 9 262144, []) := by rfl
/-- V-H0b. -/
theorem test_decode_header : decode .header headerBytes = .ok (.hdr 1 1 9 262144, []) := by rfl
/-- V-H2c, V-H3, and a header cut after 12 bytes. -/
theorem test_decode_header_rejects :
    decode .header (headerBytes.set 6 0x1B) = .error .badMagic ∧
    decode .header (headerBytes.set 11 2) = .error .badMethod ∧
    decode .header (headerBytes.take 12) = .error .short := by decide
/-- V-D1 with a byte behind it. -/
theorem test_decode_stored :
    decode .block [0, 0, 0, 3, 0, 0, 0, 3, 0x61, 0x62, 0x63, 0x99] = .ok (.blkS [0x61, 0x62, 0x63], [0x99]) := by rfl
/-- V-D6, V-D7: `s > u` and `s = 0` are compressed blocks. -/
theorem test_decode_compressed :
    decode .block [0, 0, 0, 2, 0, 0, 0, 3, 1, 2, 3] = .ok (.blkC 2 [1, 2, 3], []) ∧
    decode .block [0, 0, 0, 5, 0, 0, 0, 0] = .ok (.blkC 5 [], []) := ⟨rfl, rfl⟩
/-- V-T5: the marker's second field takes no bytes with it. -/
theorem test_decode_marker :
    decode .block [0, 0, 0, 0, 0, 0, 0, 7, 2] = .ok (.eos 7, [2]) ∧ decode .block [0, 0, 0, 0, 0] = .error .short :=
  ⟨rfl, rfl⟩
/-- V-T1, V-T3. -/
theorem test_decode_trailer :
    decode .trailer [0x02, 0x4D, 0x01, 0x27] = .ok (.cksum 0x024D0127, []) ∧
    decode .trailer [0x27, 0x01, 0x4D, 0x02] = .ok (.cksum 0x27014D02, []) := ⟨rfl, rfl⟩

/-- One word of every row of the table that has an encoding, its bits as the table numbers them. -/
theorem test_decode_table_words :
    decodeTableWord 48 0x010100000400 = some (.encode 1 1024) ∧
    decodeTableWord 48 0x020000000000 = some (.decode 0 0) ∧
    decodeTableWord 136 0x00E94C5A4FFF1A00000001010100000400 = some (.hdr 1 1 1 1024) ∧
    decodeTableWord 88 0x0000000300000003616263 = some (.blkS [0x61, 0x62, 0x63]) ∧
    decodeTableWord 88 0x0000000800000003AABBCC = some (.blkC 8 [0xAA, 0xBB, 0xCC]) ∧
    decodeTableWord 64 0x0000000100000002 = some (.blkC 1 [0, 0]) ∧
    decodeTableWord 64 0 = some (.eos 0) ∧
    decodeTableWord 32 0x024D0127 = some (.cksum 0x024D0127) ∧
    decodeTableWord 48 0x030100000400 = none ∧ decodeTableWord 0 0 = none := by decide

/-- The encoder writes the bytes of P1, P2, P5. -/
theorem test_encode_bytes :
    encode (.hdr 1 1 9 262144) = headerBytes ∧
    encode (.blkS [0x61, 0x62, 0x63]) = [0, 0, 0, 3, 0, 0, 0, 3, 0x61, 0x62, 0x63] ∧
    encode (.blkC 8 [0xAA, 0xBB, 0xCC]) = [0, 0, 0, 8, 0, 0, 0, 3, 0xAA, 0xBB, 0xCC] ∧
    encode (.eos 0) = [0, 0, 0, 0, 0, 0, 0, 0] ∧ encode (.cksum 0x092C0209) = [0x09, 0x2C, 0x02, 0x09] ∧
    encode (.encode 1 1024) = [0x01, 0x01, 0x00, 0x00, 0x04, 0x00] := by decide

/-! ## One step of each operation -/

/-- V-C1. -/
theorem test_encode_accepted :
    (nextOf (exec (.encode 1 1024) State.reset)).map (fun t => (t.mode.code, t.phase.code, t.statusWord, t.level, t.blockSize)) =
      some (1, 1, 0x0001, 1, 1024) := by decide
/-- V-C8: the level is checked first. -/
theorem test_encode_refused :
    (nextOf (exec (.encode 0 0) State.reset)).map (fun t => (t.mode.code, t.phase.code, t.statusWord)) =
      some (0, 17, 0x0164) := by decide
/-- V-C15: DECODE after a checksum error. -/
theorem test_decode_accepted :
    (nextOf (exec (.decode 0x77 0xDEADBEEF) { dec .failed with err := some .checksumMismatch })).map
      (fun t => (t.mode.code, t.phase.code, t.statusWord, t.ckacc)) = some (2, 7, 0x0001, 1) := by decide
/-- V-C10, V-C11: a reserved op written to S11. -/
theorem test_reserved_op :
    (nextOf (step { State.reset with cmd := some 0xFFFFFFFFFFFF })).map
      (fun t => (t.mode.code, t.phase.code, t.statusWord, t.cmd)) = some (0, 17, 0x00E4, none) := by decide
/-- V-H0b. -/
theorem test_header_emitted :
    (nextOf (step { enc .eHdr with level := 9, blockSize := 262144, flags := 0, method := 0 })).map
      (fun t => (t.out, t.flags, t.method, t.phase)) = some (headerBytes, 1, 1, .eInit) := by decide
/-- V-H11: the method is checked before the block size; the registers are written. -/
theorem test_header_rejected :
    (nextOf (step (fed (dec .dHdr) [0, 0, 0, 1, 2, 1, 0, 0, 0, 5]))).map
      (fun t => (t.statusWord, t.method, t.blockSize, t.inp)) = some (0x0124, 2, 5, []) := by decide
/-- V-E1: seven bytes against three. -/
theorem test_stored_emitted :
    (nextOf (step { enc .eBlock with ulen := 3, stage := [(0, 0x61), (1, 0x62), (2, 0x63)] })).map
      (fun t => (t.out, t.ulen, t.slen, t.ckacc, t.phase)) =
      some ([0, 0, 0, 3, 0, 0, 0, 3, 0x61, 0x62, 0x63], 3, 3, 0x024D0127, .eRead) := by decide
/-- V-D1 at `D_BLOCK`. -/
theorem test_stored_consumed :
    (nextOf (step { dec .dBlock with ulen := 3, slen := 3, stage := [(0, 0x61), (1, 0x62), (2, 0x63)] })).map
      (fun t => (t.out, t.ckacc, t.phase)) = some ([0x61, 0x62, 0x63], 0x024D0127, .dUlen) := by decide
/-- V-E6: a compressed form of no bytes. -/
theorem test_compressed_emitted :
    (nextOf (step { enc .eBlock with ulen := 1, stage := [(0, 0x61)] })).map
      (fun t => (t.out, t.slen, t.ckacc)) = some ([0, 0, 0, 1, 0, 0, 0, 0], 0, 0x00620062) := by decide
/-- V-D4: an answer of the wrong length writes nothing. -/
theorem test_compressed_wrong_length :
    (nextOf (step { dec .dBlock with ulen := 2, slen := 1, stage := [(0, 0xAC)] })).map
      (fun t => (t.statusWord, t.out, t.ckacc)) = some (0x0144, [], 1) := by decide
/-- Emission of the marker, 2.6. -/
theorem test_marker_emitted :
    (nextOf (step { enc .eEos with ulen := 3, slen := 3 })).map (fun t => (t.out, t.ulen, t.slen, t.phase)) =
      some ([0, 0, 0, 0, 0, 0, 0, 0], 0, 0, .eTrailer) := by decide
/-- V-T7: the second field is latched, not tested. -/
theorem test_marker_consumed :
    (nextOf (step (fed (dec .dEos) [0x02, 0x4D, 0x01, 0x27]))).map (fun t => (t.slen, t.phase, t.inp)) =
      some (0x024D0127, .dTrailer, []) := by decide
/-- V-T1. -/
theorem test_trailer_matches :
    (nextOf (step (fed { dec .dTrailer with ckacc := 0x024D0127 } [0x02, 0x4D, 0x01, 0x27]))).map
      (fun t => (t.statusWord, t.ckrx, t.inp)) = some (0x000A, 0x024D0127, []) := by decide
/-- V-T2. -/
theorem test_trailer_differs :
    (nextOf (step (fed { dec .dTrailer with ckacc := 0x024D0127 } [0x02, 0x4D, 0x01, 0x26]))).map
      (fun t => (t.statusWord, t.ckrx)) = some (0x00D4, 0x024D0126) := by decide
/-- V-K1. -/
theorem test_ck_init : (nextOf (exec .ckInit { enc .eInit with ckacc := 0x024D0127 })).map State.ckacc = some 1 := by decide
/-- V-K6. -/
theorem test_ck_update : (nextOf (exec (.ckUpdate [0x61, 0x62, 0x63]) (enc .eBlock))).map State.ckacc = some 0x024D0127 := by
  decide
/-- V-K10: both halves wrap. -/
theorem test_ck_update_wraps :
    (nextOf (exec (.ckUpdate [0xFF]) { enc .eBlock with ckacc := 0xFFF0FFF0 })).map State.ckacc = some 0x00FD00FE := by
  decide
/-- V-K23. -/
theorem test_ck_final :
    (nextOf (exec .ckFinal { enc .eTrailer with ckacc := 0x024D0127 })).map (fun t => (t.ret, t.ckacc)) =
      some (.word 0x024D0127, 0x024D0127) := by decide
/-- V-K24, V-K25. -/
theorem test_ck_cmp :
    (nextOf (exec (.ckCmp 0x024D0127) { dec .dTrailer with ckacc := 0x024D0127 })).map State.ret = some (.truth true) ∧
    (nextOf (exec (.ckCmp 0x024D0126) { dec .dTrailer with ckacc := 0x024D0127 })).map State.ret = some (.truth false) := by
  decide
/-- V-E1's call. -/
theorem test_codec_compress :
    (nextOf (exec (.codecCompress 1 [0x61, 0x62, 0x63]) (enc .eBlock))).map State.ret =
      some (.bytes [1, 2, 3, 4, 5, 6, 7]) := by decide
/-- V-D2 and V-D3 in small. -/
theorem test_codec_decompress :
    (nextOf (exec (.codecDecompress [0xAA] 2) (dec .dBlock))).map State.ret = some (.bytes [0x41, 0x41]) ∧
    (nextOf (exec (.codecDecompress [0xAB] 2) (dec .dBlock))).map State.ret = some .codecFail := by decide

/-! ## The other steps -/

/-- The parameters of R7 by name; S11 is the twelfth register (R21). -/
theorem test_parameters :
    config.levelFast = 1 ∧ config.levelBest = 9 ∧ config.eosLen = 8 ∧ config.stageCap 8388608 = 8912963 ∧
    config.ck.update config.ck.init [0x61, 0x62, 0x63] = 0x024D0127 ∧ config.errorNumber .commandError = 6 ∧
    config.registerNumber .cmd = 11 ∧ config.command = ⟨40, 32, 0⟩ := by decide

/-- `E_READ` of three bytes and then the end of the input (P2, step 3). -/
theorem test_read_short_block :
    (nextOf (step (fed (enc .eRead) [0x61, 0x62, 0x63]))).map (fun t => (t.stage, t.ulen, t.phase, t.inp)) =
      some ([(0, 0x61), (1, 0x62), (2, 0x63)], 3, .eBlock, []) := by decide
/-- V-D8: one byte more than StageCap (1155). -/
theorem test_oversize :
    (nextOf (step (fed (dec .dSlen) [0, 0, 4, 0x84, 1]))).map (fun t => (t.statusWord, t.slen, t.inp)) =
      some (0x01C4, 1156, [.byte 1]) := by decide
/-- V-D13: the stored bytes end early. -/
theorem test_short_block :
    (nextOf (step (fed { dec .dData with ulen := 3, slen := 3 } [0x61, 0x62]))).map (fun t => (t.statusWord, t.inp)) =
      some (0x00B4, []) := by decide
/-- The values of STAGE_CAP the spec prints for `D_ALLOC`. -/
theorem test_stage_cap :
    stageCapOf 1024 = 1155 ∧ stageCapOf 1025 = 1156 ∧ stageCapOf 1039 = 1170 ∧ stageCapOf 1040 = 1172 ∧
    stageCapOf 262144 = 278595 ∧ stageCapOf 8388608 = 8912963 := by decide
/-- The cells of a written byte that is 0 are not listed, and those of an older write go. -/
theorem test_memory_canonical : Memory.write [(0, 7), (2, 9)] 0 [5, 0, 0] = [(0, 5)] := by decide
theorem test_reset_memory_wf : State.reset.stage.wf := by decide

/-! ## Hypotheses met: encoding -/

theorem test_witness_DecodeOfEncodeIsIdentity :
    Instr.wf (.blkC 1 []) = true ∧ Instr.position (.blkC 1 []) = some .block ∧
    Instr.wf (.hdr 0xFFFFFFFF 1 255 0xFFFFFFFF) = true ∧
    Instr.position (.hdr 0xFFFFFFFF 1 255 0xFFFFFFFF) = some .header ∧
    Instr.position (.cksum 0) = some .trailer ∧ Instr.position (.decode 0xFF 0) = some .command := by decide

theorem test_witness_EncodeOfDecodeIsIdentity :
    decode .block [0, 0, 0, 5, 0, 0, 0, 0, 1] = .ok (.blkC 5 [], [1]) := by rfl

theorem test_witness_TieBlockReadsBackAsStored :
    (4 : Word) ≠ 0 ∧ ([0x77, 0x78, 0x79, 0x7A] : Bytes).length = (4 : Word).toNat := by decide

/-! ## Hypotheses met: a step runs the decoded operation -/

theorem test_witness_StepRunsTheWrittenCommand :
    (State.cmd { enc .eRead with cmd := some 0x010100000400 } = some 0x010100000400 ∧
      decodeCommand 0x010100000400 = .ok (.encode 1 1024)) ∧
    (let s := { dec .done with host := [.command 0x020000000000] };
      s.cmd = none ∧ s.host = .command 0x020000000000 :: []) ∧
    ((enc .eInit).quiet ∧ ∃ t, step (enc .eInit) = .next t) := ⟨⟨rfl, rfl⟩, ⟨rfl, rfl⟩, ⟨rfl, rfl⟩, _, rfl⟩

/-- The premises of StepRunsTheRecordOnIn at one phase. -/
def onIn (i : Instr) (p : Phase) (off n : Nat) : Prop :=
  let s := { fed (dec p) ((Sys2Proof.encode i).drop off) with slen := BitVec.ofNat 32 n }
  s.quiet ∧ fetchSpan i s.phase = some (off, n) ∧ i.wf = true ∧ (s.phase = .dData → s.slen.toNat = n) ∧
    (s.phase = .dTrailer → cksumFlag s.flags = true) ∧ s.inp = ((Sys2Proof.encode i).drop off).map .byte ++ []

theorem test_witness_StepRunsTheRecordOnIn :
    onIn (.hdr 1 1 9 1024) .dMagic 0 7 ∧ onIn (.hdr 1 1 9 1024) .dHdr 7 10 ∧ onIn (.blkS [0x61]) .dUlen 0 4 ∧
    onIn (.blkS [0x61]) .dSlen 4 4 ∧ onIn (.blkS [0x61]) .dData 8 1 ∧ onIn (.blkC 1 []) .dUlen 0 4 ∧
    onIn (.blkC 1 []) .dSlen 4 4 ∧ onIn (.blkC 1 []) .dData 8 0 ∧ onIn (.eos 7) .dUlen 0 4 ∧ onIn (.eos 7) .dEos 4 4 ∧
    onIn (.cksum 5) .dTrailer 0 4 := by
  refine ⟨?_, ?_, ?_, ?_, ?_, ?_, ?_, ?_, ?_, ?_, ?_⟩ <;> exact ⟨⟨rfl, rfl⟩, rfl, rfl, by decide, by decide, rfl⟩

/-- `SLEN = StageCap` with the two lengths equal and not equal. -/
theorem test_witness_StepRunsTheRecordInRegisters :
    (enc .eHdr).quiet ∧ (enc .eHdr).phase = .eHdr ∧ (enc .eEos).phase = .eEos ∧ (enc .eTrailer).phase = .eTrailer ∧
    (let s := { dec .dBlock with ulen := 1155, slen := 1155 };
      s.quiet ∧ s.phase = .dBlock ∧ s.slen.toNat ≤ stageCapOf s.blockSize.toNat ∧ s.slen = s.ulen) ∧
    (let s := { dec .dBlock with ulen := 1156, slen := 1155 };
      s.quiet ∧ s.phase = .dBlock ∧ s.slen.toNat ≤ stageCapOf s.blockSize.toNat ∧ s.slen ≠ s.ulen) := by decide

theorem test_witness_RecordsOutOfPositionStop :
    State.reset.phase ∉ [.eHdr, .dMagic, .dHdr, .dAlloc] ∧ State.reset.phase ∉ [.eBlock, .dUlen, .dSlen, .dData, .dBlock] ∧
    State.reset.phase ∉ [.eEos, .dUlen, .dEos] ∧ State.reset.phase ∉ [.eTrailer, .dTrailer] ∧
    (dec .dData).phase = .dData ∧
    stageCapOf (dec .dData).blockSize.toNat < (List.replicate 1156 (0 : Byte)).length := by
  refine ⟨by decide, by decide, by decide, by decide, rfl, ?_⟩
  rw [List.length_replicate]; decide

/-! ## Hypotheses met: commands -/

/-- Accepted at both ends of the block sizes every framer takes; refused for a level and for size 0. -/
theorem test_witness_EncodeCommandAcceptedIffAllowed :
    State.reset.busy = false ∧ ((1 : Byte) = levelFast ∨ (1 : Byte) = levelBest) ∧
    ((9 : Byte) = levelFast ∨ (9 : Byte) = levelBest) ∧ 1 ≤ (1 : Word).toNat ∧ (8912963 : Word).toNat ≤ physStage ∧
    ¬((2 : Byte) = levelFast ∨ (2 : Byte) = levelBest) ∧ ¬1 ≤ (0 : Word).toNat := by
  refine ⟨rfl, by decide, by decide, by decide, ?_, by decide, by decide⟩
  exact (fitsPhysStage_iff 8912963).mp (by decide)

theorem test_witness_DecodeCommandAccepted : State.busy (dec .done) = false ∧ State.busy (dec .failed) = false := by decide

/-- Each refusal; the last only on a framer whose memory is smaller than the greatest block size. -/
theorem test_witness_RefusedCommandReportsFirstCause :
    State.reset.busy = false ∧ cmdOp 0x030100000400 ≠ 0x02 ∧ cmdOp 0x030100000400 ≠ 0x01 ∧
    (cmdOp 0x010200000400 ≠ 0x02 ∧ levelAllowed (cmdLevel 0x010200000400) = false) ∧
    (cmdOp 0x010100000000 ≠ 0x02 ∧ cmdBlockSize 0x010100000000 = 0) ∧
    (physStage < 4294967295 → physStage < (cmdBlockSize 0x0101FFFFFFFF).toNat) := by
  refine ⟨rfl, by decide, by decide, by decide, by decide, ?_⟩
  intro h
  have : (cmdBlockSize 0x0101FFFFFFFF).toNat = 4294967295 := by decide
  omega

theorem test_witness_CommandWhileBusyIgnored :
    State.busy { enc .eRead with cmd := some 0x020000000000 } = true ∧
    State.busy { dec .dTrailer with cmd := some 0x030000000000 } = true := by decide

/-! ## Hypotheses met: the accumulator and the codec -/

theorem test_witness_AccumulatorInitialised :
    (enc .eInit).quiet ∧ (enc .eInit).phase = .eInit ∧ (enc .done).busy = false := by decide

theorem test_witness_FinalAndCompareOnlyReturn :
    (0x024D0127 : Word) = ckFinal 0x024D0127 ∧ (0x024D0126 : Word) ≠ ckFinal 0x024D0127 := by decide

/-- The least, the initial and the greatest legal accumulator. -/
theorem test_witness_ChecksumStepIsAdler : ckLegal 0 ∧ ckLegal ckInit ∧ ckLegal 0xFFF0FFF0 := by decide

theorem test_witness_CodecCallsReturnTheAnswer :
    (enc .eBlock).codec.compress.lookup (1, [0x61]) = some [] ∧
    codecDecompress (dec .dBlock).codec [0xAA] 2 = some [0x41, 0x41] ∧
    codecDecompress (dec .dBlock).codec [0xAB] 2 = none ∧
    (dec .dBlock).codec.decompress.lookup ([0xAB], 2) = some none := by decide

/-! ## Hypotheses met: Encode -/

/-- The three answers of OUT that the statements about emission tell apart. -/
theorem test_witness_HeaderEmitted :
    (enc .eHdr).quiet ∧ (enc .eHdr).phase = .eHdr ∧ (enc .eHdr).outReady = true ∧
    State.outReady { enc .eHdr with outAns := [.ok] } = true ∧
    State.outAns { enc .eHdr with outAns := [.fail 0] } = [.fail 0] := by decide

theorem test_witness_EncodeInitialisesAccumulator : (enc .eInit).quiet ∧ (enc .eInit).phase = .eInit := by decide

/-- A block size of 1 and 3: a full block, a short one, the end, a failure before the block is full. -/
theorem test_witness_EncodeReadsBlocks :
    (let s := fed { enc .eRead with blockSize := 1 } [0x61, 0x62];
      s.quiet ∧ s.phase = .eRead ∧ 1 ≤ s.blockSize.toNat ∧ ([0x61] : Bytes).length = s.blockSize.toNat ∧
      s.inp = ([0x61] : Bytes).map .byte ++ [.byte 0x62]) ∧
    (let s := fed { enc .eRead with blockSize := 3 } [0x61, 0x62];
      s.quiet ∧ s.phase = .eRead ∧ 0 < ([0x61, 0x62] : Bytes).length ∧
      ([0x61, 0x62] : Bytes).length < s.blockSize.toNat ∧ s.inp = ([0x61, 0x62] : Bytes).map .byte) ∧
    (enc .eRead).inp = [] ∧
    (let s := { enc .eRead with blockSize := 1, inp := [.fail] };
      s.quiet ∧ s.phase = .eRead ∧ ([] : Bytes).length < s.blockSize.toNat ∧
      s.inp = ([] : Bytes).map .byte ++ .fail :: []) := by decide

/-- An answer of one byte more than the block, a tie, and an empty one (V-E1, V-E4, V-E6 in small). -/
theorem test_witness_EncodeBlockStep :
    (let s := { enc .eBlock with ulen := 2, stage := [(0, 0x41), (1, 0x41)] };
      s.quiet ∧ s.phase = .eBlock ∧ s.ulen.toNat ≤ s.blockSize.toNat ∧ s.outReady = true ∧
      (codecCompress s.codec s.level (s.stage.bytesAt 0 s.ulen.toNat)).length ≤ s.ulen.toNat) ∧
    (let s := { enc .eBlock with ulen := 3, stage := [(0, 0x61), (1, 0x62), (2, 0x63)] };
      s.quiet ∧ s.outReady = true ∧ s.ulen.toNat ≤ s.blockSize.toNat ∧
      s.ulen.toNat < (codecCompress s.codec s.level (s.stage.bytesAt 0 s.ulen.toNat)).length) ∧
    (let s := { enc .eBlock with blockSize := 1, ulen := 1, stage := [(0, 0x61)] };
      s.ulen.toNat ≤ s.blockSize.toNat ∧
      (codecCompress s.codec s.level (s.stage.bytesAt 0 s.ulen.toNat)).length ≤ s.ulen.toNat) := by decide

theorem test_witness_EncodeBlockWriteFailure :
    let s := { enc .eBlock with ulen := 1024, outAns := [.fail 3] }
    s.quiet ∧ s.phase = .eBlock ∧ s.ulen.toNat ≤ s.blockSize.toNat ∧ s.outAns = .fail 3 :: [] := by decide

theorem test_witness_StoredBlockEmitted :
    (enc .eBlock).phase = .eBlock ∧ (enc .eBlock).outReady = true ∧
    State.outAns { enc .eBlock with outAns := [.fail 8] } = .fail 8 :: [] := by decide

theorem test_witness_CompressedBlockEmitted :
    (enc .eBlock).phase = .eBlock ∧ State.outReady { enc .eBlock with outAns := [.ok, .stall] } = true ∧
    State.outAns { enc .eBlock with outAns := [.fail 0] } = .fail 0 :: [] := by decide

theorem test_witness_EmittedBlockLengthsInRange :
    let s := { enc .eBlock with ulen := 1, stage := [(0, 0x61)] }
    s.quiet ∧ s.phase = .eBlock ∧ 1 ≤ s.ulen.toNat ∧ s.ulen.toNat ≤ s.blockSize.toNat ∧
    ∃ t, step s = .next t ∧ t.phase = .eRead :=
  ⟨⟨rfl, rfl⟩, rfl, by decide, by decide, _, rfl, rfl⟩

theorem test_witness_EosEmitted :
    (enc .eEos).quiet ∧ (enc .eEos).phase = .eEos ∧ (enc .eEos).outReady = true ∧
    State.outAns { enc .eEos with outAns := [.fail 7] } = .fail 7 :: [] := by decide

theorem test_witness_ChecksumEmitted :
    (enc .eTrailer).quiet ∧ (enc .eTrailer).phase = .eTrailer ∧ (enc .eTrailer).outReady = true ∧
    State.outAns { enc .eTrailer with outAns := [.fail 3] } = .fail 3 :: [] := by decide

/-! ## Hypotheses met: Decode -/

theorem test_witness_MagicCompared :
    (let s := fed (dec .dMagic) headerBytes;
      s.quiet ∧ s.phase = .dMagic ∧ (headerBytes.take 7).length = 7 ∧
      s.inp = (headerBytes.take 7).map .byte ++ (headerBytes.drop 7).map .byte ∧
      headerBytes.take 7 = [0x00, 0xE9, 0x4C, 0x5A, 0x4F, 0xFF, 0x1A]) ∧
    ([0x80, 0xE9, 0x4C, 0x5A, 0x4F, 0xFF, 0x1A] : Bytes) ≠ [0x00, 0xE9, 0x4C, 0x5A, 0x4F, 0xFF, 0x1A] ∧
    (let s := fed (dec .dMagic) (headerBytes.take 6);
      s.quiet ∧ s.phase = .dMagic ∧ (headerBytes.take 6).length < 7 ∧ s.inp = (headerBytes.take 6).map .byte) ∧
    (let s := { dec .dMagic with inp := [.fail] };
      s.quiet ∧ s.phase = .dMagic ∧ ([] : Bytes).length < 7 ∧ s.inp = ([] : Bytes).map .byte ++ .fail :: []) := by decide

/-- V-H4, V-H5, V-H7, V-H8: the ends of the range. -/
theorem test_witness_HeaderConsumed :
    (let s := fed (dec .dHdr) (headerBytes.drop 7);
      s.quiet ∧ s.phase = .dHdr ∧ (headerBytes.drop 7).length = 10 ∧ s.inp = (headerBytes.drop 7).map .byte ++ []) ∧
    (let s := fed (dec .dHdr) (headerBytes.drop 8);
      s.phase = .dHdr ∧ (headerBytes.drop 8).length < 10 ∧ s.inp = (headerBytes.drop 8).map .byte) ∧
    (let s := { dec .dHdr with inp := [.fail] };
      s.phase = .dHdr ∧ ([] : Bytes).length < 10 ∧ s.inp = ([] : Bytes).map .byte ++ .fail :: []) ∧
    1024 ≤ (1024 : Word).toNat ∧ (8388608 : Word).toNat ≤ 8388608 ∧ (2 : Byte) ≠ 1 ∧
    ((1023 : Word).toNat < 1024 ∨ 8388608 < (1023 : Word).toNat) ∧
    ((8388609 : Word).toNat < 1024 ∨ 8388608 < (8388609 : Word).toNat) := by decide

theorem test_witness_StagingBufferSized :
    (dec .dMagic).phase = .dMagic ∧ (dec .dAlloc).phase = .dAlloc ∧ (dec .dAlloc).quiet := by decide

theorem test_witness_UncompressedLengthRead :
    (let s := fed (dec .dUlen) [0, 0, 0, 0, 9];
      s.quiet ∧ s.phase = .dUlen ∧ s.inp = ([0, 0, 0, 0] : Bytes).map .byte ++ [.byte 9]) ∧
    unbe32 [0, 0, 0, 0] = 0 ∧ unbe32 [0, 0, 0, 1] ≠ 0 ∧
    (let s := fed (dec .dUlen) [0, 0, 0];
      s.phase = .dUlen ∧ ([0, 0, 0] : Bytes).length < 4 ∧ s.inp = ([0, 0, 0] : Bytes).map .byte) ∧
    (let s := { dec .dUlen with inp := [.byte 1, .fail] };
      s.phase = .dUlen ∧ ([1] : Bytes).length < 4 ∧ s.inp = ([1] : Bytes).map .byte ++ .fail :: []) := by decide

/-- V-D9 and V-D8: StageCap and one more. -/
theorem test_witness_StoredLengthRead :
    (let s := fed (dec .dSlen) [0, 0, 4, 0x83];
      s.quiet ∧ s.phase = .dSlen ∧ s.inp = ([0, 0, 4, 0x83] : Bytes).map .byte ++ [] ∧
      (unbe32 [0, 0, 4, 0x83]).toNat ≤ stageCapOf s.blockSize.toNat) ∧
    stageCapOf (dec .dSlen).blockSize.toNat < (unbe32 [0, 0, 4, 0x84]).toNat := by decide

theorem test_witness_StoredBytesRead :
    (let s := fed { dec .dData with slen := 1 } [0x61, 0x62];
      s.quiet ∧ s.phase = .dData ∧ s.slen.toNat ≤ stageCapOf s.blockSize.toNat ∧ ([0x61] : Bytes).length = s.slen.toNat ∧
      s.inp = ([0x61] : Bytes).map .byte ++ [.byte 0x62]) ∧
    (let s := fed { dec .dData with slen := 1155 } [0x61];
      s.slen.toNat ≤ stageCapOf s.blockSize.toNat ∧ ([0x61] : Bytes).length < s.slen.toNat ∧
      s.inp = ([0x61] : Bytes).map .byte) ∧
    (let s := { dec .dData with slen := 1, inp := [.fail, .byte 1] };
      ([] : Bytes).length < s.slen.toNat ∧ s.inp = ([] : Bytes).map .byte ++ .fail :: [.byte 1]) := by decide

theorem test_witness_StoredBlockConsumed :
    (dec .dBlock).phase = .dBlock ∧ 0 < ([0x61] : Bytes).length ∧ (dec .dBlock).outReady = true ∧
    State.outAns { dec .dBlock with outAns := [.fail 1] } = .fail 1 :: [] := by decide

theorem test_witness_CompressedBlockConsumed :
    (dec .dBlock).phase = .dBlock ∧ (2 : Word) ≠ 0 ∧ codecDecompress (dec .dBlock).codec [0xAB] 2 = none ∧
    codecDecompress (dec .dBlock).codec [0xAC] 2 = some [0x41] ∧ ([0x41] : Bytes).length ≠ (2 : Word).toNat ∧
    codecDecompress (dec .dBlock).codec [0xAA] 2 = some [0x41, 0x41] ∧
    ([0x41, 0x41] : Bytes).length = (2 : Word).toNat ∧ (dec .dBlock).outReady = true ∧
    State.outAns { dec .dBlock with outAns := [.fail 1] } = .fail 1 :: [] := by decide

theorem test_witness_EosConsumed : (dec .dEos).phase = .dEos ∧ (dec .dUlen).phase = .dUlen := by decide

theorem test_witness_TrailerChecked :
    (let s := { dec .dTrailer with flags := 0xFFFFFFFE };
      s.quiet ∧ s.phase = .dTrailer ∧ s.flags.getLsbD 0 = false) ∧
    (let s := fed { dec .dTrailer with flags := 0xFFFFFFFF } [0, 0, 0, 1];
      s.quiet ∧ s.phase = .dTrailer ∧ s.flags.getLsbD 0 = true ∧ s.inp = ([0, 0, 0, 1] : Bytes).map .byte ++ [] ∧
      (1 : Word) = ckFinal s.ckacc ∧ (0 : Word) ≠ ckFinal s.ckacc) ∧
    (let s := fed (dec .dTrailer) [0, 0, 0];
      s.quiet ∧ s.phase = .dTrailer ∧ s.flags.getLsbD 0 = true ∧ ([0, 0, 0] : Bytes).length < 4 ∧
      s.inp = ([0, 0, 0] : Bytes).map .byte) ∧
    (let s := { dec .dTrailer with inp := [.fail] };
      s.flags.getLsbD 0 = true ∧ ([] : Bytes).length < 4 ∧ s.inp = ([] : Bytes).map .byte ++ .fail :: []) := by decide

/-- At every Decode phase that reads, none of the bytes there, and one byte short at `D_DATA`. -/
theorem test_witness_EndOfInputRaises :
    (dec .dMagic).portCall = .read 7 ∧ (dec .dHdr).portCall = .read 10 ∧ (dec .dUlen).portCall = .read 4 ∧
    (dec .dSlen).portCall = .read 4 ∧ (dec .dEos).portCall = .read 4 ∧ (dec .dTrailer).portCall = .read 4 ∧
    (let s := fed { dec .dData with slen := 2 } [0x61];
      s.quiet ∧ s.portCall = .read 2 ∧ s.phase ≠ .eRead ∧ ([0x61] : Bytes).length < 2 ∧
      s.inp = ([0x61] : Bytes).map .byte) ∧
    (let s := { dec .dEos with inp := [.byte 1, .fail] };
      s.quiet ∧ s.portCall = .read 4 ∧ s.inp = ([1] : Bytes).map .byte ++ .fail :: []) := by decide

/-! ## Hypotheses met: status, errors, reset, the host -/

theorem test_witness_AbortKeepsTheRegisters :
    (let s := fed (dec .dMagic) [1, 2, 3, 4, 5, 6, 7];
      s.quiet ∧ s.busy = true ∧ ∃ t, step s = .next t ∧ t.phase = .failed) ∧
    (let s := { enc .eEos with outAns := [.fail 0] };
      s.quiet ∧ s.busy = true ∧ ∃ t, step s = .next t ∧ t.phase = .failed) :=
  ⟨⟨⟨rfl, rfl⟩, rfl, _, rfl, rfl⟩, ⟨⟨rfl, rfl⟩, rfl, _, rfl, rfl⟩⟩

theorem test_witness_WaitingChangesNothing :
    (dec .failed).quiet ∧ (dec .failed).busy = false ∧ (dec .done).busy = false ∧ State.reset.busy = false ∧
    (let s := { dec .dUlen with inp := [.byte 1, .stall] };
      s.portCall = .read 4 ∧ ([1] : Bytes).length < 4 ∧ s.inp = ([1] : Bytes).map .byte ++ .stall :: []) ∧
    (let s := { enc .eTrailer with outAns := [.stall] };
      s.portCall = .write [0, 0, 0, 1] ∧ s.outStalled = true) := by decide

theorem test_witness_ResetEndsTheOperation :
    (let s := { enc .eEos with host := [.reset 5] };
      s.cmd = none ∧ s.host = .reset 5 :: [] ∧ s.portCall = .write [0, 0, 0, 0, 0, 0, 0, 0]) ∧
    (let s := { dec .dEos with host := [.reset 4] };
      s.cmd = none ∧ s.host = .reset 4 :: [] ∧ s.portCall = .read 4) ∧
    (let s := { dec .done with host := [.reset 0] };
      s.cmd = none ∧ s.host = .reset 0 :: [] ∧ s.busy = false) := by decide

theorem test_witness_HostReadsWithoutSideEffect :
    (let s := { dec .done with host := [.read .ckacc] };
      s.cmd = none ∧ s.host = .read .ckacc :: [] ∧ s.busy = false) ∧
    (let s := { dec .dUlen with host := [.read .ckacc] };
      s.cmd = none ∧ s.host = .read .ckacc :: [] ∧ s.busy = true) ∧
    (enc .eHdr).mode = .encode ∧ (dec .dHdr).mode = .decode ∧ State.reset.mode = .none := by decide

/-! ## Hypotheses met: the machine as a whole -/

/-- A busy state that meets the invariant: Encode just accepted. -/
theorem test_inv_of_accepted : State.Inv { enc .eHdr with stage := [(0, 1), (1023, 2)] } where
  stageWf := by decide
  stageBuilt := by
    have : 1024 ≤ physStage := (fitsPhysStage_iff 1024).mp (by decide)
    intro c hc
    simp only [List.mem_cons, List.not_mem_nil, or_false] at hc
    rcases hc with rfl | rfl <;> simp only <;> omega
  mode := rfl
  failed := by decide
  cause := by simp [enc, State.reset]
  checked := by simp [enc, State.reset]
  decoded := by simp [enc]
  registers := ⟨rfl, by decide, (fitsPhysStage_iff 1024).mp (by decide)⟩
  accumulator := by simp [enc, Phase.accumulating]

theorem test_witness_StepKeepsTheInvariant :
    ∃ s t : State, s.Inv ∧ step s = .next t ∧ t.phase = .eInit := ⟨_, _, test_inv_of_accepted, rfl, rfl⟩

theorem test_witness_NoStepStops : ∃ s : State, s.Inv ∧ s.busy = true := ⟨_, test_inv_of_accepted, rfl⟩

/-- A step that changes FLAGS, and one that changes LEVEL. -/
theorem test_witness_HeaderRegistersImmutable :
    (let s := { enc .eHdr with flags := 0 };
      s.resetNext = false ∧ ∃ t, step s = .next t ∧ t.flags ≠ s.flags) ∧
    (let s := { State.reset with cmd := some 0x010100000400 };
      s.resetNext = false ∧ ∃ t, step s = .next t ∧ t.level ≠ s.level) :=
  ⟨⟨rfl, _, rfl, by decide⟩, ⟨rfl, _, rfl, by decide⟩⟩

theorem test_witness_PortsNeverRolledBack :
    (∃ t, step (dec .dUlen) = .next t) ∧ (dec .dUlen).attachOutNext = false ∧ (dec .dUlen).driveInNext = false :=
  ⟨⟨_, rfl⟩, rfl, rfl⟩

theorem test_witness_OnlyReadStepsWriteStage :
    (dec .dEos).resetNext = false ∧ (∃ t, step (dec .dEos) = .next t) ∧ (dec .dEos).phase ≠ .eRead ∧
    (dec .dEos).phase ≠ .dData := ⟨rfl, ⟨_, rfl⟩, by decide, by decide⟩

theorem test_witness_ModeWrittenOnlyByCommands :
    let s := { State.reset with cmd := some 0x020000000000 }
    s.resetNext = false ∧ ∃ t, step s = .next t ∧ t.mode ≠ s.mode := ⟨rfl, _, rfl, by decide⟩

theorem test_witness_CheckedOnlyByAMatchingTrailer :
    let s := fed (dec .dTrailer) [0, 0, 0, 1]
    s.ckchk = false ∧ ∃ t, step s = .next t ∧ t.ckchk = true := ⟨rfl, _, rfl, rfl⟩

/-- Each of the four writes: E_INIT, an accepted DECODE, E_BLOCK, D_BLOCK. -/
theorem test_witness_AccumulatorWrittenOnlyByItsOperations :
    (let s := { enc .eInit with ckacc := 5 };
      s.resetNext = false ∧ ∃ t, step s = .next t ∧ t.ckacc ≠ s.ckacc) ∧
    (let s := { dec .done with ckacc := 5, cmd := some 0x020000000000 };
      s.resetNext = false ∧ ∃ t, step s = .next t ∧ t.ckacc ≠ s.ckacc) ∧
    (let s := { enc .eBlock with ulen := 1, stage := [(0, 0x61)] };
      s.resetNext = false ∧ ∃ t, step s = .next t ∧ t.ckacc ≠ s.ckacc) ∧
    (let s := { dec .dBlock with ulen := 1, slen := 1, stage := [(0, 0x61)] };
      s.resetNext = false ∧ ∃ t, step s = .next t ∧ t.ckacc ≠ s.ckacc) := by
  refine ⟨⟨rfl, _, rfl, ?_⟩, ⟨rfl, _, rfl, ?_⟩, ⟨rfl, _, rfl, ?_⟩, ⟨rfl, _, rfl, ?_⟩⟩ <;> decide

/-- P2 in small: three bytes in blocks of 1024, and the empty input. -/
theorem test_witness_EncodeWritesTheContainer :
    (let s := { fed State.reset [0x61, 0x62, 0x63] with cmd := some (encodeCommand 0x01 1 1024) };
      s.busy = false ∧ s.host = [] ∧ s.inCarries [0x61, 0x62, 0x63] ∧ s.outWellBehaved) ∧
    ((1 : Byte) = levelFast ∨ (1 : Byte) = levelBest) ∧ 1 ≤ (1024 : Word).toNat ∧ (1024 : Word).toNat ≤ physStage := by
  refine ⟨⟨rfl, rfl, rfl, rfl⟩, by decide, by decide, (fitsPhysStage_iff 1024).mp (by decide)⟩

theorem test_witness_DecodeComputesTheStream :
    let s := { fed State.reset headerBytes with cmd := some 0x0277DEADBEEF }
    s.busy = false ∧ s.host = [] ∧ s.cmd = some 0x0277DEADBEEF ∧ cmdOp 0x0277DEADBEEF = 0x02 ∧
    s.inCarries headerBytes ∧ s.outWellBehaved := by decide

/-- A codec that gives every block of the data back: one block kept stored, one harmless tie. -/
def giveBack : Codec :=
  ⟨[((1, [0x61, 0x62, 0x63]), [1, 2, 3, 4, 5, 6, 7]), ((1, [0x41]), [0x41])],
    [(([1, 2, 3, 4, 5, 6, 7], 3), some [0x61, 0x62, 0x63]), (([0x41], 1), some [0x41])]⟩

/-- The premises of DecodeOfEncodedContainer on a block size and data. -/
def givesBack (B : Word) (X : Bytes) : Prop :=
  (∀ Y ∈ pieces B.toNat X, giveBack.givesBack 1 Y) ∧ noTie giveBack 1 B X

theorem test_witness_DecodeOfEncodedContainer :
    (let s := { fed State.reset (container giveBack 1 1024 [0x61, 0x62, 0x63] ++ [0x99]) with
        cmd := some 0x020000000000, codec := giveBack };
      s.busy = false ∧ s.host = [] ∧ s.cmd = some 0x020000000000 ∧ cmdOp 0x020000000000 = 0x02 ∧
      s.inCarries (container s.codec 1 1024 [0x61, 0x62, 0x63] ++ [0x99]) ∧ s.outWellBehaved) ∧
    1024 ≤ (1024 : Word).toNat ∧ (8388608 : Word).toNat ≤ 8388608 ∧
    givesBack 1024 [0x61, 0x62, 0x63] ∧ givesBack 8388608 [0x41] ∧ givesBack 1024 [] := by
  refine ⟨⟨rfl, rfl, rfl, by decide, rfl, rfl⟩, by decide, by decide, ?_, ?_, ?_⟩ <;> unfold givesBack <;> decide

theorem test_witness_OperationIndependentOfThePast :
    let s := { State.reset with cmd := some 0x010100000400 }
    let t := { dec .failed with
      cmd := some 0x010100000400, err := some .formatBadMagic, stage := [(3, 4)], codec := ⟨[], []⟩ }
    s.busy = false ∧ t.busy = false ∧ s.cmd = some 0x010100000400 ∧ t.cmd = some 0x010100000400 ∧ s.host = [] ∧
    t.host = [] ∧ s.inp = t.inp ∧ s.out = t.out ∧ s.outAns = t.outAns ∧ s.codec = t.codec ∧
    (∃ u, Host.Core.run core 1 s = .next u) ∧ ∃ v, Host.Core.run core 1 t = .next v :=
  ⟨rfl, rfl, rfl, rfl, rfl, rfl, rfl, rfl, rfl, rfl, ⟨_, rfl⟩, ⟨_, rfl⟩⟩

end Sys2Proof.Tests
end

section
/-! PROOF. What a step does, sorted by who acts: the layer the statements about all steps (10_state.md) stand on. -/

namespace Sys2Proof.Machine

/-! ## What a step does to the framer -/

/-- The framer's own registers and STAGE are the same: only S11, the ports and the host's own fields may differ. -/
def sameFramer (s t : State) : Prop :=
  t = { s with
    cmd := t.cmd, inp := t.inp, out := t.out, outAns := t.outAns, codec := t.codec, host := t.host
    hostData := t.hostData, draws := t.draws }

theorem sameFramer_hostRead (r : ReadReg) (s : State) : sameFramer s (hostRead r s) := by
  unfold hostRead; split <;> rfl

/-- A step is the framer's own, takes a command, is a reset, or leaves the framer as it is. -/
theorem step_effect {s t : State} (h : step s = .next t) :
    (∃ l, s.cmd = none ∧ PhaseNext { s with host := l } t) ∨
    (s.cmd.isSome = true ∧ s.busy = false ∧
      ((∃ c, causeFits c .none = true ∧ t = State.refuse c { s with cmd := none }) ∨
        (∃ lv bs, encodeRefusal lv bs = none ∧
          t = { State.accept .encode .eHdr { s with cmd := none } with level := lv, blockSize := bs }) ∨
        ((∃ w, s.cmd = some w ∧ cmdOp w = 0x02) ∧
          t = (State.accept .decode .dMagic { s with cmd := none }).ckReset))) ∨
    (s.resetNext = true ∧ ∃ cut l, t = State.resetWith cut { s with host := l }) ∨
    sameFramer s t := by
  cases step_next h with
  | own _ hq hn => exact .inl ⟨s.host, hq.1, hn⟩
  | ownMoved l _ hc _ hn => exact .inl ⟨l, hc, hn⟩
  | refused c hs hb hc => exact .inr (.inl ⟨hs, hb, .inl ⟨c, hc, rfl⟩⟩)
  | encode w hw hb _ hr => exact .inr (.inl ⟨by rw [hw]; rfl, hb, .inr (.inl ⟨_, _, hr, rfl⟩)⟩)
  | decode w hw hb ho => exact .inr (.inl ⟨by rw [hw]; rfl, hb, .inr (.inr ⟨⟨w, hw, ho⟩, rfl⟩)⟩)
  | reset cut l hc hh => exact .inr (.inr (.inl ⟨by simp [State.resetNext, hc, hh], cut, l, rfl⟩))
  | read r l => exact .inr (.inr (.inr (sameFramer_hostRead r { s with host := l })))
  | lost | written | driveIn | driveOut | attachOut => exact .inr (.inr (.inr rfl))

/-! ## The accumulator's range (R157) -/

theorem ckLegal_ckInit : ckLegal ckInit := by decide

/-- The one-byte step always gives a legal value, whatever it starts from. -/
theorem ckLegal_ckStep (w : Word) (x : Byte) : ckLegal (ckStep w x) := by
  have split (b : Nat) {a : Nat} (ha : a < 65536) : (b * 65536 + a) % 65536 = a ∧ (b * 65536 + a) / 65536 = b := by
    omega
  have lt (n : Nat) : n % 65521 < 65521 := Nat.mod_lt n (by decide)
  obtain ⟨hlow, hhigh⟩ := split ((w.toNat / 65536 + (w.toNat % 65536 + x.toNat) % 65521) % 65521)
    (Nat.lt_trans (lt (w.toNat % 65536 + x.toNat)) (by decide))
  rw [ckLegal, ckStep_toNat, hlow, hhigh]
  exact ⟨lt _, lt _⟩

theorem ckLegal_ckUpdate {w : Word} (h : ckLegal w) (b : Bytes) : ckLegal (ckUpdate w b) := by
  induction b generalizing w with
  | nil => exact h
  | cons x b ih => rw [ckUpdate_cons]; exact ih (ckLegal_ckStep w x)

/-! ## Operands and the memory built -/

/-- What the checks on an ENCODE's operands let through (R132). -/
theorem encodeRefusal_none {lv : Byte} {bs : Word} (h : encodeRefusal lv bs = none) :
    levelAllowed lv = true ∧ 1 ≤ bs.toNat ∧ bs.toNat ≤ physStage := by
  unfold encodeRefusal at h
  split at h
  case isTrue => cases h
  case isFalse hl =>
    split at h
    case isTrue => cases h
    case isFalse h0 =>
      split at h
      case isTrue => cases h
      case isFalse hf =>
        have : bs.toNat ≠ 0 := fun h => h0 (BitVec.eq_of_toNat_eq h)
        exact ⟨by simpa using hl, by omega, (fitsPhysStage_iff bs).mp (by simpa using hf)⟩

/-- The staging capacity of a Decode whose header was accepted is built (R40, R42). -/
theorem stageCapOf_le_physStage {bs : Nat} (h : bs ≤ bsMax) : stageCapOf bs ≤ physStage := by
  have : physStageMin ≤ physStage := Nat.le_add_right _ _
  simp only [physStageMin, stageCapOf_eq] at this ⊢
  omega

/-- A write below `physStage` stays in the memory built. -/
theorem Memory.write_built {m : Memory} (h : ∀ c ∈ m, c.1 < physStage) {b : Bytes} (hb : b.length ≤ physStage) :
    ∀ c ∈ m.write 0 b, c.1 < physStage := by
  intro c hc
  rcases Memory.write_addr hc with hc | hc
  · exact h c hc
  · omega

/-! ## The invariant, by the kind of the next state -/

theorem State.busy_eq_true_iff (s : State) :
    s.busy = true ↔ s.phase ≠ .idle ∧ s.phase ≠ .done ∧ s.phase ≠ .failed := by
  unfold State.busy; split <;> simp_all

/-- The invariant speaks of the framer alone. -/
theorem State.Inv.of_sameFramer {s t : State} (h : s.Inv) (he : sameFramer s t) : t.Inv := by
  rw [he]
  exact ⟨h.stageWf, h.stageBuilt, h.mode, h.failed, h.cause, h.checked, h.decoded, h.registers, h.accumulator⟩

/-- A busy framer has no error and is not checked. -/
theorem State.Inv.clear_of_busy {s : State} (h : s.Inv) (hb : s.busy = true) : s.err = none ∧ s.ckchk = false := by
  obtain ⟨-, hd, hf⟩ := s.busy_eq_true_iff.mp hb
  refine ⟨by simpa using mt h.failed.mp hf, ?_⟩
  by_contra hc
  exact hd (h.checked (by simpa using hc)).1

/-- A FAILED state with an error of its mode meets the invariant: its registers are free. -/
theorem inv_of_failed {t : State} {c : Cause} (hp : t.phase = .failed) (he : t.err = some c)
    (hc : causeFits c t.mode = true) (hk : t.ckchk = false) (hw : t.stage.wf)
    (hb : ∀ x ∈ t.stage, x.1 < physStage) : t.Inv where
  stageWf := hw
  stageBuilt := hb
  mode := by rw [hp]; rfl
  failed := by simp [hp, he]
  cause := by simp [he, hc]
  checked := by simp [hk]
  decoded := by simp [hp]
  registers := by unfold State.registersFit; rw [hp]; trivial
  accumulator := by simp [hp, Phase.accumulating]

/-- A busy state meets the invariant when its mode, memory, registers and accumulator do. -/
theorem inv_of_busy {t : State} (hb : t.busy = true) (hc : t.err = none ∧ t.ckchk = false)
    (hw : t.stage.wf) (hs : ∀ x ∈ t.stage, x.1 < physStage) (hm : modeFits t.mode t.phase = true)
    (hr : t.registersFit) (ha : t.phase.accumulating = true → ckLegal t.ckacc) : t.Inv := by
  obtain ⟨-, hd, hf⟩ := t.busy_eq_true_iff.mp hb
  exact ⟨hw, hs, hm, by simp [hc.1, hf], by simp [hc.1], by simp [hc.2], fun h => absurd h hd, hr, ha⟩

end Sys2Proof.Machine
end

section
/-! PROOF. Every step keeps the invariant, from the rule for each next state of the framer's own step. -/

namespace Sys2Proof.Machine

/-! ## The invariant before a step, with the phase written in so that its clauses reduce -/

theorem State.Inv.at_phase {s : State} {p : Phase} (h : s.Inv) (hp : s.phase = p) : (s.goto p).Inv := by
  subst hp; exact h

theorem State.Inv.busy_clear {s : State} {p : Phase} (h : s.Inv) (hp : s.phase = p) (hb : (s.goto p).busy = true) :
    s.err = none ∧ s.ckchk = false :=
  (h.at_phase hp).clear_of_busy hb

/-- The one mode of a phase. -/
theorem State.Inv.mode_eq {s : State} {p : Phase} {m : Mode} (h : s.Inv) (hp : s.phase = p)
    (hm : modeFits s.mode p = (s.mode == m)) : s.mode = m := by
  have := h.mode
  rw [hp, hm] at this
  simpa using this

/-! ## The invariant after a step, by how the step ends -/

/-- A step of a busy framer that raises an error of its mode and leaves STAGE. -/
theorem State.Inv.raised {s t : State} {p : Phase} {c : Cause} (h : s.Inv) (hp : s.phase = p)
    (hb : (s.goto p).busy = true) (hc : causeFits c s.mode = true) (ht : t.phase = .failed ∧ t.err = some c)
    (hs : t.mode = s.mode ∧ t.ckchk = s.ckchk ∧ t.stage = s.stage) : t.Inv := by
  obtain ⟨hm, hk, hg⟩ := hs
  refine inv_of_failed ht.1 ht.2 (by rw [hm]; exact hc) (hk.trans (h.busy_clear hp hb).2) ?_ ?_ <;> rw [hg]
  · exact h.stageWf
  · exact h.stageBuilt

/-- A step of a busy framer that goes on to a busy phase of the same mode and leaves STAGE. -/
theorem State.Inv.advanced {s t : State} {p : Phase} (h : s.Inv) (hp : s.phase = p) (hb : (s.goto p).busy = true)
    (hb' : t.busy = true) (hs : t.mode = s.mode ∧ t.err = s.err ∧ t.ckchk = s.ckchk ∧ t.stage = s.stage)
    (hm : modeFits s.mode t.phase = modeFits s.mode p) (hr : (s.goto p).registersFit → t.registersFit)
    (ha : (p.accumulating = true → ckLegal s.ckacc) → t.phase.accumulating = true → ckLegal t.ckacc) : t.Inv := by
  have h' := h.at_phase hp
  obtain ⟨hmode, herr, hk, hg⟩ := hs
  obtain ⟨hse, hsk⟩ := h.busy_clear hp hb
  refine inv_of_busy hb' ⟨herr.trans hse, hk.trans hsk⟩ ?_ ?_ ?_ (hr h'.registers) (ha h'.accumulator)
  · rw [hg]; exact h.stageWf
  · rw [hg]; exact h.stageBuilt
  · rw [hmode, hm]; exact h'.mode

/-- A DONE state, in Encode or in Decode. -/
theorem inv_of_done {t : State} (hp : t.phase = .done) (he : t.err = none) (hw : t.stage.wf)
    (hs : ∀ x ∈ t.stage, x.1 < physStage) (hr : t.registersFit) (ha : ckLegal t.ckacc)
    (hm : (t.mode = .encode ∧ t.ckchk = false) ∨
      (t.mode = .decode ∧ t.ckchk = cksumFlag t.flags ∧ (t.ckchk = true → t.ckrx = ckFinal t.ckacc))) : t.Inv := by
  refine ⟨hw, hs, ?_, by simp [he, hp], by simp [he], ?_, ?_, hr, fun _ => ha⟩ <;>
    rcases hm with ⟨hm, hk⟩ | ⟨hm, hk, hx⟩
  · rw [hm, hp]; rfl
  · rw [hm, hp]; rfl
  · simp [hk]
  · exact fun h => ⟨hp, hm, hk.symm.trans h, hx h⟩
  · simp [hm]
  · exact fun _ _ => hk

/-! ## The framer's own step -/

theorem causeFits_of_headerRejection {m : Byte} {bs : Word} {c : Cause} (h : headerRejection m bs = some c) :
    causeFits c .decode = true := by
  unfold headerRejection at h
  split at h
  · cases h; rfl
  · split at h <;> cases h; rfl

/-- An error of a reading phase is one of the phase's mode. -/
theorem causeFits_of_readErrors {m : Mode} {p : Phase} {c : Cause} (hm : modeFits m p = true) (h : readErrors p c) :
    causeFits c m = true := by
  cases p <;> simp only [readErrors] at h <;> simp only [modeFits, beq_iff_eq] at hm <;> subst hm
  case eRead => subst h; rfl
  all_goals rcases h with rfl | rfl <;> rfl

theorem busy_of_readErrors {s : State} {c : Cause} (h : readErrors s.phase c) : s.busy = true := by
  rw [State.busy_eq_true_iff]
  refine ⟨?_, ?_, ?_⟩ <;> intro hp <;> rw [hp] at h <;> exact h

/-- The framer's own step keeps the invariant: it waits, raises, ends, or goes on with what its rule has written. -/
theorem PhaseNext.keeps_inv {s t : State} (hn : PhaseNext s t) (h : s.Inv) : t.Inv := by
  cases hn with
  | wait => exact h
  | readError c rest hc =>
    exact h.raised rfl (busy_of_readErrors hc) (causeFits_of_readErrors h.mode hc) ⟨rfl, rfl⟩ ⟨rfl, rfl, rfl⟩
  | eHdrFail n hp | eBlockFail v w hp | eEosFail n hp | eTrailerFail n hp =>
    exact h.raised hp rfl (by rw [h.mode_eq hp rfl]; rfl) ⟨rfl, rfl⟩ ⟨rfl, rfl, rfl⟩
  | dMagicBad rest hp | dSlenBad v rest hp | dBlockFail w hp | dTrailerBad v rest hp =>
    exact h.raised hp rfl (by rw [h.mode_eq hp rfl]; rfl) ⟨rfl, rfl⟩ ⟨rfl, rfl, rfl⟩
  | dHdrBad f m lv bs c rest hp _ hc =>
    exact h.raised hp rfl (by rw [h.mode_eq hp rfl]; exact causeFits_of_headerRejection hc) ⟨rfl, rfl⟩ ⟨rfl, rfl, rfl⟩
  | dBlockBad c hp hc =>
    exact h.raised hp rfl (by rw [h.mode_eq hp rfl]; rcases hc with rfl | rfl <;> rfl) ⟨rfl, rfl⟩ ⟨rfl, rfl, rfl⟩
  | eHdr hp => exact h.advanced hp rfl rfl ⟨rfl, rfl, rfl, rfl⟩ rfl (fun ho => ⟨ho, rfl, rfl⟩) fun _ => nofun
  | eInit hp => exact h.advanced hp rfl rfl ⟨rfl, rfl, rfl, rfl⟩ rfl id fun _ _ => ckLegal_ckInit
  | eReadBlock b rest hp hne hle =>
    obtain ⟨⟨hl, h1, hB⟩, hh⟩ := (h.at_phase hp).registers
    have hu : (BitVec.ofNat 32 b.length).toNat = b.length :=
      Nat.mod_eq_of_lt (Nat.lt_of_le_of_lt hle s.blockSize.isLt)
    exact inv_of_busy rfl (h.busy_clear hp rfl) (Memory.write_wf h.stageWf 0 b)
      (Memory.write_built h.stageBuilt (Nat.le_trans hle hB)) (h.at_phase hp).mode
      ⟨⟨hl, h1, hB⟩, hh, hu.symm ▸ List.length_pos_iff.mpr hne, hu.symm ▸ hle⟩ (h.at_phase hp).accumulator
  | eReadEnd rest hp => exact h.advanced hp rfl rfl ⟨rfl, rfl, rfl, rfl⟩ rfl id id
  | eBlock v w hp =>
    exact h.advanced hp rfl rfl ⟨rfl, rfl, rfl, rfl⟩ rfl (fun ⟨ho, hh, _, _⟩ => ⟨ho, hh⟩)
      fun ha _ => ckLegal_ckUpdate (ha rfl) _
  | eEos hp => exact h.advanced hp rfl rfl ⟨rfl, rfl, rfl, rfl⟩ rfl (fun ⟨ho, hh⟩ => ⟨ho, hh, rfl, rfl⟩) id
  | eTrailer hp =>
    obtain ⟨he, hk⟩ := h.busy_clear hp rfl
    have hm := h.mode_eq hp rfl
    refine inv_of_done rfl he h.stageWf h.stageBuilt ?_ ((h.at_phase hp).accumulator rfl) (.inl ⟨hm, hk⟩)
    simp only [State.registersFit, State.goto_phase, State.goto_mode, State.wrote_mode, hm]
    exact (h.at_phase hp).registers
  | dMagic rest hp => exact h.advanced hp rfl rfl ⟨rfl, rfl, rfl, rfl⟩ rfl id id
  | dHdr f m lv bs rest hp _ hm hlo hhi =>
    exact h.advanced hp rfl rfl ⟨rfl, rfl, rfl, rfl⟩ rfl (fun _ => ⟨hm, hlo, hhi⟩) id
  | dAlloc hp => exact h.advanced hp rfl rfl ⟨rfl, rfl, rfl, rfl⟩ rfl id id
  | dUlen u rest hp =>
    by_cases hu : u = 0
    · subst hu
      exact h.advanced hp rfl rfl ⟨rfl, rfl, rfl, rfl⟩ rfl (fun hr => ⟨hr, rfl⟩) id
    · rw [if_neg hu]
      exact h.advanced hp rfl rfl ⟨rfl, rfl, rfl, rfl⟩ rfl (fun hr => ⟨hr, hu⟩) id
  | dSlen v rest hp _ hv =>
    exact h.advanced hp rfl rfl ⟨rfl, rfl, rfl, rfl⟩ rfl (fun ⟨hr, hu⟩ => ⟨hr, hu, hv⟩) id
  | dData b rest hp _ hle =>
    have hr := (h.at_phase hp).registers
    have ⟨⟨_, _, hhi⟩, _⟩ := hr
    exact inv_of_busy rfl (h.busy_clear hp rfl) (Memory.write_wf h.stageWf 0 b)
      (Memory.write_built h.stageBuilt (Nat.le_trans hle (stageCapOf_le_physStage hhi))) (h.at_phase hp).mode hr
      (h.at_phase hp).accumulator
  | dBlock d hp =>
    exact h.advanced hp rfl rfl ⟨rfl, rfl, rfl, rfl⟩ rfl (fun ⟨hr, _, _⟩ => hr) fun ha _ => ckLegal_ckUpdate (ha rfl) d
  | dBlockEmpty hp => exact h.advanced hp rfl rfl ⟨rfl, rfl, rfl, rfl⟩ rfl (fun ⟨hr, _, _⟩ => hr) id
  | dEos v rest hp => exact h.advanced hp rfl rfl ⟨rfl, rfl, rfl, rfl⟩ rfl id id
  | dTrailerSkip hp hf =>
    obtain ⟨he, hk⟩ := h.busy_clear hp rfl
    have hm := h.mode_eq hp rfl
    refine inv_of_done rfl he h.stageWf h.stageBuilt ?_ ((h.at_phase hp).accumulator rfl)
      (.inr ⟨hm, hk.trans hf.symm, fun h => absurd (hk.symm.trans h) nofun⟩)
    simp only [State.registersFit, State.goto_phase, State.goto_mode, hm]
    exact (h.at_phase hp).registers
  | dTrailer v rest hp _ hf hv =>
    have hm := h.mode_eq hp rfl
    refine inv_of_done rfl (h.busy_clear hp rfl).1 h.stageWf h.stageBuilt ?_ ((h.at_phase hp).accumulator rfl)
      (.inr ⟨hm, hf.symm, fun _ => hv⟩)
    simp only [State.registersFit, hm]
    exact (h.at_phase hp).registers

/-! ## Commands and reset -/

theorem State.Inv.refused {s : State} {c : Cause} (h : s.Inv) (hc : causeFits c .none = true) : (s.refuse c).Inv :=
  inv_of_failed rfl rfl hc rfl h.stageWf h.stageBuilt

theorem State.Inv.encode_accepted {s : State} {lv : Byte} {bs : Word} (h : s.Inv) (hr : encodeRefusal lv bs = none) :
    State.Inv { s.accept .encode .eHdr with level := lv, blockSize := bs } :=
  inv_of_busy rfl ⟨rfl, rfl⟩ h.stageWf h.stageBuilt rfl (encodeRefusal_none hr) nofun

theorem State.Inv.decode_accepted {s : State} (h : s.Inv) : (s.accept .decode .dMagic).ckReset.Inv :=
  inv_of_busy rfl ⟨rfl, rfl⟩ h.stageWf h.stageBuilt rfl trivial fun _ => ckLegal_ckInit

/-- Settles O48: STAGE is empty there, and IDLE asks nothing of the other registers. -/
theorem resetMeetsTheInvariant : Obligations.ResetMeetsTheInvariant where
  stageWf := Memory.wf_nil
  stageBuilt := nofun
  mode := rfl
  failed := by decide
  cause := nofun
  checked := nofun
  decoded := nofun
  registers := trivial
  accumulator := nofun

/-- Settles O49, by the kinds of step. -/
theorem stepKeepsTheInvariant : Obligations.StepKeepsTheInvariant := by
  intro s t h hstep
  rcases step_effect hstep with ⟨l, -, hn⟩ | ⟨-, -, ⟨c, hc, rfl⟩ | ⟨lv, bs, hr, rfl⟩ | ⟨-, rfl⟩⟩ |
    ⟨-, cut, l, rfl⟩ | he
  · exact hn.keeps_inv (h.of_sameFramer rfl)
  · exact State.Inv.refused (h.of_sameFramer rfl) hc
  · exact State.Inv.encode_accepted (h.of_sameFramer rfl) hr
  · exact State.Inv.decode_accepted (h.of_sameFramer rfl)
  · exact State.Inv.of_sameFramer resetMeetsTheInvariant rfl
  · exact h.of_sameFramer he

end Sys2Proof.Machine
end

section
/-! PROOF. Where MODE, the header registers, CKCHK and CKACC are written (R23, R24, R31, R35). -/

namespace Sys2Proof.Machine

variable {s t : State}

/-! ## What the framer's own step leaves unchanged -/

/-- No rule of a phase writes MODE or S11, and none takes a move of the host. -/
theorem PhaseNext.frame (h : PhaseNext s t) : t.mode = s.mode ∧ t.cmd = s.cmd ∧ t.host = s.host := by
  cases h <;> exact ⟨rfl, rfl, rfl⟩

/-- FLAGS and METHOD are latched at `E_HDR` and `D_HDR` alone (R171, R204). -/
theorem PhaseNext.flags_method (h : PhaseNext s t) :
    (s.phase = .eHdr ∨ s.phase = .dHdr) ∨ t.flags = s.flags ∧ t.method = s.method := by
  cases h
  case eHdr hp | eHdrFail hp => exact .inl (.inl hp)
  case dHdr hp _ _ _ _ | dHdrBad hp _ _ => exact .inl (.inr hp)
  all_goals exact .inr ⟨rfl, rfl⟩

/-- Of the phases only `D_HDR` latches LEVEL and BLOCK_SIZE (R204). -/
theorem PhaseNext.level_blockSize (h : PhaseNext s t) :
    s.phase = .dHdr ∨ t.level = s.level ∧ t.blockSize = s.blockSize := by
  cases h
  case dHdr hp _ _ _ _ | dHdrBad hp _ _ => exact .inl hp
  all_goals exact .inr ⟨rfl, rfl⟩

/-- Only a trailer that is there and matches sets CKCHK (R230). -/
theorem PhaseNext.ckchk (h : PhaseNext s t) :
    t.ckchk = s.ckchk ∨
      s.phase = .dTrailer ∧ cksumFlag s.flags = true ∧ t.phase = .done ∧ t.ckrx = ckFinal t.ckacc := by
  cases h
  case dTrailer hp _ hf hv => exact .inr ⟨hp, hf, rfl, hv⟩
  all_goals exact .inl rfl

/-- The three phases that write CKACC, and what each writes (R172, R175, R218, R221). -/
theorem PhaseNext.ckacc (h : PhaseNext s t) :
    t.ckacc = s.ckacc ∨ (s.phase = .eInit ∧ t.ckacc = ckInit) ∨
    (s.phase = .eBlock ∧ t.ckacc = ckUpdate s.ckacc (s.stage.bytesAt 0 s.ulen.toNat)) ∨
    (s.phase = .dBlock ∧ t.phase = .dUlen ∧
      ∃ b, b.length = s.ulen.toNat ∧ t.out = s.out ++ b ∧ t.ckacc = ckUpdate s.ckacc b) := by
  cases h
  case eInit hp => exact .inr (.inl ⟨hp, rfl⟩)
  case eBlock hp _ | eBlockFail hp _ => exact .inr (.inr (.inl ⟨hp, rfl⟩))
  case dBlock d hp hl => exact .inr (.inr (.inr ⟨hp, rfl, d, hl, rfl, rfl⟩))
  all_goals exact .inl rfl

/-! ## The statements about all steps -/

theorem sameFramer.headers (h : sameFramer s t) :
    t.flags = s.flags ∧ t.method = s.method ∧ t.level = s.level ∧ t.blockSize = s.blockSize := by
  rw [h]; exact ⟨rfl, rfl, rfl, rfl⟩

theorem step_flags_method (hr : s.resetNext = false) (hstep : step s = .next t) :
    (s.phase = .eHdr ∨ s.phase = .dHdr) ∨ t.flags = s.flags ∧ t.method = s.method := by
  rcases step_effect hstep with ⟨l, -, hn⟩ | ⟨-, -, ⟨c, -, rfl⟩ | ⟨lv, bs, -, rfl⟩ | ⟨-, rfl⟩⟩ | ⟨h, -⟩ | he
  · exact hn.flags_method
  · exact .inr ⟨rfl, rfl⟩
  · exact .inr ⟨rfl, rfl⟩
  · exact .inr ⟨rfl, rfl⟩
  · exact absurd h (by simp [hr])
  · obtain ⟨hf, hm, -, -⟩ := he.headers
    exact .inr ⟨hf, hm⟩

theorem step_level_blockSize (hr : s.resetNext = false) (hstep : step s = .next t) :
    (s.phase = .dHdr ∨ (s.cmd.isSome = true ∧ s.busy = false ∧ t.mode = .encode ∧ t.phase = .eHdr)) ∨
      t.level = s.level ∧ t.blockSize = s.blockSize := by
  rcases step_effect hstep with ⟨l, -, hn⟩ | ⟨hc, hb, ⟨c, -, rfl⟩ | ⟨lv, bs, -, rfl⟩ | ⟨-, rfl⟩⟩ | ⟨h, -⟩ | he
  · exact hn.level_blockSize.imp_left .inl
  · exact .inr ⟨rfl, rfl⟩
  · exact .inl (.inr ⟨hc, hb, rfl, rfl⟩)
  · exact .inr ⟨rfl, rfl⟩
  · exact absurd h (by simp [hr])
  · obtain ⟨-, -, hl, hB⟩ := he.headers
    exact .inr ⟨hl, hB⟩

/-- Settles O51: of a step's kinds only `E_HDR`, `D_HDR` and an accepted ENCODE write a header register. -/
theorem headerRegistersImmutable : Obligations.HeaderRegistersImmutable := fun _ _ hr hstep =>
  ⟨fun hne => (step_flags_method hr hstep).resolve_right (not_and_or.mpr hne),
    fun hne => (step_level_blockSize hr hstep).resolve_right (not_and_or.mpr hne)⟩

/-- Settles O54: the framer's own step and the moves of the host keep MODE; what is left takes a command at rest. -/
theorem modeWrittenOnlyByCommands : Obligations.ModeWrittenOnlyByCommands := by
  intro s t hr hstep hne
  rcases step_effect hstep with ⟨l, -, hn⟩ | ⟨hc, hb, -⟩ | ⟨h, -⟩ | he
  · exact absurd hn.frame.1 hne
  · exact ⟨hc, hb⟩
  · exact absurd h (by simp [hr])
  · exact absurd (congrArg State.mode he) hne

/-- Settles O55: commands and reset clear CKCHK, and of the phases only `D_TRAILER` sets it. -/
theorem checkedOnlyByAMatchingTrailer : Obligations.CheckedOnlyByAMatchingTrailer := by
  intro s t hstep hs ht
  have kept {P : Prop} (h : t.ckchk = false) : P := absurd ht (by simp [h])
  rcases step_effect hstep with ⟨l, -, hn⟩ | ⟨-, -, ⟨c, -, rfl⟩ | ⟨lv, bs, -, rfl⟩ | ⟨-, rfl⟩⟩ | ⟨-, cut, l, rfl⟩ | he
  · exact hn.ckchk.resolve_left fun hk => kept (hk.trans hs)
  · exact kept rfl
  · exact kept rfl
  · exact kept rfl
  · exact kept rfl
  · exact kept ((congrArg State.ckchk he).trans hs)

/-- Settles O56: the three phases that write CKACC, and the acceptance of a DECODE. -/
theorem accumulatorWrittenOnlyByItsOperations : Obligations.AccumulatorWrittenOnlyByItsOperations := by
  intro s t hr hstep hne
  rcases step_effect hstep with ⟨l, hc, hn⟩ | ⟨-, hb, ⟨c, -, rfl⟩ | ⟨lv, bs, -, rfl⟩ | ⟨hw, rfl⟩⟩ | ⟨h, -⟩ | he
  · rcases hn.ckacc with h | h | h | h
    · exact absurd h hne
    · exact .inl ⟨hc, h⟩
    · exact .inr (.inr (.inl ⟨hc, h⟩))
    · exact .inr (.inr (.inr ⟨hc, h⟩))
  · exact absurd rfl hne
  · exact absurd rfl hne
  · exact .inr (.inl ⟨hw, hb, rfl, rfl⟩)
  · exact absurd h (by simp [hr])
  · exact absurd (congrArg State.ckacc he) hne

end Sys2Proof.Machine
end

section
/-! PROOF. Status, errors, waiting, reset, the host's reads and its commands (R25, R30, R44, R50, R130, R261). -/

namespace Sys2Proof.Machine

/-! ## A written command, and the host's moves -/

/-- Settles O5: the host's list of moves has no part in the framer's own step. -/
theorem stepRunsTheWrittenCommand : Obligations.StepRunsTheWrittenCommand := by
  refine fun s w h => ⟨fun i hw hi => ?_, fun hc hh => step_of_move hc hh, fun t ⟨hc, hh⟩ ht => ?_⟩
  · rw [step_of_cmd hw, takeCommand, hi]
  · rw [step_of_quiet hc hh] at ht
    calc step (s.withHost (.run :: h))
        = phaseStep (s.withHost h) := step_of_move (s := s.withHost (.run :: h)) hc rfl
      _ = sameWithHost h (phaseStep s) := phaseStep_withHost h
      _ = .next (t.withHost h) := by rw [ht, sameWithHost_next]

/-! ## The numbers of the errors -/

/-- The error a pair of numbers stands for (R261, R262). -/
def causeOfNumbers : Nat → Nat → Option Cause
  | 1, 1 => some .ioInFail
  | 1, 2 => some .ioOutFail
  | 1, 3 => some .ioUnexpectedEoi
  | 2, 1 => some .formatBadMagic
  | 2, 2 => some .formatBadMethod
  | 2, 3 => some .formatBadBlockSize
  | 3, 1 => some .truncatedShortBlock
  | 4, 1 => some .corruptCodecFail
  | 4, 2 => some .corruptLengthMismatch
  | 4, 3 => some .corruptStageOversize
  | 5, 1 => some .checksumMismatch
  | 6, 1 => some .commandBadOp
  | 6, 2 => some .commandBadLevel
  | 6, 3 => some .commandZeroBlockSize
  | 6, 4 => some .commandBlockSizeTooBig
  | _, _ => none

theorem causeOfNumbers_code_info (c : Cause) : causeOfNumbers c.code c.info = some c := by
  cases c <;> rfl

/-- The numbers lie in the ranges of R261 and R262. -/
theorem Cause.numbers_range (c : Cause) : 1 ≤ c.code ∧ c.code ≤ 6 ∧ 1 ≤ c.info ∧ c.info ≤ 4 := by
  cases c <;> decide

/-- CommandError is exactly what is raised in no mode. -/
theorem Cause.code_eq_six_iff (c : Cause) : c.code = 6 ↔ causeFits c .none = true := by
  cases c <;> decide

/-- Settles O42: `causeOfNumbers` reads the error back from its pair of numbers. -/
theorem errorNumbersIdentifyTheCause : Obligations.ErrorNumbersIdentifyTheCause := by
  refine ⟨by decide, fun c d hc hi => ?_, Cause.numbers_range, Cause.code_eq_six_iff, fun c => ⟨rfl, rfl⟩, rfl, rfl⟩
  have h := causeOfNumbers_code_info c
  rw [hc, hi, causeOfNumbers_code_info d] at h
  exact (Option.some.inj h).symm

/-! ## The STATUS word -/

theorem errCode_lt (e : Option Cause) : errCode e < 8 := by
  cases e with
  | none => decide
  | some c => have := c.numbers_range; simp only [errCode]; omega

theorem errInfo_lt (e : Option Cause) : errInfo e < 16 := by
  cases e with
  | none => decide
  | some c => have := c.numbers_range; simp only [errInfo]; omega

/-- The six fields of R30 lie side by side in the STATUS word. -/
theorem statusFields {a b c d : Bool} {e i : Nat} {w : BitVec 16} (he : e < 8) (hi : i < 16)
    (hw : w = BitVec.ofNat 16 (a.toNat + 2 * b.toNat + 4 * c.toNat + 8 * d.toNat + 16 * e + 128 * i)) :
    w.getLsbD 0 = a ∧ w.getLsbD 1 = b ∧ w.getLsbD 2 = c ∧ w.getLsbD 3 = d ∧ (w.extractLsb' 4 3).toNat = e ∧
      (w.extractLsb' 7 4).toNat = i ∧ w.extractLsb' 11 5 = 0 := by
  have ha := a.toNat_le; have hb := b.toNat_le; have hc := c.toNat_le; have hd := d.toNat_le
  have hn : w.toNat = a.toNat + 2 * b.toNat + 4 * c.toNat + 8 * d.toNat + 16 * e + 128 * i := by
    rw [hw, BitVec.toNat_ofNat]; omega
  have bit (k : Nat) (x : Bool) (h : w.toNat / 2 ^ k % 2 = x.toNat) : w.getLsbD k = x := by
    rw [BitVec.getLsbD, Nat.testBit_eq_decide_div_mod_eq, h]; cases x <;> rfl
  refine ⟨bit 0 a ?_, bit 1 b ?_, bit 2 c ?_, bit 3 d ?_, ?_, ?_, BitVec.eq_of_toNat_eq ?_⟩ <;>
    simp only [BitVec.extractLsb'_toNat, Nat.shiftRight_eq_div_pow, BitVec.ofNat_eq_ofNat, BitVec.toNat_ofNat, hn] <;>
    omega

/-- Settles O41. -/
theorem statusWordFields : Obligations.StatusWordFields := by
  intro s
  obtain ⟨hbusy, hdone, hfailed, hrest⟩ := statusFields (errCode_lt s.err) (errInfo_lt s.err) (w := s.statusWord) rfl
  rw [hbusy, hdone, hfailed, s.busy_eq_true_iff]
  exact ⟨Iff.rfl, decide_eq_true_iff, decide_eq_true_iff, hrest⟩

/-! ## Waiting -/

theorem phaseStep_of_rest {s : State} (h : s.busy = false) : phaseStep s = .next s := by
  unfold State.busy at h
  split at h
  · exact phaseStep_idle ‹_›
  · exact phaseStep_done ‹_›
  · exact phaseStep_failed ‹_›
  · cases h

/-- A read whose far end does not answer before its last byte waits. -/
theorem readThen_of_stall {k : Nat} {e : Cause} {s : State} {f : Bytes → State → Result} {b : Bytes}
    {rest : List InEvent} (hk : b.length < k) (h : s.inp = b.map .byte ++ .stall :: rest) :
    readThen k e s f = .next s := by
  simp [readThen, h, takeIn_of_stall hk]

/-- A write whose far end does not answer waits in the state before the step. -/
theorem writeThen_of_stall {s0 s : State} {b : Bytes} {f : State → Result} (hb : b ≠ []) (h : s.outStalled = true) :
    writeThen s0 b s f = .next s0 := by
  unfold State.outStalled at h
  split at h
  case h_1 hs => simp [writeThen, outWrite, hb, hs]
  case h_2 => cases h

theorem heldWrite_ne_read (c : Codec) (i : Option Instr) (k : Nat) : heldWrite c i ≠ .read k := by
  unfold heldWrite
  split
  · nofun
  · split
    · split <;> nofun
    · nofun
  · nofun

/-- Reading phases wait for a far end of IN that does not answer (R292). -/
theorem phaseStep_of_inStalled {s : State} {k : Nat} {b : Bytes} {rest : List InEvent} (hcall : s.portCall = .read k)
    (hk : b.length < k) (h : s.inp = b.map .byte ++ .stall :: rest) : phaseStep s = .next s := by
  cases hp : s.phase <;> simp only [State.portCall, hp, reduceCtorEq] at hcall
  case dBlock => exact absurd hcall (heldWrite_ne_read _ _ _)
  case eHdr | eBlock | eEos | eTrailer => split at hcall <;> cases hcall
  case eRead =>
    cases hcall
    rw [phaseStep_eRead hp]
    simp [phaseERead, h, takeIn_of_stall hk]
  case dTrailer =>
    split at hcall
    case isFalse => cases hcall
    case isTrue hf =>
      cases hcall
      rw [phaseStep_dTrailer hp, phaseDTrailer, if_pos hf]
      exact readThen_of_stall hk h
  all_goals cases hcall
  case dMagic => rw [phaseStep_dMagic hp]; exact readThen_of_stall hk h
  case dHdr => rw [phaseStep_dHdr hp]; exact readThen_of_stall hk h
  case dUlen => rw [phaseStep_dUlen hp]; exact readThen_of_stall hk h
  case dSlen => rw [phaseStep_dSlen hp]; exact readThen_of_stall hk h
  case dData => rw [phaseStep_dData hp]; exact readThen_of_stall hk h
  case dEos => rw [phaseStep_dEos hp]; exact readThen_of_stall hk h

/-- A block record in STAGE whose bytes OUT does not take waits. -/
theorem runOperation_of_heldWrite {s : State} {i : Option Instr} {b : Bytes} (hp : s.phase = .dBlock)
    (hcall : heldWrite s.codec i = .write b) (hb : b ≠ []) (h : s.outStalled = true) :
    runOperation i s = .next s := by
  unfold heldWrite at hcall
  split at hcall
  case h_1 d =>
    cases hcall
    exact (exec_blkS_dBlock hp).trans (writeThen_of_stall hb h)
  case h_2 u p =>
    show exec (.blkC u p) s = _
    rcases exec_blkC_dBlock (u := u) (d := p) hp with ⟨hd, -⟩ | ⟨x, hd, ⟨hx, -⟩ | ⟨hx, e⟩⟩ <;>
      rw [hd] at hcall
    · cases hcall
    · simp [hx] at hcall
    · simp only [hx, if_true, PortCall.write.injEq] at hcall
      subst hcall
      exact e.trans (writeThen_of_stall hb h)
  case h_3 => cases hcall

/-- Writing phases wait for a far end of OUT that does not answer (R292). -/
theorem phaseStep_of_outStalled {s : State} {b : Bytes} (hcall : s.portCall = .write b) (hb : b ≠ [])
    (h : s.outStalled = true) : phaseStep s = .next s := by
  cases hp : s.phase <;> simp only [State.portCall, hp, reduceCtorEq] at hcall
  case dTrailer => split at hcall <;> cases hcall
  case dBlock => rw [phaseStep_dBlock hp]; exact runOperation_of_heldWrite hp hcall hb h
  case eHdr =>
    rw [phaseStep_eHdr hp, exec_hdr_eHdr hp]
    exact writeThen_of_stall (encode_hdr_ne _ _ _ _) h
  case eEos =>
    rw [phaseStep_eEos hp, exec_eos_eEos hp]
    exact writeThen_of_stall (encode_eos_ne _) h
  case eTrailer =>
    rw [phaseStep_eTrailer hp, exec_cksum_eTrailer hp]
    exact writeThen_of_stall (encode_cksum_ne _) h
  case eBlock =>
    rw [phaseStep_eBlock hp, phaseEBlock]
    simp only [State.emitted, hp] at hcall
    cases hm : s.memRead 0 s.ulen.toNat with
    | none => rw [hm] at hcall; cases hcall
    | some blk => simp only [h, if_true]

/-- Settles O44: at rest there is no rule to take, and a port that does not answer leaves the state before the step. -/
theorem waitingChangesNothing : Obligations.WaitingChangesNothing := by
  intro s ⟨hc, hh⟩
  rw [step_of_quiet hc hh]
  exact ⟨phaseStep_of_rest, fun _ _ _ => phaseStep_of_inStalled, fun _ => phaseStep_of_outStalled⟩

/-! ## Reset and the host's reads -/

/-- Settles O45. -/
theorem resetLeavesTheFramerIdle : Obligations.ResetLeavesTheFramerIdle := ⟨rfl, rfl, by decide, rfl, rfl⟩

theorem Mode.code_lt (m : Mode) : m.code < 2 ^ 2 := by cases m <;> decide

theorem Phase.code_lt (p : Phase) : p.code < 2 ^ 5 := by cases p <;> decide

/-- A word widened from `n` bits is below `2 ^ n`. -/
theorem setWidth_toNat_lt {n : Nat} (v : BitVec n) (h : n ≤ 32) : (v.setWidth 32).toNat < 2 ^ n := by
  rw [BitVec.toNat_setWidth_of_le h]; exact v.isLt

/-- What a register reads as fits its width (R21). -/
theorem State.regValue_lt (s : State) (r : ReadReg) : (s.regValue r).toNat < 2 ^ r.width := by
  cases r with
  | status => exact setWidth_toNat_lt s.statusWord (by decide)
  | mode => exact Nat.lt_of_le_of_lt (Nat.mod_le _ _) s.mode.code_lt
  | phase => exact Nat.lt_of_le_of_lt (Nat.mod_le _ _) s.phase.code_lt
  | method => exact setWidth_toNat_lt s.method (by decide)
  | level => exact setWidth_toNat_lt s.level (by decide)
  | flags | blockSize | ulen | slen | ckacc | ckrx => exact BitVec.isLt _

theorem ReadReg.width_le (r : ReadReg) : r.width ≤ 32 := by cases r <;> decide

/-- A read that is answered truly: of any register at rest, of STATUS, MODE and PHASE at any time. -/
theorem hostRead_of_true {r : ReadReg} {s : State} (h : s.busy = false ∨ r = .status ∨ r = .mode ∨ r = .phase) :
    hostRead r s = { s with hostData := s.regValue r } := by
  unfold hostRead
  rw [if_neg]
  rcases h with h | rfl | rfl | rfl <;> simp [*, ReadReg.pollable]

/-- Every read returns some value of the register's width and changes nothing of the framer. -/
theorem hostRead_some (r : ReadReg) (s : State) :
    ∃ v n, v.toNat < 2 ^ r.width ∧ hostRead r s = { s with hostData := v, draws := n } := by
  unfold hostRead
  split
  · exact ⟨_, _, setWidth_toNat_lt _ r.width_le, rfl⟩
  · exact ⟨_, s.draws, s.regValue_lt r, rfl⟩

/-- Settles O47. -/
theorem hostReadsWithoutSideEffect : Obligations.HostReadsWithoutSideEffect := by
  refine ⟨fun s r h hc hh => ?_, fun s => ?_, rfl, rfl⟩
  · rw [step_of_move hc hh]
    refine ⟨fun ht => congrArg Host.Outcome.next (hostRead_of_true (s := { s with host := h }) ht), ?_⟩
    obtain ⟨v, n, hv, he⟩ := hostRead_some r { s with host := h }
    exact ⟨v, n, hv, congrArg Host.Outcome.next he⟩
  · have hmode (m : Mode) (hm : s.mode = m) : s.regValue .mode = BitVec.ofNat 32 m.code := by rw [State.regValue, hm]
    have hphase : (s.regValue .phase).toNat = s.phase.code :=
      Nat.mod_eq_of_lt (Nat.lt_trans s.phase.code_lt (by decide))
    exact ⟨rfl, hmode .none, hmode .encode, hmode .decode, hphase, rfl, rfl, rfl, rfl, rfl, rfl, rfl, rfl⟩

end Sys2Proof.Machine
end

section
/-! PROOF. An operation does not depend on what registers and STAGE held before it (R46, R302): two framers that agree
on what the ports and STATUS show and on the registers the coming rules read step alike. -/

namespace Sys2Proof.Machine

/-! ## What has to agree -/

/-- What the ports and STATUS show of a framer, MODE and PHASE, and what the far ends will answer. -/
structure View where
  ckchk : Bool
  err : Option Cause
  mode : Mode
  phase : Phase
  inp : List InEvent
  out : Bytes
  outAns : List OutAnswer
  codec : Codec

def State.view (s : State) : View := ⟨s.ckchk, s.err, s.mode, s.phase, s.inp, s.out, s.outAns, s.codec⟩

/-- The registers and bytes of STAGE that the operation has written and its coming rules read, by PHASE. -/
def liveAgree (p : Phase) (s t : State) : Prop :=
  match p with
  | .idle | .done | .failed => True
  | .eHdr | .eInit => s.level = t.level ∧ s.blockSize = t.blockSize
  | .eRead => s.level = t.level ∧ s.blockSize = t.blockSize ∧ s.ckacc = t.ckacc
  | .eBlock => s.level = t.level ∧ s.blockSize = t.blockSize ∧ s.ckacc = t.ckacc ∧ s.ulen = t.ulen ∧
      s.stage.bytesAt 0 s.ulen.toNat = t.stage.bytesAt 0 s.ulen.toNat
  | .eEos | .eTrailer | .dMagic | .dHdr => s.ckacc = t.ckacc
  | .dAlloc | .dUlen => s.flags = t.flags ∧ s.blockSize = t.blockSize ∧ s.ckacc = t.ckacc
  | .dSlen => s.flags = t.flags ∧ s.blockSize = t.blockSize ∧ s.ckacc = t.ckacc ∧ s.ulen = t.ulen
  | .dData => s.flags = t.flags ∧ s.blockSize = t.blockSize ∧ s.ckacc = t.ckacc ∧ s.ulen = t.ulen ∧ s.slen = t.slen
  | .dBlock => s.flags = t.flags ∧ s.blockSize = t.blockSize ∧ s.ckacc = t.ckacc ∧ s.ulen = t.ulen ∧ s.slen = t.slen ∧
      s.stage.bytesAt 0 s.slen.toNat = t.stage.bytesAt 0 s.slen.toNat
  | .dEos | .dTrailer => s.flags = t.flags ∧ s.ckacc = t.ckacc

/-- The two framers agree on all that the coming steps rest on. -/
def alike (s t : State) : Prop := s.view = t.view ∧ liveAgree s.phase s t

/-- Where both outcomes are next states, these are alike. -/
def alikeNext (r r' : Result) : Prop := ∀ s t, r = .next s → r' = .next t → alike s t

theorem alikeNext_next {s t : State} (h : alike s t) : alikeNext (.next s) (.next t) := by
  intro _ _ hs ht; cases hs; cases ht; exact h

theorem alikeNext_fault_left (e : Fault) (r : Result) : alikeNext (.fault e) r :=
  fun _ _ h => nomatch h

theorem alikeNext_fault_right (r : Result) (e : Fault) : alikeNext r (.fault e) :=
  fun _ _ _ h => nomatch h

variable {s t : State}

theorem alike.live {p : Phase} (h : alike s t) (hp : s.phase = p) : liveAgree p s t := hp ▸ h.2

/-! ## The views after the shared operations -/

theorem view_phase (h : s.view = t.view) : s.phase = t.phase := congrArg View.phase h

theorem view_goto (h : s.view = t.view) (p : Phase) : (s.goto p).view = (t.goto p).view :=
  congrArg (fun v => { v with phase := p }) h

theorem view_raise (h : s.view = t.view) (c : Cause) : (s.raise c).view = (t.raise c).view :=
  congrArg (fun v => { v with err := some c, phase := .failed }) h

theorem view_wrote (h : s.view = t.view) (b : Bytes) : (s.wrote b).view = (t.wrote b).view :=
  congrArg (fun v => { v with out := v.out ++ b, outAns := v.outAns.tail }) h

theorem view_inp (h : s.view = t.view) (rest : List InEvent) :
    State.view { s with inp := rest } = State.view { t with inp := rest } :=
  congrArg (fun v => { v with inp := rest }) h

/-- FAILED rests on no register. -/
theorem alike_raise (h : s.view = t.view) (c : Cause) : alike (s.raise c) (t.raise c) := ⟨view_raise h c, trivial⟩

/-! ## The ports -/

theorem readThen_alike {k : Nat} {e : Cause} {f g : Bytes → State → Result} (h : alike s t)
    (hf : ∀ b rest, b.length = k → alikeNext (f b { s with inp := rest }) (g b { t with inp := rest })) :
    alikeNext (readThen k e s f) (readThen k e t g) := by
  have hi : s.inp = t.inp := congrArg View.inp h.1
  unfold readThen
  rw [← hi]
  cases hr : (takeIn s.inp k).status <;> simp only [hr]
  case ok => exact hf _ _ (takeIn_length_of_ok hr)
  case stalled => exact alikeNext_next h
  all_goals exact alikeNext_next (alike_raise (view_inp h.1 _) _)

theorem writeThen_alike {s0 t0 : State} {b : Bytes} {f g : State → Result} (h0 : alike s0 t0) (h : s.view = t.view)
    (hempty : b = [] → alikeNext (f s) (g t)) (hf : alikeNext (f (s.wrote b)) (g (t.wrote b))) :
    alikeNext (writeThen s0 b s f) (writeThen t0 b t g) := by
  have ha : s.outAns = t.outAns := congrArg View.outAns h
  unfold writeThen outWrite
  rw [← ha]
  by_cases hb : b = []
  · simpa only [if_pos hb] using hempty hb
  · simp only [if_neg hb]
    rcases s.outAns with _ | ⟨_ | n | _, l⟩
    · exact hf
    · exact hf
    · exact alikeNext_next (alike_raise (view_wrote h _) _)
    · exact alikeNext_next h0

theorem emit_alike {s' t' : State} {i : Instr} {p : Phase} (h0 : alike s t) (h : s'.view = t'.view)
    (hb : encode i ≠ []) (hl : liveAgree p ((s'.wrote (encode i)).goto p) ((t'.wrote (encode i)).goto p)) :
    alikeNext (emit s i p s') (emit t i p t') :=
  writeThen_alike h0 h (fun h => absurd h hb) (alikeNext_next ⟨view_goto (view_wrote h _) p, hl⟩)

theorem outStalled_of_view (h : s.view = t.view) : s.outStalled = t.outStalled := by
  have ha : s.outAns = t.outAns := congrArg View.outAns h
  unfold State.outStalled
  rw [ha]

/-! ## STAGE -/

theorem stageCap_of_view (h : s.view = t.view) (hB : s.blockSize = t.blockSize) : s.stageCap = t.stageCap := by
  have hp : s.phase = t.phase := congrArg View.phase h
  have hm : s.mode = t.mode := congrArg View.mode h
  unfold State.stageCap
  rw [hp, hm, hB]

theorem memRead_of_view {n : Nat} (h : s.view = t.view) (hB : s.blockSize = t.blockSize)
    (hb : s.stage.bytesAt 0 n = t.stage.bytesAt 0 n) : s.memRead 0 n = t.memRead 0 n := by
  unfold State.memRead State.inStage
  rw [stageCap_of_view h hB, hb]

/-! ## The phases -/

/-- A block's bytes delivered (R218, R221). -/
theorem deliver_alike (h : alike s t) (hp : s.phase = .dBlock) (d : Bytes) :
    alikeNext (deliver d s) (deliver d t) := by
  obtain ⟨hf, hB, hk, -⟩ := h.live hp
  have hacc : ckUpdate s.ckacc d = ckUpdate t.ckacc d := congrArg (ckUpdate · d) hk
  exact writeThen_alike h h.1 (fun _ => alikeNext_next ⟨view_goto h.1 .dUlen, hf, hB, hacc⟩)
    (alikeNext_next ⟨view_goto (view_wrote h.1 d) .dUlen, hf, hB, hacc⟩)

/-- A stored block's record, written at `E_BLOCK` or finished at `D_BLOCK` (R177, R218). -/
theorem exec_blkS_alike (h : alike s t) (hp : s.phase = .eBlock ∨ s.phase = .dBlock) (d : Bytes) :
    alikeNext (exec (.blkS d) s) (exec (.blkS d) t) := by
  rcases hp with hp | hp <;> have ht := (view_phase h.1).symm.trans hp
  · obtain ⟨hl, hB, hk, -⟩ := h.live hp
    rw [exec_blkS_eBlock hp, exec_blkS_eBlock ht]
    exact emit_alike h h.1 (encode_blkS_ne d) ⟨hl, hB, hk⟩
  · rw [exec_blkS_dBlock hp, exec_blkS_dBlock ht]
    exact deliver_alike h hp d

/-- A compressed block's record, written at `E_BLOCK` or finished at `D_BLOCK` (R178, R220, R221). -/
theorem exec_blkC_alike (h : alike s t) (hp : s.phase = .eBlock ∨ s.phase = .dBlock) (u : Word) (d : Bytes) :
    alikeNext (exec (.blkC u d) s) (exec (.blkC u d) t) := by
  rcases hp with hp | hp <;> have ht := (view_phase h.1).symm.trans hp
  · obtain ⟨hl, hB, hk, -⟩ := h.live hp
    rw [exec_blkC_eBlock hp, exec_blkC_eBlock ht]
    exact emit_alike h h.1 (encode_blkC_ne u d) ⟨hl, hB, hk⟩
  · have hc : s.codec = t.codec := congrArg View.codec h.1
    rw [exec_blkC_dBlock_eq hp, exec_blkC_dBlock_eq ht, ← hc]
    cases codecDecompress s.codec d u with
    | none => exact alikeNext_next (alike_raise h.1 _)
    | some x =>
      dsimp only
      split
      · exact alikeNext_next (alike_raise h.1 _)
      · exact deliver_alike h hp x

theorem phaseERead_alike (h : alike s t) (hp : s.phase = .eRead) : alikeNext (phaseERead s) (phaseERead t) := by
  obtain ⟨hl, hB, hk⟩ := h.live hp
  have hi : s.inp = t.inp := congrArg View.inp h.1
  have hin : takeIn t.inp t.blockSize.toNat = takeIn s.inp s.blockSize.toNat := by rw [hi, hB]
  unfold phaseERead
  simp only [hin]
  generalize hr : takeIn s.inp s.blockSize.toNat = r
  have hv := view_inp h.1 r.rest
  have hlen : (BitVec.ofNat 32 r.bytes.length).toNat = r.bytes.length :=
    Nat.mod_eq_of_lt (Nat.lt_of_le_of_lt (hr ▸ takeIn_length_le s.inp s.blockSize.toNat) s.blockSize.isLt)
  cases hst : r.status <;> simp only
  case fail => exact alikeNext_next (alike_raise hv _)
  case stalled => exact alikeNext_next h
  all_goals
    split
    · exact alikeNext_next ⟨view_goto hv .eEos, hk⟩
    · cases hs : State.memWrite 0 r.bytes { s with inp := r.rest } with
      | none => exact alikeNext_fault_left _ _
      | some s' =>
        cases ht : State.memWrite 0 r.bytes { t with inp := r.rest } with
        | none => exact alikeNext_fault_right _ _
        | some t' =>
          obtain ⟨rfl, -⟩ := memWrite_of_some hs
          obtain ⟨rfl, -⟩ := memWrite_of_some ht
          refine alikeNext_next ⟨view_goto hv .eBlock, hl, hB, hk, rfl, ?_⟩
          show (s.stage.write 0 r.bytes).bytesAt 0 (BitVec.ofNat 32 r.bytes.length).toNat =
            (t.stage.write 0 r.bytes).bytesAt 0 (BitVec.ofNat 32 r.bytes.length).toNat
          rw [hlen, Memory.bytesAt_write, Memory.bytesAt_write]

theorem phaseEBlock_alike (h : alike s t) (hp : s.phase = .eBlock) : alikeNext (phaseEBlock s) (phaseEBlock t) := by
  obtain ⟨hl, hB, hk, hu, hb⟩ := h.live hp
  have hc : s.codec = t.codec := congrArg View.codec h.1
  unfold phaseEBlock
  rw [← hu, ← memRead_of_view h.1 hB hb, ← outStalled_of_view h.1, ← hc, ← hl]
  cases s.memRead 0 s.ulen.toNat with
  | none => exact alikeNext_fault_left _ _
  | some blk =>
    dsimp only
    split
    · exact alikeNext_next h
    · have hf : alike (s.ckFold blk) (t.ckFold blk) := by
        refine ⟨h.1, ?_⟩
        rw [State.ckFold_phase, hp]
        exact ⟨hl, hB, congrArg (ckUpdate · blk) hk, hu, hb⟩
      show alikeNext (exec _ (s.ckFold blk)) (exec _ (t.ckFold blk))
      rcases blockRecord_cases s.codec s.level s.ulen blk with ⟨-, e⟩ | ⟨-, e⟩ <;> rw [e]
      · exact exec_blkS_alike hf (.inl hp) _
      · exact exec_blkC_alike hf (.inl hp) _ _

theorem latchSlen_alike (h : s.view = t.view) (hf : s.flags = t.flags) (hB : s.blockSize = t.blockSize)
    (hk : s.ckacc = t.ckacc) (hu : s.ulen = t.ulen) (v : Word) : alikeNext (latchSlen v s) (latchSlen v t) := by
  unfold latchSlen
  rw [← stageCap_of_view h hB]
  cases s.stageCap with
  | none => exact alikeNext_fault_left _ _
  | some cap =>
    dsimp only
    split
    · exact alikeNext_next ⟨view_raise h _, trivial⟩
    · exact alikeNext_next ⟨view_goto h .dData, hf, hB, hk, hu, rfl⟩

theorem storeStored_alike (h : s.view = t.view) (hl : liveAgree .dData s t) {b : Bytes} (hb : b.length = s.slen.toNat) :
    alikeNext (storeStored b s) (storeStored b t) := by
  obtain ⟨hf, hB, hk, hu, hv⟩ := hl
  unfold storeStored
  cases hs : s.memWrite 0 b with
  | none => exact alikeNext_fault_left _ _
  | some s' =>
    cases ht : t.memWrite 0 b with
    | none => exact alikeNext_fault_right _ _
    | some t' =>
      obtain ⟨rfl, -⟩ := memWrite_of_some hs
      obtain ⟨rfl, -⟩ := memWrite_of_some ht
      refine alikeNext_next ⟨view_goto h .dBlock, hf, hB, hk, hu, hv, ?_⟩
      show (s.stage.write 0 b).bytesAt 0 s.slen.toNat = (t.stage.write 0 b).bytesAt 0 s.slen.toNat
      rw [← hb, Memory.bytesAt_write, Memory.bytesAt_write]

theorem held_alike (h : alike s t) (hp : s.phase = .dBlock) :
    alikeNext (runOperation s.held s) (runOperation t.held t) := by
  obtain ⟨hf, hB, hk, hu, hv, hb⟩ := h.live hp
  unfold State.held
  rw [← hv, ← hu, ← memRead_of_view h.1 hB hb]
  cases s.memRead 0 s.slen.toNat with
  | none => exact alikeNext_fault_left _ _
  | some b =>
    simp only [Option.map_some]
    split
    · exact exec_blkS_alike h (.inr hp) _
    · exact exec_blkC_alike h (.inr hp) _ _

theorem latchHeader_alike (h : s.view = t.view) (hk : s.ckacc = t.ckacc) (f : Word) (m lv : Byte) (bs : Word) :
    alikeNext (latchHeader f m lv bs s) (latchHeader f m lv bs t) := by
  cases hj : headerRejection m bs with
  | none =>
    rw [latchHeader_accepted hj, latchHeader_accepted hj]
    exact alikeNext_next ⟨view_goto h .dAlloc, rfl, rfl, hk⟩
  | some c =>
    rw [latchHeader_rejected hj, latchHeader_rejected hj]
    exact alikeNext_next ⟨view_raise h c, trivial⟩

theorem checkTrailer_alike (h : s.view = t.view) (hk : s.ckacc = t.ckacc) (v : Word) :
    alikeNext (checkTrailer v s) (checkTrailer v t) := by
  unfold checkTrailer
  rw [← hk]
  dsimp only
  split
  · exact alikeNext_next ⟨congrArg (fun w => { w with ckchk := true, phase := .done }) h, trivial⟩
  · exact alikeNext_next ⟨view_raise h _, trivial⟩

/-- The framer's own step reads no register that is not live. -/
theorem phaseStep_alike (h : alike s t) : alikeNext (phaseStep s) (phaseStep t) := by
  have at_t {p : Phase} (hp : s.phase = p) : t.phase = p := (view_phase h.1).symm.trans hp
  cases hp : s.phase with
  | idle => rw [phaseStep_idle hp, phaseStep_idle (at_t hp)]; exact alikeNext_next h
  | done => rw [phaseStep_done hp, phaseStep_done (at_t hp)]; exact alikeNext_next h
  | failed => rw [phaseStep_failed hp, phaseStep_failed (at_t hp)]; exact alikeNext_next h
  | eHdr =>
    obtain ⟨hl, hB⟩ := h.live hp
    rw [phaseStep_eHdr hp, phaseStep_eHdr (at_t hp), ← hl, ← hB, exec_hdr_eHdr hp, exec_hdr_eHdr (at_t hp)]
    exact emit_alike h h.1 (encode_hdr_ne _ _ _ _) ⟨hl, hB⟩
  | eInit =>
    obtain ⟨hl, hB⟩ := h.live hp
    rw [phaseStep_eInit hp, phaseStep_eInit (at_t hp)]
    exact alikeNext_next ⟨view_goto h.1 .eRead, hl, hB, rfl⟩
  | eRead => rw [phaseStep_eRead hp, phaseStep_eRead (at_t hp)]; exact phaseERead_alike h hp
  | eBlock => rw [phaseStep_eBlock hp, phaseStep_eBlock (at_t hp)]; exact phaseEBlock_alike h hp
  | eEos =>
    rw [phaseStep_eEos hp, phaseStep_eEos (at_t hp), exec_eos_eEos hp, exec_eos_eEos (at_t hp)]
    exact emit_alike h h.1 (encode_eos_ne 0) (h.live hp)
  | eTrailer =>
    have hk : s.ckacc = t.ckacc := h.live hp
    rw [phaseStep_eTrailer hp, phaseStep_eTrailer (at_t hp), ← hk, exec_cksum_eTrailer hp, exec_cksum_eTrailer (at_t hp)]
    exact emit_alike h h.1 (encode_cksum_ne _) trivial
  | dMagic =>
    have hk : s.ckacc = t.ckacc := h.live hp
    rw [phaseStep_dMagic hp, phaseStep_dMagic (at_t hp)]
    refine readThen_alike h fun b rest _ => ?_
    split
    · exact alikeNext_next (alike_raise (view_inp h.1 rest) _)
    · exact alikeNext_next ⟨view_goto (view_inp h.1 rest) .dHdr, hk⟩
  | dHdr =>
    have hk : s.ckacc = t.ckacc := h.live hp
    rw [phaseStep_dHdr hp, phaseStep_dHdr (at_t hp)]
    refine readThen_alike h fun b rest _ => ?_
    rw [headerFields, exec_hdr_dHdr (s := { s with inp := rest }) hp,
      exec_hdr_dHdr (s := { t with inp := rest }) (at_t hp)]
    exact latchHeader_alike (view_inp h.1 rest) hk _ _ _ _
  | dAlloc =>
    rw [phaseStep_dAlloc hp, phaseStep_dAlloc (at_t hp)]
    exact alikeNext_next ⟨view_goto h.1 .dUlen, h.live hp⟩
  | dUlen =>
    obtain ⟨hf, hB, hk⟩ := h.live hp
    rw [phaseStep_dUlen hp, phaseStep_dUlen (at_t hp)]
    refine readThen_alike h fun b rest _ => alikeNext_next ⟨view_goto (view_inp h.1 rest) _, ?_⟩
    show liveAgree (if unbe32 b = 0 then .dEos else .dSlen) _ _
    split
    · exact ⟨hf, hk⟩
    · exact ⟨hf, hB, hk, rfl⟩
  | dSlen =>
    obtain ⟨hf, hB, hk, hu⟩ := h.live hp
    rw [phaseStep_dSlen hp, phaseStep_dSlen (at_t hp)]
    exact readThen_alike h fun b rest _ => latchSlen_alike (view_inp h.1 rest) hf hB hk hu _
  | dData =>
    have hl := h.live hp
    have ⟨_, _, _, _, hv⟩ := hl
    rw [phaseStep_dData hp, phaseStep_dData (at_t hp), phaseDData, phaseDData, ← hv]
    exact readThen_alike h fun b rest hb => storeStored_alike (view_inp h.1 rest) hl hb
  | dBlock => rw [phaseStep_dBlock hp, phaseStep_dBlock (at_t hp)]; exact held_alike h hp
  | dEos =>
    rw [phaseStep_dEos hp, phaseStep_dEos (at_t hp), phaseDEos_eq, phaseDEos_eq]
    refine readThen_alike h fun b rest _ => ?_
    rw [exec_eos_dEos (s := { s with inp := rest }) hp, exec_eos_dEos (s := { t with inp := rest }) (at_t hp)]
    exact alikeNext_next ⟨view_goto (view_inp h.1 rest) .dTrailer, h.live hp⟩
  | dTrailer =>
    obtain ⟨hf, hk⟩ := h.live hp
    rw [phaseStep_dTrailer hp, phaseStep_dTrailer (at_t hp), phaseDTrailer, phaseDTrailer, ← hf]
    by_cases hc : cksumFlag s.flags = true
    · rw [if_pos hc, if_pos hc]
      refine readThen_alike h fun b rest _ => ?_
      rw [exec_cksum_dTrailer (s := { s with inp := rest }) hp, exec_cksum_dTrailer (s := { t with inp := rest }) (at_t hp),
        if_pos hc, if_pos (hf ▸ hc)]
      exact checkTrailer_alike (view_inp h.1 rest) hk _
    · rw [if_neg hc, if_neg hc]
      exact alikeNext_next ⟨view_goto h.1 .done, trivial⟩

/-! ## The command that starts the operation, and the run -/

/-- The far ends of the ports are the same. -/
def samePorts (s t : State) : Prop := s.inp = t.inp ∧ s.out = t.out ∧ s.outAns = t.outAns ∧ s.codec = t.codec

theorem view_accept (h : samePorts s t) (m : Mode) (p : Phase) : (s.accept m p).view = (t.accept m p).view := by
  obtain ⟨hi, ho, ha, hc⟩ := h
  simp only [State.view, State.accept, hi, ho, ha, hc]

theorem view_refuse (h : samePorts s t) (c : Cause) : (s.refuse c).view = (t.refuse c).view := by
  obtain ⟨hi, ho, ha, hc⟩ := h
  simp only [State.view, State.refuse, hi, ho, ha, hc]

/-- A command taken at rest makes two framers with the same ports alike, accepted or refused (R131, R137). -/
theorem takeCommand_alike (h : samePorts s t) (hs : s.busy = false) (ht : t.busy = false) (w : CmdWord) :
    alikeNext (takeCommand w s) (takeCommand w t) := by
  have refused (c : Cause) : alikeNext (.next (s.refuse c)) (.next (t.refuse c)) :=
    alikeNext_next ⟨view_refuse h c, trivial⟩
  unfold takeCommand decodeCommand
  by_cases h1 : cmdOp w = 0x01
  · simp only [if_pos h1]
    cases hr : encodeRefusal (cmdLevel w) (cmdBlockSize w) with
    | some c => rw [exec_encode_refused hs hr, exec_encode_refused ht hr]; exact refused c
    | none =>
      rw [exec_encode_accepted hs hr, exec_encode_accepted ht hr]
      exact alikeNext_next ⟨view_accept h .encode .eHdr, rfl, rfl⟩
  · simp only [if_neg h1]
    by_cases h2 : cmdOp w = 0x02
    · simp only [if_pos h2]
      rw [exec_decode_accepted hs, exec_decode_accepted ht]
      exact alikeNext_next ⟨view_accept h .decode .dMagic, rfl⟩
    · simp only [if_neg h2, hs, ht]
      exact refused .commandBadOp

/-- Taking a command writes neither S11 again nor the host's list. -/
theorem takeCommand_frame {w : CmdWord} (h : takeCommand w s = .next t) : t.cmd = s.cmd ∧ t.host = s.host := by
  rcases takeCommand_cases w s with ⟨-, e⟩ | ⟨-, c, -, e⟩ | ⟨-, -, -, e⟩ | ⟨-, -, e⟩ <;> rw [e] at h <;> cases h <;>
    exact ⟨rfl, rfl⟩

/-- A run of `n + 1` steps that answers a state is a step and a run of `n`. -/
theorem core_run_succ_next (M : Host.Core) {n : Nat} {s t : M.State} (h : M.run (n + 1) s = .next t) :
    ∃ u, M.step s = .next u ∧ M.run n u = .next t := by
  cases hu : M.step s with
  | next u => exact ⟨u, rfl, by simpa only [Host.Core.run, hu] using h⟩
  | fault e => simp [Host.Core.run, hu] at h
  | refused e => simp [Host.Core.run, hu] at h

theorem run_succ_next {n : Nat} (h : Host.Core.run core (n + 1) s = .next t) :
    ∃ u : State, step s = .next u ∧ Host.Core.run core n u = .next t := core_run_succ_next core h

/-- Framers that are alike and left alone stay alike. -/
theorem run_alike {n : Nat} {s' t' : State} (hs : s.quiet) (ht : t.quiet) (h : alike s t)
    (hrs : Host.Core.run core n s = .next s') (hrt : Host.Core.run core n t = .next t') : alike s' t' := by
  have quiet {a b : State} (hq : a.quiet) (h : phaseStep a = .next b) : b.quiet := by
    obtain ⟨-, hc, hh⟩ := (phaseStep_next h).frame
    exact ⟨hc.trans hq.1, hh.trans hq.2⟩
  induction n generalizing s t with
  | zero => cases hrs; cases hrt; exact h
  | succ n ih =>
    obtain ⟨u, hu, hru⟩ := run_succ_next hrs
    obtain ⟨v, hv, hrv⟩ := run_succ_next hrt
    rw [step_of_quiet hs.1 hs.2] at hu
    rw [step_of_quiet ht.1 ht.2] at hv
    exact ih (quiet hs hu) (quiet ht hv) (phaseStep_alike h u v hu hv) hru hrv

theorem statusWord_of_view (h : s.view = t.view) : s.statusWord = t.statusWord := by
  have hk : s.ckchk = t.ckchk := congrArg View.ckchk h
  have he : s.err = t.err := congrArg View.err h
  unfold State.statusWord State.busy
  rw [view_phase h, hk, he]

/-- Settles O60: the command makes the two framers alike, and alike framers stay so. -/
theorem operationIndependentOfThePast : Obligations.OperationIndependentOfThePast := by
  intro s t w n s' t' hbs hbt hcs hct hhs hht hi ho ha hc hrs hrt
  obtain ⟨u, hu, hru⟩ := run_succ_next hrs
  obtain ⟨v, hv, hrv⟩ := run_succ_next hrt
  rw [step_of_cmd hcs] at hu
  rw [step_of_cmd hct] at hv
  have huv : alike u v := takeCommand_alike (s := { s with cmd := none }) (t := { t with cmd := none })
    ⟨hi, ho, ha, hc⟩ hbs hbt w u v hu hv
  obtain ⟨hcu, hhu⟩ := takeCommand_frame hu
  obtain ⟨hcv, hhv⟩ := takeCommand_frame hv
  have hview := (run_alike ⟨hcu, hhu.trans hhs⟩ ⟨hcv, hhv.trans hht⟩ huv hru hrv).1
  exact ⟨congrArg View.inp hview, congrArg View.out hview, view_phase hview, congrArg View.mode hview,
    statusWord_of_view hview⟩

end Sys2Proof.Machine
end

section
/-! PROOF. STAGE (R62, R63): from a state that meets the invariant every step answers, and only `E_READ` and `D_DATA`
write the buffer. -/

namespace Sys2Proof.Machine

/-- The outcome is a next state: no fault and no refusal. -/
def answers (r : Result) : Prop := ∃ t, r = .next t

theorem answers_next (t : State) : answers (.next t) := ⟨t, rfl⟩

variable {s : State}

/-! ## The ports and STAGE -/

/-- A reading step answers when what it does with its bytes answers. -/
theorem readThen_answers {k : Nat} {e : Cause} {f : Bytes → State → Result}
    (hf : ∀ b rest, b.length = k → answers (f b { s with inp := rest })) : answers (readThen k e s f) := by
  rcases readThen_cases k e s f with ⟨b, rest, hk, -, h⟩ | ⟨rest, -, h | h⟩ | h <;> rw [h]
  · exact hf b rest hk
  all_goals exact answers_next _

/-- A writing step answers when what follows the write answers. -/
theorem writeThen_answers {s0 : State} {b : Bytes} {f : State → Result} (hf : ∀ t, answers (f t)) :
    answers (writeThen s0 b s f) := by
  rcases writeThen_cases s0 b s f with ⟨-, h⟩ | ⟨-, -, h⟩ | ⟨n, h⟩ | ⟨-, h⟩ <;> rw [h]
  · exact hf _
  · exact hf _
  all_goals exact answers_next _

theorem emit_answers (s' : State) (i : Instr) (p : Phase) : answers (emit s i p s') :=
  writeThen_answers fun _ => answers_next _

theorem deliver_answers (d : Bytes) : answers (deliver d s) := writeThen_answers fun _ => answers_next _

/-- A read of bytes that exist (R62), from index 0. -/
theorem memRead_of_le {n cap : Nat} (hc : s.stageCap = some cap) (h : n ≤ cap) :
    s.memRead 0 n = some (s.stage.bytesAt 0 n) := by
  simp [State.memRead, State.inStage, hc, h]

/-- A write to bytes that exist (R62), from index 0. -/
theorem memWrite_of_le {v : Bytes} {cap : Nat} (hc : s.stageCap = some cap) (h : v.length ≤ cap) :
    s.memWrite 0 v = some { s with stage := s.stage.write 0 v } := by
  simp [State.memWrite, State.inStage, hc, h]

/-- StageCap in the Encode phases that access STAGE (R40). -/
theorem stageCap_of_encode (h : s.phase = .eRead ∨ s.phase = .eBlock) : s.stageCap = some s.blockSize.toNat := by
  rcases h with h | h <;> simp only [State.stageCap, h]

/-- StageCap in the Decode phases that compare with it or access STAGE (R40, R208). -/
theorem stageCap_of_decode (h : s.phase = .dSlen ∨ s.phase = .dData ∨ s.phase = .dBlock) :
    s.stageCap = some (stageCapOf s.blockSize.toNat) := by
  rcases h with h | h | h <;> simp only [State.stageCap, h]

/-! ## The operations that stop out of position or out of STAGE, where the phases run them -/

theorem latchSlen_answers (hp : s.phase = .dSlen) (v : Word) : answers (latchSlen v s) := by
  unfold latchSlen
  rw [stageCap_of_decode (.inl hp)]
  dsimp only
  split <;> exact answers_next _

theorem storeStored_answers (hp : s.phase = .dData) {b : Bytes} (hb : b.length ≤ stageCapOf s.blockSize.toNat) :
    answers (storeStored b s) := by
  unfold storeStored
  rw [memWrite_of_le (stageCap_of_decode (.inr (.inl hp))) hb]
  exact answers_next _

theorem latchHeader_answers (f : Word) (m lv : Byte) (bs : Word) : answers (latchHeader f m lv bs s) := by
  cases hj : headerRejection m bs with
  | none => rw [latchHeader_accepted hj]; exact answers_next _
  | some c => rw [latchHeader_rejected hj]; exact answers_next _

theorem checkTrailer_answers (v : Word) : answers (checkTrailer v s) := by
  unfold checkTrailer
  dsimp only
  split <;> exact answers_next _

/-- The record of a block is in position at `E_BLOCK` (R177, R178). -/
theorem blockRecord_answers (hp : s.phase = .eBlock) (c : Codec) (lv : Byte) (u : Word) (blk : Bytes) :
    answers (exec (blockRecord c lv u blk) s) := by
  rcases blockRecord_cases c lv u blk with ⟨-, e⟩ | ⟨-, e⟩ <;> rw [e]
  · rw [exec_blkS_eBlock hp]; exact emit_answers _ _ _
  · rw [exec_blkC_eBlock hp]; exact emit_answers _ _ _

/-- A compressed block answers at `D_BLOCK`, whatever the codec answers (R220, R221). -/
theorem exec_blkC_dBlock_answers (hp : s.phase = .dBlock) (u : Word) (d : Bytes) : answers (exec (.blkC u d) s) := by
  rcases exec_blkC_dBlock (u := u) (d := d) hp with ⟨-, e⟩ | ⟨x, -, ⟨-, e⟩ | ⟨-, e⟩⟩ <;> rw [e]
  · exact answers_next _
  · exact answers_next _
  · exact deliver_answers x

/-! ## The phases that access STAGE -/

/-- InRead(BLOCK_SIZE) delivers no more than StageCap (R173). -/
theorem phaseERead_answers (hp : s.phase = .eRead) : answers (phaseERead s) := by
  have hlen := takeIn_length_le s.inp s.blockSize.toNat
  unfold phaseERead
  generalize takeIn s.inp s.blockSize.toNat = r at hlen
  have hw : State.memWrite 0 r.bytes { s with inp := r.rest } =
      some { s with inp := r.rest, stage := s.stage.write 0 r.bytes } :=
    memWrite_of_le (s := { s with inp := r.rest }) (stageCap_of_encode (.inl hp)) hlen
  dsimp only
  rw [hw]
  cases r.status with
  | fail | stalled => exact answers_next _
  | ok | eoi => dsimp only; split <;> exact answers_next _

theorem phaseEBlock_answers (hp : s.phase = .eBlock) (hu : s.ulen.toNat ≤ s.blockSize.toNat) :
    answers (phaseEBlock s) := by
  unfold phaseEBlock
  rw [memRead_of_le (stageCap_of_encode (.inr hp)) hu]
  dsimp only
  split
  · exact answers_next _
  · exact blockRecord_answers (s := s.ckFold _) hp _ _ _ _

theorem held_answers (hp : s.phase = .dBlock) (hv : s.slen.toNat ≤ stageCapOf s.blockSize.toNat) :
    answers (runOperation s.held s) := by
  unfold State.held
  rw [memRead_of_le (stageCap_of_decode (.inr (.inr hp))) hv, Option.map_some]
  split
  · show answers (exec (.blkS _) s)
    rw [exec_blkS_dBlock hp]
    exact deliver_answers _
  · exact exec_blkC_dBlock_answers hp _ _

/-! ## The step -/

/-- The framer's own step answers: the invariant bounds ULEN at `E_BLOCK`, SLEN at `D_DATA` and `D_BLOCK` (R179, R213). -/
theorem State.Inv.phaseStep_answers (h : s.Inv) : answers (phaseStep s) := by
  cases hp : s.phase with
  | idle => rw [phaseStep_idle hp]; exact answers_next _
  | done => rw [phaseStep_done hp]; exact answers_next _
  | failed => rw [phaseStep_failed hp]; exact answers_next _
  | eHdr => rw [phaseStep_eHdr hp, exec_hdr_eHdr hp]; exact emit_answers _ _ _
  | eInit => rw [phaseStep_eInit hp]; exact answers_next _
  | eRead => rw [phaseStep_eRead hp]; exact phaseERead_answers hp
  | eBlock =>
    obtain ⟨-, -, -, hu⟩ := (h.at_phase hp).registers
    rw [phaseStep_eBlock hp]
    exact phaseEBlock_answers hp hu
  | eEos => rw [phaseStep_eEos hp, exec_eos_eEos hp]; exact emit_answers _ _ _
  | eTrailer => rw [phaseStep_eTrailer hp, exec_cksum_eTrailer hp]; exact emit_answers _ _ _
  | dMagic =>
    rw [phaseStep_dMagic hp]
    refine readThen_answers fun b rest _ => ?_
    split <;> exact answers_next _
  | dHdr =>
    rw [phaseStep_dHdr hp]
    refine readThen_answers fun b rest _ => ?_
    rw [headerFields, exec_hdr_dHdr (s := { s with inp := rest }) hp]
    exact latchHeader_answers _ _ _ _
  | dAlloc => rw [phaseStep_dAlloc hp]; exact answers_next _
  | dUlen => rw [phaseStep_dUlen hp]; exact readThen_answers fun _ _ _ => answers_next _
  | dSlen =>
    rw [phaseStep_dSlen hp]
    exact readThen_answers fun _ rest _ => latchSlen_answers (s := { s with inp := rest }) hp _
  | dData =>
    obtain ⟨-, -, hv⟩ := (h.at_phase hp).registers
    rw [phaseStep_dData hp]
    exact readThen_answers fun _ rest hb => storeStored_answers (s := { s with inp := rest }) hp (hb.trans_le hv)
  | dBlock =>
    obtain ⟨-, -, hv⟩ := (h.at_phase hp).registers
    rw [phaseStep_dBlock hp]
    exact held_answers hp hv
  | dEos =>
    rw [phaseStep_dEos hp, phaseDEos_eq]
    refine readThen_answers fun b rest _ => ?_
    rw [exec_eos_dEos (s := { s with inp := rest }) hp]
    exact answers_next _
  | dTrailer =>
    rw [phaseStep_dTrailer hp, phaseDTrailer]
    split
    case isTrue hf =>
      refine readThen_answers fun b rest _ => ?_
      rw [exec_cksum_dTrailer (s := { s with inp := rest }) hp, if_pos hf]
      exact checkTrailer_answers _
    case isFalse => exact answers_next _

/-- A written command answers in every state (R130). -/
theorem takeCommand_answers (w : CmdWord) : answers (takeCommand w s) := by
  rcases takeCommand_cases w s with ⟨-, e⟩ | ⟨-, c, -, e⟩ | ⟨-, -, -, e⟩ | ⟨-, -, e⟩ <;> exact ⟨_, e⟩

theorem State.Inv.hostMove_answers (h : s.Inv) (m : HostMove) : answers (hostMove m s) := by
  cases m with
  | run => exact h.phaseStep_answers
  | command | read | driveIn | driveOut | attachOut | reset => exact answers_next _

/-- Settles O50: commands and the host's other moves answer in every state, the framer's own step by the invariant. -/
theorem noStepStops : Obligations.NoStepStops := by
  intro s h
  rcases step_cases s with ⟨w, -, e⟩ | ⟨-, -, e⟩ | ⟨m, l, -, -, e⟩ <;> rw [e]
  · exact takeCommand_answers w
  · exact h.phaseStep_answers
  · exact State.Inv.hostMove_answers (s := { s with host := l }) (h.of_sameFramer rfl) m

/-! ## Where STAGE is written -/

/-- Of the phases only `E_READ` and `D_DATA` write STAGE (R173, R214). -/
theorem PhaseNext.stage {t : State} (h : PhaseNext s t) :
    (s.phase = .eRead ∨ s.phase = .dData) ∨ t.stage = s.stage := by
  cases h
  case eReadBlock hp _ _ _ => exact .inl (.inl hp)
  case dData hp _ _ _ => exact .inl (.inr hp)
  all_goals exact .inr rfl

theorem sameFramer.stage {t : State} (h : sameFramer s t) : t.stage = s.stage := by rw [h]

/-- Settles O53: commands and the host's moves other than reset leave STAGE. -/
theorem onlyReadStepsWriteStage : Obligations.OnlyReadStepsWriteStage := by
  intro s t hr hstep he hd
  rcases step_effect hstep with ⟨l, -, hn⟩ | ⟨-, -, ⟨c, -, rfl⟩ | ⟨lv, bs, -, rfl⟩ | ⟨-, rfl⟩⟩ | ⟨h, -⟩ | hf
  · exact hn.stage.resolve_left (not_or.mpr ⟨he, hd⟩)
  · rfl
  · rfl
  · rfl
  · exact absurd h (by simp [hr])
  · exact hf.stage

end Sys2Proof.Machine
end

section
/-! PROOF. The formats of 30_encoding.md: the decoder and the encoder undo each other (R92, R96 to R99, R101, R102). -/

namespace Sys2Proof.Machine

/-! ## Fields of a fixed length in front of other bytes -/

@[simp] theorem take_be32_append (v : Word) (t : Bytes) : (be32 v ++ t).take 4 = be32 v := rfl

@[simp] theorem drop_be32_append (v : Word) (t : Bytes) : (be32 v ++ t).drop 4 = t := rfl

@[simp] theorem drop_two_be32_append (u v : Word) (t : Bytes) : (be32 u ++ (be32 v ++ t)).drop 8 = t := rfl

@[simp] theorem take_be48_append (w : CmdWord) (t : Bytes) : (be48 w ++ t).take 6 = be48 w := rfl

@[simp] theorem drop_be48_append (w : CmdWord) (t : Bytes) : (be48 w ++ t).drop 6 = t := rfl

theorem exists_be32_append {b : Bytes} (h : 4 ≤ b.length) : ∃ v t, b = be32 v ++ t := by
  match b, h with
  | x :: y :: z :: w :: t, _ => exact ⟨unbe32 [x, y, z, w], t, by rw [be32_unbe32]; rfl⟩

theorem exists_be48_append {b : Bytes} (h : 6 ≤ b.length) : ∃ w t, b = be48 w ++ t := by
  match b, h with
  | x :: y :: z :: u :: v :: w :: t, _ => exact ⟨unbe48 [x, y, z, u, v, w], t, by rw [be48_unbe48]; rfl⟩

theorem lengthField_toNat {d : Bytes} (hd : d.length < 2 ^ 32) : (BitVec.ofNat 32 d.length).toNat = d.length :=
  Nat.mod_eq_of_lt hd

/-- The ten bytes of a header behind its magic (R92). -/
def headerTail (f : Word) (m lv : Byte) (bs : Word) : Bytes := be32 f ++ [m] ++ [lv] ++ be32 bs

theorem encode_hdr (f : Word) (m lv : Byte) (bs : Word) :
    encode (.hdr f m lv bs) = magic ++ headerTail f m lv bs := rfl

@[simp] theorem headerFields_headerTail (f : Word) (m lv : Byte) (bs : Word) :
    headerFields (headerTail f m lv bs) = .hdr f m lv bs := by
  show Instr.hdr (unbe32 (be32 f)) m lv (unbe32 (be32 bs)) = _
  rw [unbe32_be32, unbe32_be32]

theorem exists_headerTail_append {b : Bytes} (h : 10 ≤ b.length) : ∃ f m lv bs t, b = headerTail f m lv bs ++ t := by
  obtain ⟨f, t, rfl⟩ := exists_be32_append (b := b) (by omega)
  match t, h with
  | m :: lv :: t, h =>
    obtain ⟨bs, t, rfl⟩ := exists_be32_append (b := t) (by simp at h; omega)
    exact ⟨f, m, lv, bs, t, rfl⟩

/-! ## What the decoder answers on the bytes of an operation -/

theorem decode_command_append {w : CmdWord} {i : Instr} (h : decodeCommand w = .ok i) (rest : Bytes) :
    decode .command (be48 w ++ rest) = .ok (i, rest) := by
  simp [decode, h]

theorem decode_header_append (f : Word) (lv : Byte) (bs : Word) (rest : Bytes) :
    decode .header (encode (.hdr f methodLzo lv bs) ++ rest) = .ok (.hdr f methodLzo lv bs, rest) := by
  have hlen : (encode (.hdr f methodLzo lv bs) ++ rest).length = 17 + rest.length := by simp [encode]; omega
  have hmagic : (encode (.hdr f methodLzo lv bs) ++ rest).take 7 = magic := rfl
  have hmethod : (encode (.hdr f methodLzo lv bs) ++ rest).getD 11 0 = methodLzo := rfl
  have htail : ((encode (.hdr f methodLzo lv bs) ++ rest).drop 7).take 10 = headerTail f methodLzo lv bs := rfl
  have hrest : (encode (.hdr f methodLzo lv bs) ++ rest).drop 17 = rest := rfl
  rw [decode, if_neg (by omega), if_neg (not_not_intro hmagic), if_neg (by omega), if_neg (not_not_intro hmethod),
    htail, hrest, headerFields_headerTail]

/-- A first length of 0 is the marker, whatever its second field holds (R98). -/
theorem decode_eos_append (v : Word) (rest : Bytes) :
    decode .block (encode (.eos v) ++ rest) = .ok (.eos v, rest) := by
  simp only [encode, be32_take_eosRest, List.append_assoc]
  simp [decode]; omega

/-- Two lengths, the first not 0, and the stored bytes are a block record; the lengths tell which (R97). -/
theorem decode_blockBytes_append {u : Word} {d : Bytes} (hu : u ≠ 0) (hd : d.length < 2 ^ 32) (rest : Bytes) :
    decode .block (blockBytes u d ++ rest) = .ok (blockOf u (BitVec.ofNat 32 d.length) d, rest) := by
  simp only [blockBytes, List.append_assoc]
  simp [decode, show ¬ u = 0#32 from hu, lengthField_toNat hd]; omega

theorem decode_trailer_append (v : Word) (rest : Bytes) :
    decode .trailer (encode (.cksum v) ++ rest) = .ok (.cksum v, rest) := by
  simp [decode, encode]

/-! ## Which bytes the decoder answers on -/

theorem decodeCommand_ok {w : CmdWord} {i : Instr} (h : decodeCommand w = .ok i) :
    i.wf = true ∧ i.position = some .command ∧ encode i = be48 w := by
  unfold decodeCommand at h
  split at h
  case isTrue hop =>
    cases h
    exact ⟨rfl, rfl, by rw [encode, ← hop, encodeCommand_fields]⟩
  case isFalse =>
    split at h
    case isTrue hop =>
      cases h
      exact ⟨rfl, rfl, by rw [encode, ← hop, encodeCommand_fields]⟩
    case isFalse => cases h

theorem length_of_decode_command {b : Bytes} {x : Instr × Bytes} (h : decode .command b = .ok x) : 6 ≤ b.length := by
  by_contra hs
  simp [decode, Nat.lt_of_not_le hs] at h

theorem header_of_decode {b : Bytes} {x : Instr × Bytes} (h : decode .header b = .ok x) :
    b.take 7 = magic ∧ 10 ≤ (b.drop 7).length ∧ b.getD 11 0 = methodLzo := by
  rw [decode] at h
  split_ifs at h with h7 hmagic h17 hmethod
  exact ⟨not_not.mp hmagic, by simp; omega, not_not.mp hmethod⟩

theorem length_of_decode_block {b : Bytes} {x : Instr × Bytes} (h : decode .block b = .ok x) : 8 ≤ b.length := by
  by_contra hs
  have h8 : b.length < 8 := Nat.lt_of_not_le hs
  simp [decode, h8] at h

theorem stored_length_of_decode {u s : Word} {t : Bytes} {x : Instr × Bytes} (hu : u ≠ 0)
    (h : decode .block (be32 u ++ (be32 s ++ t)) = .ok x) : s.toNat ≤ t.length := by
  by_contra hs
  have h8 : ¬ 4 + (4 + t.length) < 8 := by omega
  simp [decode, show ¬ u = 0#32 from hu, h8, Nat.lt_of_not_le hs] at h

theorem length_of_decode_trailer {b : Bytes} {x : Instr × Bytes} (h : decode .trailer b = .ok x) : 4 ≤ b.length := by
  by_contra hs
  simp [decode, Nat.lt_of_not_le hs] at h

/-! ## Block records -/

theorem wf_blkS_iff (d : Bytes) : (Instr.blkS d).wf = true ↔ 0 < d.length ∧ d.length < 2 ^ 32 := by
  simp only [Instr.wf, Bool.and_eq_true, decide_eq_true_eq]

theorem wf_blkC_iff (u : Word) (d : Bytes) :
    (Instr.blkC u d).wf = true ↔ u ≠ 0 ∧ d.length < 2 ^ 32 ∧ d.length ≠ u.toNat := by
  simp only [Instr.wf, Bool.and_eq_true, decide_eq_true_eq, and_assoc]

theorem lengthField_eq {u : Word} {d : Bytes} (h : d.length = u.toNat) : BitVec.ofNat 32 d.length = u := by
  rw [h, BitVec.ofNat_toNat, BitVec.setWidth_eq]

theorem blockOf_of_length_eq {u : Word} {d : Bytes} (h : d.length = u.toNat) :
    blockOf u (BitVec.ofNat 32 d.length) d = .blkS d := if_pos (lengthField_eq h)

theorem blockOf_of_length_ne {u : Word} {d : Bytes} (hd : d.length < 2 ^ 32) (h : d.length ≠ u.toNat) :
    blockOf u (BitVec.ofNat 32 d.length) d = .blkC u d :=
  if_neg fun he => h ((lengthField_toNat hd).symm.trans (congrArg BitVec.toNat he))

/-- The record that two lengths and stored bytes make is well formed, and is written as it was read (R96, R97). -/
theorem encode_blockOf {u : Word} {d : Bytes} (hu : u ≠ 0) (hd : d.length < 2 ^ 32) :
    (blockOf u (BitVec.ofNat 32 d.length) d).wf = true ∧
      (blockOf u (BitVec.ofNat 32 d.length) d).position = some .block ∧
      encode (blockOf u (BitVec.ofNat 32 d.length) d) = blockBytes u d := by
  by_cases h : d.length = u.toNat
  · have hpos : 0 < d.length := h ▸ Nat.pos_of_ne_zero fun h0 => hu (BitVec.eq_of_toNat_eq h0)
    rw [blockOf_of_length_eq h]
    exact ⟨(wf_blkS_iff d).mpr ⟨hpos, hd⟩, rfl, by rw [encode, lengthField_eq h]⟩
  · rw [blockOf_of_length_ne hd h]
    exact ⟨(wf_blkC_iff u d).mpr ⟨hu, hd, h⟩, rfl, rfl⟩

/-! ## Decoder and encoder undo each other -/

/-- Settles O4: the two lengths of the record are equal, so it is read as stored. -/
theorem tieBlockReadsBackAsStored : Obligations.TieBlockReadsBackAsStored := by
  intro u c rest hu hc
  rw [← blockOf_of_length_eq hc]
  exact decode_blockBytes_append hu (hc ▸ u.isLt) rest

/-- Settles O2, by constructor: each has a format, and well-formedness keeps a tie and a foreign method out of it. -/
theorem decodeOfEncodeIsIdentity : Obligations.DecodeOfEncodeIsIdentity := by
  intro i p rest hwf hp
  cases i <;> cases hp
  case encode lv bs => exact decode_command_append (by simp [decodeCommand]) rest
  case decode lv bs => exact decode_command_append (by simp [decodeCommand]) rest
  case hdr f m lv bs =>
    obtain rfl : m = methodLzo := by simpa [Instr.wf] using hwf
    exact decode_header_append f lv bs rest
  case blkS d =>
    obtain ⟨hpos, hlt⟩ := (wf_blkS_iff d).mp hwf
    have hd : d.length = (BitVec.ofNat 32 d.length).toNat := (lengthField_toNat hlt).symm
    have hu : BitVec.ofNat 32 d.length ≠ 0 := fun h0 => hpos.ne' (hd.trans (congrArg BitVec.toNat h0))
    exact (decode_blockBytes_append hu hlt rest).trans (by rw [blockOf_of_length_eq hd])
  case blkC u d =>
    obtain ⟨hu, hlt, hne⟩ := (wf_blkC_iff u d).mp hwf
    exact (decode_blockBytes_append hu hlt rest).trans (by rw [blockOf_of_length_ne hlt hne])
  case eos v => exact decode_eos_append v rest
  case cksum v => exact decode_trailer_append v rest

theorem encode_of_decode_command {b rest : Bytes} {i : Instr} (h : decode .command b = .ok (i, rest)) :
    i.wf = true ∧ i.position = some .command ∧ encode i ++ rest = b := by
  obtain ⟨w, t, rfl⟩ := exists_be48_append (length_of_decode_command h)
  cases hw : decodeCommand w with
  | error e => simp [decode, hw] at h
  | ok j =>
    cases (decode_command_append hw t).symm.trans h
    obtain ⟨hwf, hp, he⟩ := decodeCommand_ok hw
    exact ⟨hwf, hp, by rw [he]⟩

theorem encode_of_decode_header {b rest : Bytes} {i : Instr} (h : decode .header b = .ok (i, rest)) :
    i.wf = true ∧ i.position = some .header ∧ encode i ++ rest = b := by
  obtain ⟨hmagic, hlen, hmethod⟩ := header_of_decode h
  obtain ⟨f, m, lv, bs, t, ht⟩ := exists_headerTail_append hlen
  obtain rfl : b = encode (.hdr f m lv bs) ++ t := by
    rw [encode_hdr, List.append_assoc, ← ht, ← hmagic, List.take_append_drop]
  obtain rfl : m = methodLzo := hmethod
  cases (decode_header_append f lv bs t).symm.trans h
  exact ⟨rfl, rfl, rfl⟩

theorem encode_of_decode_block {b rest : Bytes} {i : Instr} (h : decode .block b = .ok (i, rest)) :
    i.wf = true ∧ i.position = some .block ∧ encode i ++ rest = b := by
  have hlen := length_of_decode_block h
  obtain ⟨u, t, rfl⟩ := exists_be32_append (b := b) (by omega)
  obtain ⟨s, t, rfl⟩ := exists_be32_append (b := t) (by simp at hlen; omega)
  by_cases hu : u = 0
  · subst hu
    cases (decode_eos_append s t).symm.trans h
    exact ⟨rfl, rfl, rfl⟩
  · have hd : (t.take s.toNat).length = s.toNat := List.length_take_of_le (stored_length_of_decode hu h)
    have hlt : (t.take s.toNat).length < 2 ^ 32 := hd.trans_lt s.isLt
    have hb : be32 u ++ (be32 s ++ t) = blockBytes u (t.take s.toNat) ++ t.drop s.toNat := by
      simp [blockBytes, hd]
    rw [hb] at h ⊢
    cases (decode_blockBytes_append hu hlt _).symm.trans h
    obtain ⟨hwf, hp, he⟩ := encode_blockOf hu hlt
    exact ⟨hwf, hp, by rw [he]⟩

theorem encode_of_decode_trailer {b rest : Bytes} {i : Instr} (h : decode .trailer b = .ok (i, rest)) :
    i.wf = true ∧ i.position = some .trailer ∧ encode i ++ rest = b := by
  obtain ⟨v, t, rfl⟩ := exists_be32_append (length_of_decode_trailer h)
  cases (decode_trailer_append v t).symm.trans h
  exact ⟨rfl, rfl, rfl⟩

/-- Settles O3: at each position the bytes the decoder answers on are those of an operation, with bytes behind them. -/
theorem encodeOfDecodeIsIdentity : Obligations.EncodeOfDecodeIsIdentity := by
  intro p b i rest h
  cases p with
  | command => exact encode_of_decode_command h
  | header => exact encode_of_decode_header h
  | block => exact encode_of_decode_block h
  | trailer => exact encode_of_decode_trailer h

/-- Settles O1, by the decoder's own answer on each of the words. -/
theorem decoderReadsWrittenOutWords : Obligations.DecoderReadsWrittenOutWords :=
  ⟨rfl, rfl, rfl, rfl, rfl, rfl, rfl, rfl⟩

end Sys2Proof.Machine
end

section
/-! PROOF. The records by phase (R73, R105): a Decode phase that finds its part of a record on IN is the record's
operation there, and a record out of its position stops. -/

namespace Sys2Proof.Machine

variable {s : State}

/-! ## Decode phases with their bytes on IN -/

section
variable {b : Bytes} {rest : List InEvent}

theorem phaseStep_dMagic_of_magic (hp : s.phase = .dMagic) (hi : s.inp = magic.map .byte ++ rest) :
    phaseStep s = .next (State.goto .dHdr { s with inp := rest }) := by
  rw [phaseStep_dMagic hp, phaseDMagic, readThen_of_bytes magic_length hi, if_neg (not_not_intro rfl)]

theorem phaseStep_dHdr_of_bytes (hp : s.phase = .dHdr) (hb : b.length = 10) (hi : s.inp = b.map .byte ++ rest) :
    phaseStep s = exec (headerFields b) { s with inp := rest } := by
  rw [phaseStep_dHdr hp, phaseDHdr, readThen_of_bytes hb hi]

theorem phaseStep_dUlen_of_word {u : Word} (hp : s.phase = .dUlen) (hi : s.inp = (be32 u).map .byte ++ rest) :
    phaseStep s = latchUlen u { s with inp := rest } := by
  rw [phaseStep_dUlen hp, phaseDUlen, readThen_of_bytes (be32_length u) hi, unbe32_be32]

theorem phaseStep_dSlen_of_word {v : Word} (hp : s.phase = .dSlen) (hi : s.inp = (be32 v).map .byte ++ rest) :
    phaseStep s = latchSlen v { s with inp := rest } := by
  rw [phaseStep_dSlen hp, phaseDSlen, readThen_of_bytes (be32_length v) hi, unbe32_be32]

theorem phaseStep_dData_of_bytes (hp : s.phase = .dData) (hb : b.length = s.slen.toNat)
    (hi : s.inp = b.map .byte ++ rest) : phaseStep s = storeStored b { s with inp := rest } := by
  rw [phaseStep_dData hp, phaseDData, readThen_of_bytes hb hi]

theorem phaseStep_dEos_of_word {v : Word} (hp : s.phase = .dEos) (hi : s.inp = (be32 v).map .byte ++ rest) :
    phaseStep s = exec (.eos v) { s with inp := rest } := by
  rw [phaseStep_dEos hp, phaseDEos_eq, readThen_of_bytes (be32_length v) hi, unbe32_be32]

theorem phaseStep_dTrailer_of_word {v : Word} (hp : s.phase = .dTrailer) (hf : cksumFlag s.flags = true)
    (hi : s.inp = (be32 v).map .byte ++ rest) : phaseStep s = exec (.cksum v) { s with inp := rest } := by
  rw [phaseStep_dTrailer hp, phaseDTrailer, if_pos hf, readThen_of_bytes (be32_length v) hi, unbe32_be32]

end

/-! ## The part of a record that a phase fetches -/

/-- What a phase fetches stands on IN in front of the record's later bytes. -/
theorem inp_split {b : Bytes} {off : Nat} {rest : List InEvent} (n : Nat)
    (hi : s.inp = (b.drop off).map .byte ++ rest) :
    s.inp = ((b.drop off).take n).map .byte ++ ((b.drop (off + n)).map .byte ++ rest) := by
  rw [hi, ← List.append_assoc, ← List.map_append, ← List.drop_drop, List.take_append_drop]

/-- The stored bytes are all that is behind a block record's lengths (R96). -/
theorem take_drop_blockBytes (u : Word) (d : Bytes) : ((blockBytes u d).drop 8).take d.length = d := List.take_length

/-- Settles O6: in each span the bytes fetched are the record's fields there, the operands of its operation. -/
theorem stepRunsTheRecordOnIn : Obligations.StepRunsTheRecordOnIn := by
  intro s i off n rest ⟨hc, hh⟩ hspan hwf hslen hflag hi
  rw [step_of_quiet hc hh]
  replace hi := inp_split n hi
  unfold fetchSpan at hspan
  split at hspan <;> cases hspan
  case h_1 f m lv bs hp =>
    exact Eq.trans (phaseStep_dMagic_of_magic hp hi) (Eq.symm (exec_hdr_dMagic hp))
  case h_2 f m lv bs hp =>
    rw [← headerFields_headerTail]
    exact phaseStep_dHdr_of_bytes hp rfl hi
  case h_3 d hp =>
    exact Eq.trans (phaseStep_dUlen_of_word hp hi) (Eq.symm (exec_blkS_dUlen hp))
  case h_4 d hp =>
    exact Eq.trans (phaseStep_dSlen_of_word hp hi) (Eq.symm (exec_blkS_dSlen hp))
  case h_5 d hp =>
    rw [encode, take_drop_blockBytes, ← encode] at hi
    exact Eq.trans (phaseStep_dData_of_bytes hp (hslen hp).symm hi) (Eq.symm (exec_blkS_dData hp))
  case h_6 u d hp =>
    exact Eq.trans (phaseStep_dUlen_of_word hp hi) (Eq.symm (exec_blkC_dUlen hp))
  case h_7 u d hp =>
    exact Eq.trans (phaseStep_dSlen_of_word hp hi) (Eq.symm (exec_blkC_dSlen hp))
  case h_8 u d hp =>
    rw [encode, take_drop_blockBytes, ← encode] at hi
    exact Eq.trans (phaseStep_dData_of_bytes hp (hslen hp).symm hi) (Eq.symm (exec_blkC_dData hp))
  case h_9 v hp =>
    exact Eq.trans (phaseStep_dUlen_of_word hp hi) (Eq.symm (exec_eos_dUlen hp))
  case h_10 v hp => exact phaseStep_dEos_of_word hp hi
  case h_11 v hp => exact phaseStep_dTrailer_of_word hp (hflag hp) hi

/-! ## Records that stop -/

variable {f u v : Word} {m lv : Byte} {bs : Word} {d : Bytes}

theorem exec_hdr_outOfPosition (h : s.phase ∉ [.eHdr, .dMagic, .dHdr, .dAlloc]) :
    exec (.hdr f m lv bs) s = .refused .outOfPosition := by
  unfold exec execHdr; split <;> simp_all

theorem exec_blkS_outOfPosition (h : s.phase ∉ [.eBlock, .dUlen, .dSlen, .dData, .dBlock]) :
    exec (.blkS d) s = .refused .outOfPosition := by
  unfold exec execBlkS; split <;> simp_all

theorem exec_blkC_outOfPosition (h : s.phase ∉ [.eBlock, .dUlen, .dSlen, .dData, .dBlock]) :
    exec (.blkC u d) s = .refused .outOfPosition := by
  unfold exec execBlkC; split <;> simp_all

theorem exec_eos_outOfPosition (h : s.phase ∉ [.eEos, .dUlen, .dEos]) :
    exec (.eos v) s = .refused .outOfPosition := by
  unfold exec execEos; split <;> simp_all

theorem exec_cksum_outOfPosition (h : s.phase ∉ [.eTrailer, .dTrailer]) :
    exec (.cksum v) s = .refused .outOfPosition := by
  unfold exec execCksum; split <;> simp_all

/-- A write past the end of STAGE has no behaviour (R62). -/
theorem storeStored_of_oversize (hp : s.phase = .dData) (h : stageCapOf s.blockSize.toNat < d.length) :
    storeStored d s = .fault .stageOutOfRange := by
  cases hw : s.memWrite 0 d with
  | none => rw [storeStored, hw]
  | some t =>
    obtain ⟨-, cap, hcap, hle⟩ := memWrite_of_some hw
    cases (stageCap_of_decode (.inr (.inl hp))).symm.trans hcap
    omega

/-- Settles O8: no phase's rule takes a record out of its position, and STAGE has no room for oversize bytes. -/
theorem recordsOutOfPositionStop : Obligations.RecordsOutOfPositionStop := by
  refine fun s f u v m lv bs d => ⟨exec_hdr_outOfPosition,
    fun h => ⟨exec_blkS_outOfPosition h, exec_blkC_outOfPosition h⟩, exec_eos_outOfPosition, exec_cksum_outOfPosition, fun hp h => ⟨?_, ?_⟩⟩
  · rw [exec_blkS_dData hp, storeStored_of_oversize hp h]
  · rw [exec_blkC_dData hp, storeStored_of_oversize hp h]

end Sys2Proof.Machine
end

section
/-! PROOF. A command that is refused (R120, R137, R268). -/

namespace Sys2Proof.Machine

variable {s : State} {w : CmdWord}

theorem takeCommand_reservedOp (hb : s.busy = false) (h1 : cmdOp w ≠ 0x01) (h2 : cmdOp w ≠ 0x02) :
    takeCommand w s = .next (s.refuse .commandBadOp) := by
  simp only [takeCommand, decodeCommand, if_neg h1, if_neg h2, hb, Bool.false_eq_true, if_false]

theorem takeCommand_encode (h : cmdOp w = 0x01) :
    takeCommand w s = exec (.encode (cmdLevel w) (cmdBlockSize w)) s := by
  simp only [takeCommand, decodeCommand, if_pos h]

/-- Operands that are not allowed are refused by the first check they fail (R137). -/
theorem encodeRefusal_some {lv : Byte} {bs : Word} (h : levelAllowed lv = false ∨ bs = 0 ∨ physStage < bs.toNat) :
    encodeRefusal lv bs = some (if levelAllowed lv = false then .commandBadLevel
      else if bs = 0 then .commandZeroBlockSize else .commandBlockSizeTooBig) := by
  unfold encodeRefusal
  by_cases hl : levelAllowed lv = false
  · rw [if_pos hl, if_pos hl]
  · by_cases hz : bs = 0
    · rw [if_neg hl, if_neg hl, if_pos hz, if_pos hz]
    · have hbig : physStage < bs.toNat := (h.resolve_left hl).resolve_left hz
      have hfit : fitsPhysStage bs = false :=
        Bool.eq_false_iff.mpr fun hf => Nat.not_le_of_lt hbig ((fitsPhysStage_iff bs).mp hf)
      rw [if_neg hl, if_neg hl, if_neg hz, if_neg hz, if_pos hfit]

/-- Settles O11: a reserved op is no operation; an ENCODE is refused by its operands. -/
theorem refusedCommandReportsFirstCause : Obligations.RefusedCommandReportsFirstCause := by
  intro s w hw hb h2 hbad
  have hb' : State.busy { s with cmd := none } = false := hb
  rw [step_of_cmd hw]
  by_cases h1 : cmdOp w = 0x01
  · rw [takeCommand_encode h1, exec_encode_refused hb' (encodeRefusal_some (hbad.resolve_left (not_not_intro h1))),
      if_neg (not_not_intro h1)]
    rfl
  · rw [takeCommand_reservedOp hb' h1 h2, if_pos h1]
    rfl

end Sys2Proof.Machine
end

section
/-! PROOF. The host commands: what ENCODE and DECODE write when taken, and a word lost while busy (R131 to R139). -/

namespace Sys2Proof.Machine

variable {lv : Byte} {bs : Word}

/-- Allowed operands pass the three checks (R132, R137). -/
theorem encodeRefusal_eq_none_iff :
    encodeRefusal lv bs = none ↔ levelAllowed lv = true ∧ 1 ≤ bs.toNat ∧ bs.toNat ≤ physStage := by
  refine ⟨encodeRefusal_none, fun ⟨hl, hpos, hle⟩ => ?_⟩
  have hz : bs ≠ 0 := by rintro rfl; exact absurd hpos (by decide)
  rw [encodeRefusal, hl, if_neg (by decide), if_neg hz, (fitsPhysStage_iff bs).mpr hle, if_neg (by decide)]

/-- A check on an ENCODE's operands raises an error of no mode, a CommandError (R261). -/
theorem encodeRefusal_causeFits {c : Cause} (h : encodeRefusal lv bs = some c) : causeFits c .none = true := by
  unfold encodeRefusal at h
  split at h
  case isTrue => cases h; rfl
  case isFalse =>
    split at h
    case isTrue => cases h; rfl
    case isFalse => split at h <;> cases h; rfl

/-- Settles O9: the checks refuse exactly the operands that are not allowed. -/
theorem encodeCommandAcceptedIffAllowed : Obligations.EncodeCommandAcceptedIffAllowed := by
  intro s lv bs hb
  rw [← levelAllowed_iff, ← encodeRefusal_eq_none_iff]
  refine ⟨fun hr => exec_encode_accepted hb hr, fun hr => ?_⟩
  obtain ⟨c, hc⟩ := Option.ne_none_iff_exists'.mp hr
  exact ⟨c, encodeRefusal_causeFits hc, exec_encode_refused hb hc⟩

/-- Settles O10: acceptance of DECODE, then the accumulator's initialisation (R134, R151). -/
theorem decodeCommandAccepted : Obligations.DecodeCommandAccepted :=
  fun _ _ _ hb => exec_decode_accepted hb

/-- A word taken while busy is lost, whichever operation it encodes, or none (R139). -/
theorem takeCommand_busy {s : State} {w : CmdWord} (hb : s.busy = true) : takeCommand w s = .next s := by
  rcases takeCommand_cases w s with ⟨-, e⟩ | ⟨hn, -⟩ | ⟨hn, -⟩ | ⟨hn, -⟩
  · exact e
  all_goals exact absurd (hb.symm.trans hn) (by decide)

/-- Settles O12: taking the word from S11 leaves the framer busy, and there the word is lost. -/
theorem commandWhileBusyIgnored : Obligations.CommandWhileBusyIgnored := by
  intro s w hw hb
  have hb' : State.busy { s with cmd := none } = true := hb
  rw [step_of_cmd hw, takeCommand_busy hb']

end Sys2Proof.Machine
end

section
/-! PROOF. The checksum function: chunks in a row (R155), the one-byte step (R156), the closed form (R157). -/

namespace Sys2Proof.Machine

/-! ## Chunks in a row -/

theorem ckUpdate_append (s : Word) (x y : Bytes) : ckUpdate s (x ++ y) = ckUpdate (ckUpdate s x) y :=
  List.foldl_append

theorem ckUpdate_flatten (s : Word) (bs : List Bytes) : ckUpdate s bs.flatten = bs.foldl ckUpdate s :=
  List.foldl_flatten

/-- Settles O16: CkUpdate is a left fold. -/
theorem checksumIndependentOfChunking : Obligations.ChecksumIndependentOfChunking :=
  ⟨fun s x y => (ckUpdate_append s x y).symm, fun s bs => (ckUpdate_flatten s bs).symm⟩

/-! ## The two halves after one byte -/

theorem ckStep_low (w : Word) (x : Byte) : (ckStep w x).toNat % 65536 = (w.toNat % 65536 + x.toNat) % 65521 := by
  rw [ckStep_toNat, Nat.mul_add_mod_self_right, Nat.mod_eq_of_lt (by omega)]

/-- The new low half is added to the high half (R156). -/
theorem ckStep_high (w : Word) (x : Byte) :
    (ckStep w x).toNat / 65536 = (w.toNat / 65536 + (ckStep w x).toNat % 65536) % 65521 := by
  rw [ckStep_low, ckStep_toNat]
  omega

/-- The modulus takes at most one subtraction from the sum of two values of its range (R157 (b)). -/
theorem mod_ckModulus_eq_ite {n : Nat} (h : n < 2 * 65521) : n % 65521 = if n < 65521 then n else n - 65521 := by
  split <;> omega

/-- Settles O17: from a legal accumulator neither sum reaches twice the modulus. -/
theorem checksumStepIsAdler : Obligations.ChecksumStepIsAdler := by
  refine ⟨rfl, ckFinal_eq, fun s x ⟨hlow, hhigh⟩ => ?_⟩
  have hx := x.isLt
  simp only [ckModulus] at hlow hhigh
  have ha := mod_ckModulus_eq_ite (n := s.toNat % 65536 + x.toNat) (by omega)
  have hb := mod_ckModulus_eq_ite (n := s.toNat / 65536 + (s.toNat % 65536 + x.toNat) % 65521) (by omega)
  refine ⟨?_, ckLegal_ckStep s x⟩
  rw [ckStep_toNat, hb, ha]

/-! ## The two halves after a byte sequence -/

/-- From a legal accumulator the low half is the plain sum. -/
theorem ckUpdate_low {w : Word} (h : ckLegal w) (b : Bytes) :
    (ckUpdate w b).toNat % 65536 = (w.toNat % 65536 + (b.map BitVec.toNat).sum) % 65521 := by
  induction b generalizing w with
  | nil => exact (Nat.mod_eq_of_lt h.1).symm
  | cons x t ih =>
    rw [ckUpdate_cons, ih (ckLegal_ckStep w x), ckStep_low, Nat.mod_add_mod, List.map_cons, List.sum_cons,
      Nat.add_assoc]

/-- From a legal accumulator the high half takes the low half once for each byte, and each byte once for itself and once
for each byte behind it. -/
theorem ckUpdate_high {w : Word} (h : ckLegal w) (b : Bytes) :
    (ckUpdate w b).toNat / 65536 =
      (w.toNat / 65536 + b.length * (w.toNat % 65536) + weightedSum b) % 65521 := by
  induction b generalizing w with
  | nil =>
    rw [ckUpdate_nil, List.length_nil, Nat.zero_mul, weightedSum]
    exact (Nat.mod_eq_of_lt h.2).symm
  | cons x t ih =>
    rw [ckUpdate_cons, ih (ckLegal_ckStep w x), ckStep_high, List.length_cons, weightedSum]
    have hlow : (ckStep w x).toNat % 65536 ≡ w.toNat % 65536 + x.toNat [MOD 65521] := by
      rw [ckStep_low]; exact Nat.mod_modEq _ _
    generalize (ckStep w x).toNat % 65536 = l at hlow ⊢
    calc (w.toNat / 65536 + l) % 65521 + t.length * l + weightedSum t
        ≡ w.toNat / 65536 + l + t.length * l + weightedSum t [MOD 65521] :=
          ((Nat.mod_modEq _ _).add_right _).add_right _
      _ = w.toNat / 65536 + (t.length + 1) * l + weightedSum t := by ring
      _ ≡ w.toNat / 65536 + (t.length + 1) * (w.toNat % 65536 + x.toNat) + weightedSum t [MOD 65521] :=
          ((hlow.mul_left _).add_left _).add_right _
      _ = w.toNat / 65536 + (t.length + 1) * (w.toNat % 65536) + ((t.length + 1) * x.toNat + weightedSum t) := by ring

/-- Settles O18: CK_INIT has low half 1 and high half 0. -/
theorem checksumClosedForm : Obligations.ChecksumClosedForm := fun b =>
  ⟨ckUpdate_low ckLegal_ckInit b, by
    rw [ckUpdate_high ckLegal_ckInit b, show ckInit.toNat / 65536 = 0 from rfl, show ckInit.toNat % 65536 = 1 from rfl,
      Nat.zero_add, Nat.mul_one]⟩

end Sys2Proof.Machine
end

section
/-! PROOF. The operations on the accumulator (R151 to R154), and the trailer that is compared with it (R230). -/

namespace Sys2Proof.Machine

variable {s : State} {v : Word}

/-! ## The operations run on their own -/

theorem exec_ckInit (s : State) : exec .ckInit s = .next s.ckReset := rfl

theorem exec_ckUpdate (b : Bytes) (s : State) : exec (.ckUpdate b) s = .next (s.ckFold b) := rfl

theorem exec_ckCmp (v : Word) (s : State) : exec (.ckCmp v) s = .next { s with ret := .truth (ckCompare s.ckacc v) } :=
  rfl

theorem ckCompare_eq_true_iff {w : Word} : ckCompare w v = true ↔ v = ckFinal w := beq_iff_eq

theorem ckCompare_eq_false_iff {w : Word} : ckCompare w v = false ↔ v ≠ ckFinal w := beq_eq_false_iff_ne

/-- `E_INIT` is CK.INIT, then the next phase (R172). -/
theorem phaseEInit_eq (s : State) : phaseEInit s = .next (s.ckReset.goto .eRead) := rfl

/-- Settles O13: both ways into an operation that has an accumulator go through CK.INIT. -/
theorem accumulatorInitialised : Obligations.AccumulatorInitialised := by
  refine fun s => ⟨exec_ckInit s, fun ⟨hc, hh⟩ hp => ⟨s.ckReset.goto .eRead, ?_, rfl⟩, fun lv bs hb =>
    ⟨_, exec_decode_accepted hb, rfl⟩⟩
  rw [step_of_quiet hc hh, phaseStep_eInit hp, phaseEInit_eq]

/-- Settles O14: the equations of a left fold. -/
theorem accumulatorFoldsBytesInOrder : Obligations.AccumulatorFoldsBytesInOrder :=
  ⟨fun s b => exec_ckUpdate b s, ckUpdate_nil, ckUpdate_cons⟩

/-- Settles O15, by the answers of the comparison. -/
theorem finalAndCompareOnlyReturn : Obligations.FinalAndCompareOnlyReturn := by
  refine ⟨fun s => rfl, fun s v hv => ?_, fun s v hv => ?_⟩
  · rw [exec_ckCmp, ckCompare_eq_true_iff.mpr hv]
  · rw [exec_ckCmp, ckCompare_eq_false_iff.mpr hv]

/-! ## The trailer -/

theorem checkTrailer_of_match (h : v = ckFinal s.ckacc) :
    checkTrailer v s = .next { s with ckrx := v, ckchk := true, phase := .done } := by
  simp only [checkTrailer, ckCompare_eq_true_iff.mpr h, if_true]

theorem checkTrailer_of_mismatch (h : v ≠ ckFinal s.ckacc) :
    checkTrailer v s = .next (State.raise .checksumMismatch { s with ckrx := v }) := by
  simp only [checkTrailer, ckCompare_eq_false_iff.mpr h, Bool.false_eq_true, if_false]

theorem phaseStep_dTrailer_of_clear (hp : s.phase = .dTrailer) (hf : cksumFlag s.flags = false) :
    phaseStep s = .next (s.goto .done) := by
  rw [phaseStep_dTrailer hp, phaseDTrailer, hf, if_neg Bool.false_ne_true]

theorem phaseStep_dTrailer_of_set (hp : s.phase = .dTrailer) (hf : cksumFlag s.flags = true) :
    phaseStep s = readThen 4 .ioUnexpectedEoi s fun b s' => exec (.cksum (unbe32 b)) s' := by
  rw [phaseStep_dTrailer hp, phaseDTrailer, if_pos hf]

theorem exec_cksum_of_clear (hp : s.phase = .dTrailer) (hf : cksumFlag s.flags = false) :
    exec (.cksum v) s = .next (s.goto .done) := by
  rw [exec_cksum_dTrailer hp, hf, if_neg Bool.false_ne_true]

theorem exec_cksum_of_set (hp : s.phase = .dTrailer) (hf : cksumFlag s.flags = true) :
    exec (.cksum v) s = checkTrailer v s := by
  rw [exec_cksum_dTrailer hp, if_pos hf]

/-- Settles O39: the flag decides whether the trailer is read, the read whether it is compared. -/
theorem trailerChecked : Obligations.TrailerChecked := by
  intro s b rest v hp
  refine ⟨fun ⟨hc, hh⟩ hf => ?_, fun ⟨hc, hh⟩ hf hb hi => ?_, fun ⟨hc, hh⟩ hf hb hi => ?_,
    fun ⟨hc, hh⟩ hf hb hi => ?_, exec_cksum_of_clear hp, fun hf hv => ?_, fun hf hv => ?_⟩
  · exact (step_of_quiet hc hh).trans (phaseStep_dTrailer_of_clear hp hf)
  · rw [step_of_quiet hc hh, phaseStep_dTrailer_of_set hp hf, readThen_of_bytes hb hi]
  · rw [step_of_quiet hc hh, phaseStep_dTrailer_of_set hp hf, readThen_of_short hb hi]; rfl
  · rw [step_of_quiet hc hh, phaseStep_dTrailer_of_set hp hf, readThen_of_fail hb hi]; rfl
  · rw [exec_cksum_of_set hp hf, checkTrailer_of_match hv]
  · rw [exec_cksum_of_set hp hf, checkTrailer_of_mismatch hv]; rfl

end Sys2Proof.Machine
end

section
/-! PROOF. The Encode phases that write a record (R171, R177, R178, R180, R181): what a write taken whole and a failing
write leave, and the record that the registers and STAGE make up. -/

namespace Sys2Proof.Machine

variable {s : State}

/-! ## A record's write, by the answer of its far end -/

/-- A write taken whole (R68), field by field. -/
theorem emit_written {s' : State} {i : Instr} {p : Phase} (hb : encode i ≠ []) (h : s'.outReady = true) :
    emit s i p s' = .next { s' with phase := p, outAns := s'.outAns.tail, out := s'.out ++ encode i } :=
  emit_of_ready hb h

/-- A write that fails after `n` bytes (R68, R270), field by field. -/
theorem emit_failed {s' : State} {i : Instr} {p : Phase} {n : Nat} {t : List OutAnswer} (hb : encode i ≠ [])
    (h : s'.outAns = .fail n :: t) :
    emit s i p s' = .next
      { s' with phase := .failed, err := some .ioOutFail, outAns := t, out := s'.out ++ (encode i).take n } := by
  rw [emit_of_fail hb h, State.raise, State.wrote, h, List.tail_cons]

/-! ## The records at the phase that writes them -/

/-- Settles O20: the header is written from registers that are latched before the write. -/
theorem headerEmitted : Obligations.HeaderEmitted := by
  refine fun s f m lv bs hp => ⟨fun ⟨hc, hh⟩ => ?_, fun hr => ?_, fun n t hf => ?_⟩
  · rw [step_of_quiet hc hh, phaseStep_eHdr hp]; rfl
  · exact (exec_hdr_eHdr hp).trans (emit_written (encode_hdr_ne f m lv bs) hr)
  · exact (exec_hdr_eHdr hp).trans (emit_failed (encode_hdr_ne f m lv bs) hf)

/-- Settles O25: the stored form's record has the block's own length twice. -/
theorem storedBlockEmitted : Obligations.StoredBlockEmitted := by
  refine fun s d hp => ⟨fun hr => ?_, fun n t hf => ?_⟩
  · exact (exec_blkS_eBlock hp).trans (emit_written (encode_blkS_ne d) hr)
  · exact (exec_blkS_eBlock hp).trans (emit_failed (encode_blkS_ne d) hf)

/-- Settles O26: the length written is that of the form, whatever ULEN is. -/
theorem compressedBlockEmitted : Obligations.CompressedBlockEmitted := by
  refine fun s u c hp => ⟨fun hr => ?_, fun n t hf => ?_⟩
  · exact (exec_blkC_eBlock hp).trans (emit_written (encode_blkC_ne u c) hr)
  · exact (exec_blkC_eBlock hp).trans (emit_failed (encode_blkC_ne u c) hf)

/-- Settles O28: ULEN and SLEN are written before the marker goes out. -/
theorem eosEmitted : Obligations.EosEmitted := by
  refine fun s v hp => ⟨fun ⟨hc, hh⟩ => ?_, fun hr => ?_, fun n t hf => ?_, by decide⟩
  · rw [step_of_quiet hc hh, phaseStep_eEos hp]
  · exact (exec_eos_eEos hp).trans (emit_written (encode_eos_ne v) hr)
  · exact (exec_eos_eEos hp).trans (emit_failed (encode_eos_ne v) hf)

/-- Settles O29: no rule of `E_TRAILER` reads FLAGS. -/
theorem checksumEmitted : Obligations.ChecksumEmitted := by
  refine fun s v hp => ⟨fun ⟨hc, hh⟩ => ?_, fun hr => ?_, fun n t hf => ?_⟩
  · rw [step_of_quiet hc hh, phaseStep_eTrailer hp]
  · exact (exec_cksum_eTrailer hp).trans (emit_written (encode_cksum_ne v) hr)
  · exact (exec_cksum_eTrailer hp).trans (emit_failed (encode_cksum_ne v) hf)

/-- Settles O21, by the equation of `E_INIT`. -/
theorem encodeInitialisesAccumulator : Obligations.EncodeInitialisesAccumulator := by
  intro s ⟨hc, hh⟩ hp
  rw [step_of_quiet hc hh, phaseStep_eInit hp, phaseEInit_eq]
  rfl

/-! ## The block record that the registers and STAGE make up at `D_BLOCK` -/

/-- Stored bytes within StageCap are read from STAGE and dispatched on the two lengths (R216, R217). -/
theorem held_of_fits (hp : s.phase = .dBlock) (h : s.slen.toNat ≤ stageCapOf s.blockSize.toNat) :
    s.held = some (blockOf s.ulen s.slen (s.stage.bytesAt 0 s.slen.toNat)) := by
  rw [State.held, memRead_of_le (stageCap_of_decode (.inr (.inr hp))) h]
  rfl

/-- Settles O7: the Encode phases by their equations, `D_BLOCK` by the dispatch on the two lengths. -/
theorem stepRunsTheRecordInRegisters : Obligations.StepRunsTheRecordInRegisters := by
  intro s ⟨hc, hh⟩
  rw [step_of_quiet hc hh]
  refine ⟨phaseStep_eHdr, phaseStep_eEos, phaseStep_eTrailer, fun hp hfits => ?_⟩
  rw [phaseStep_dBlock hp, held_of_fits hp hfits, blockOf, runOperation]
  exact ⟨fun h => by rw [if_pos h], fun h => by rw [if_neg h]⟩

end Sys2Proof.Machine
end

section
/-! PROOF. The two phases of the Encode loop: a block read from IN (R173), folded in and written as a record (R174 to
R179). -/

namespace Sys2Proof.Machine

variable {s : State}

/-! ## `E_READ` -/

/-- Bytes before the end of the input are a block, the last one or not (R173, decision D8). -/
theorem phaseERead_of_block {b : Bytes} {st : InStatus} {rest : List InEvent} (hp : s.phase = .eRead)
    (htake : takeIn s.inp s.blockSize.toNat = ⟨b, st, rest⟩) (hst : st = .ok ∨ st = .eoi) (hb : b ≠ []) :
    phaseERead s = .next
      { s with inp := rest, stage := s.stage.write 0 b, ulen := BitVec.ofNat 32 b.length, phase := .eBlock } := by
  have hlen : b.length ≤ s.blockSize.toNat := by
    have := takeIn_length_le s.inp s.blockSize.toNat
    rwa [htake] at this
  have hw := memWrite_of_le (s := { s with inp := rest }) (stageCap_of_encode (.inl hp)) hlen
  unfold phaseERead
  rw [htake]
  rcases hst with rfl | rfl <;> dsimp only <;> rw [if_neg hb, hw]

/-- With `BLOCK_SIZE` bytes there, the block is full. -/
theorem phaseERead_of_full {b : Bytes} {rest : List InEvent} (hp : s.phase = .eRead) (hB : 1 ≤ s.blockSize.toNat)
    (hlen : b.length = s.blockSize.toNat) (hi : s.inp = b.map .byte ++ rest) :
    phaseERead s = .next
      { s with inp := rest, stage := s.stage.write 0 b, ulen := BitVec.ofNat 32 b.length, phase := .eBlock } := by
  refine phaseERead_of_block hp ?_ (.inl rfl) (List.length_pos_iff.mp (by omega))
  rw [hi, ← hlen, takeIn_of_bytes]

/-- With fewer bytes before the end of the input, the block is the short last one. -/
theorem phaseERead_of_short {b : Bytes} (hp : s.phase = .eRead) (hpos : 0 < b.length)
    (hlen : b.length < s.blockSize.toNat) (hi : s.inp = b.map .byte) :
    phaseERead s = .next
      { s with inp := [], stage := s.stage.write 0 b, ulen := BitVec.ofNat 32 b.length, phase := .eBlock } := by
  refine phaseERead_of_block hp ?_ (.inr rfl) (List.length_pos_iff.mp hpos)
  rw [hi, takeIn_of_short hlen]

/-- At the end of the input there is no block. -/
theorem phaseERead_of_end (hB : 1 ≤ s.blockSize.toNat) (hi : s.inp = []) :
    phaseERead s = .next { s with phase := .eEos } := by
  have htake : takeIn s.inp s.blockSize.toNat = ⟨[], .eoi, []⟩ := by
    rw [hi]
    exact takeIn_of_short (b := []) hB
  unfold phaseERead
  rw [htake]
  dsimp only
  rw [if_pos rfl, State.goto, ← hi]

/-- A failure before the block is full drops the bytes read (decision D8). -/
theorem phaseERead_of_fail {b : Bytes} {rest : List InEvent} (hlen : b.length < s.blockSize.toNat)
    (hi : s.inp = b.map .byte ++ .fail :: rest) :
    phaseERead s = .next { s with inp := rest, err := some .ioInFail, phase := .failed } := by
  unfold phaseERead
  rw [hi, takeIn_of_fail hlen]
  rfl

/-- STAGE after a write from index 0, byte by byte. -/
theorem Memory.byteAt_write_zero (m : Memory) (v : Bytes) (a : Nat) :
    (m.write 0 v).byteAt a = if a < v.length then v.getD a 0 else m.byteAt a := by
  rw [Memory.byteAt_write, Nat.zero_add, Nat.sub_zero]
  simp only [Nat.zero_le, true_and]

/-- Settles O22, by what InRead answers: all the bytes, fewer at the end, none, or a failure. -/
theorem encodeReadsBlocks : Obligations.EncodeReadsBlocks := by
  intro s b rest ⟨hc, hh⟩ hp hB
  rw [step_of_quiet hc hh, phaseStep_eRead hp]
  refine ⟨fun hlen hi => ?_, fun hpos hlen hi => ?_, phaseERead_of_end hB, phaseERead_of_fail⟩
  · refine ⟨s.stage.write 0 b, ?_, Memory.byteAt_write_zero _ _⟩
    rw [phaseERead_of_full hp hB hlen hi, lengthField_eq hlen]
  · exact ⟨s.stage.write 0 b, phaseERead_of_short hp hpos hlen hi, Memory.byteAt_write_zero _ _⟩

/-! ## `E_BLOCK` -/

/-- The original bytes of the block that `E_BLOCK` finds in STAGE. -/
def State.block (s : State) : Bytes := s.stage.bytesAt 0 s.ulen.toNat

theorem State.block_lengthField (s : State) : BitVec.ofNat 32 s.block.length = s.ulen := by
  rw [State.block, Memory.bytesAt_length, BitVec.ofNat_toNat, BitVec.setWidth_eq]

/-- Unless OUT does not answer, `E_BLOCK` folds the block in and then is the operation of its record (R174, R175). -/
theorem phaseEBlock_of_answer (hp : s.phase = .eBlock) (hu : s.ulen.toNat ≤ s.blockSize.toNat)
    (ha : s.outStalled = false) :
    phaseEBlock s = exec (blockRecord s.codec s.level s.ulen s.block) (s.ckFold s.block) := by
  unfold phaseEBlock
  rw [memRead_of_le (stageCap_of_encode (.inr hp)) hu]
  dsimp only
  rw [ha, if_neg Bool.false_ne_true, exec_ckUpdate]
  rfl

theorem phaseEBlock_of_stall (hp : s.phase = .eBlock) (hu : s.ulen.toNat ≤ s.blockSize.toNat)
    (ha : s.outStalled = true) : phaseEBlock s = .next s := by
  unfold phaseEBlock
  rw [memRead_of_le (stageCap_of_encode (.inr hp)) hu]
  dsimp only
  rw [ha, if_pos rfl]

theorem outStalled_of_ready (h : s.outReady = true) : s.outStalled = false := by
  unfold State.outReady at h
  unfold State.outStalled
  cases ha : s.outAns with
  | nil => rfl
  | cons a t =>
    rw [ha] at h
    cases a with
    | ok => rfl
    | fail | stall => cases h

theorem outStalled_of_fail {n : Nat} {t : List OutAnswer} (h : s.outAns = .fail n :: t) : s.outStalled = false := by
  unfold State.outStalled
  rw [h]

/-- The three answers of the far end to the next write (R68, U18). -/
theorem outAnswer_cases (s : State) :
    s.outReady = true ∨ (∃ n t, s.outAns = .fail n :: t) ∨ s.outStalled = true := by
  unfold State.outReady State.outStalled
  match s.outAns with
  | [] => exact .inl rfl
  | .ok :: _ => exact .inl rfl
  | .fail n :: t => exact .inr (.inl ⟨n, t, rfl⟩)
  | .stall :: _ => exact .inr (.inr rfl)

/-- Settles O23: the decision gives the record, the record's emission the rest. -/
theorem encodeBlockStep : Obligations.EncodeBlockStep := by
  intro s ⟨hc, hh⟩ hp hu hr
  rw [step_of_quiet hc hh, phaseStep_eBlock hp, phaseEBlock_of_answer hp hu (outStalled_of_ready hr), blockRecord]
  refine ⟨fun hlong => ?_, fun hshort => ?_⟩
  · have h := (storedBlockEmitted (s.ckFold s.block) s.block hp).1 hr
    rw [s.block_lengthField] at h
    exact (congrArg (exec · _) (if_pos hlong)).trans h
  · have h := (compressedBlockEmitted (s.ckFold s.block) s.ulen (codecCompress s.codec s.level s.block) hp).1 hr
    exact (congrArg (exec · _) (if_neg (Nat.not_lt_of_le hshort))).trans h

/-- Settles O24: the fold and the latch of SLEN come before the write, in both forms of the record. -/
theorem encodeBlockWriteFailure : Obligations.EncodeBlockWriteFailure := by
  intro s n t ⟨hc, hh⟩ hp hu hf
  rw [step_of_quiet hc hh, phaseStep_eBlock hp, phaseEBlock_of_answer hp hu (outStalled_of_fail hf), blockRecord]
  intro blk c slen stored
  by_cases hlong : s.ulen.toNat < c.length
  · have h := (storedBlockEmitted (s.ckFold blk) blk hp).2 n t hf
    rw [show BitVec.ofNat 32 blk.length = s.ulen from s.block_lengthField] at h
    rw [show slen = s.ulen from if_pos hlong, show stored = blk from if_pos hlong]
    exact (congrArg (exec · _) (if_pos hlong)).trans h
  · have h := (compressedBlockEmitted (s.ckFold blk) s.ulen c hp).2 n t hf
    rw [show slen = BitVec.ofNat 32 c.length from if_neg hlong, show stored = c from if_neg hlong]
    exact (congrArg (exec · _) (if_neg hlong)).trans h

/-- Settles O27: a stored block has its own length twice, a compressed form is at most as long as the block. -/
theorem emittedBlockLengthsInRange : Obligations.EmittedBlockLengthsInRange := by
  intro s t hq hp hpos hu hstep hread
  rcases outAnswer_cases s with hr | ⟨n, rest, hf⟩ | hst
  · obtain ⟨hstored, hcompressed⟩ := encodeBlockStep s hq hp hu hr
    by_cases hlong : s.ulen.toNat < (codecCompress s.codec s.level s.block).length
    · cases (hstored hlong).symm.trans hstep
      exact ⟨s.ulen, s.ulen, s.block, rfl, Memory.bytesAt_length _ _ _, hpos, hu, Nat.le_refl _⟩
    · have hshort := Nat.le_of_not_lt hlong
      cases (hcompressed hshort).symm.trans hstep
      have hfield := lengthField_toNat (Nat.lt_of_le_of_lt hshort s.ulen.isLt)
      exact ⟨s.ulen, _, _, rfl, hfield.symm, hpos, hu, hfield.trans_le hshort⟩
  · cases (encodeBlockWriteFailure s n rest hq hp hu hf).symm.trans hstep
    cases hread
  · rw [step_of_quiet hq.1 hq.2, phaseStep_eBlock hp, phaseEBlock_of_stall hp hu hst] at hstep
    cases hstep
    exact absurd (hp.symm.trans hread) (by decide)

end Sys2Proof.Machine
end

section
/-! PROOF. What the two whole operations rest on: runs, ports that behave well (R66, R69), the split into blocks and the
container (R183). -/

namespace Sys2Proof.Machine

variable {s : State}

/-! ## Runs -/

theorem core_run_one (M : Host.Core) {s t : M.State} (h : M.step s = .next t) : M.run 1 s = .next t := by
  rw [Host.Core.run, h]
  rfl

/-- A run goes on from where its first `m` steps end. -/
theorem core_run_add (M : Host.Core) {m n : Nat} {s t : M.State} (h : M.run m s = .next t) :
    M.run (m + n) s = M.run n t := by
  induction m generalizing s with
  | zero => cases h; rw [Nat.zero_add]
  | succ m ih =>
    obtain ⟨u, hu, hrun⟩ := core_run_succ_next M h
    rw [Nat.add_right_comm, Host.Core.run, hu]
    exact ih hrun

/-- `n` steps lead from `s` to `t`. -/
def reaches (n : Nat) (s t : State) : Prop := Host.Core.run core n s = .next t

theorem reaches.trans {m n : Nat} {s t u : State} (h : reaches m s t) (h' : reaches n t u) : reaches (m + n) s u :=
  (core_run_add core h).trans h'

theorem reaches_of_step {s t : State} (h : step s = .next t) : reaches 1 s t := core_run_one core h

/-- The framer's own step, when nothing comes before it. -/
theorem reaches_of_phaseStep {s t : State} (hq : s.quiet) (h : phaseStep s = .next t) : reaches 1 s t :=
  reaches_of_step ((step_of_quiet hq.1 hq.2).trans h)

/-- Where an operation that was at `s` has got to: the phase, the input left, the accumulator and OUT as given. STAGE and
the length registers hold what the blocks between have left there; everything else is as at `s`. -/
def progress (s : State) (p : Phase) (X : Bytes) (acc : Word) (out : Bytes) (t : State) : Prop :=
  ∃ stage ulen slen, t =
    { s with
      phase := p, inp := X.map .byte, ckacc := acc, out := out, stage := stage, ulen := ulen, slen := slen }

/-! ## Well-behaved ports -/

theorem outReady_of_wellBehaved (h : s.outWellBehaved) : s.outReady = true := by
  rw [State.outReady, h]

theorem outAns_tail_of_wellBehaved (h : s.outWellBehaved) : s.outAns.tail = s.outAns := by
  rw [h, List.tail_nil]

/-- A read from a well-behaved IN delivers the first bytes of what it carries (R65, R66). -/
theorem takeIn_of_input (X : Bytes) (k : Nat) :
    ∃ st, (st = .ok ∨ st = .eoi) ∧ takeIn (X.map .byte) k = ⟨X.take k, st, (X.drop k).map .byte⟩ := by
  rcases Nat.lt_or_ge X.length k with hlt | hge
  · refine ⟨.eoi, .inr rfl, ?_⟩
    rw [takeIn_of_short hlt, List.take_of_length_le hlt.le, List.drop_of_length_le hlt.le, List.map_nil]
  · refine ⟨.ok, .inl rfl, ?_⟩
    have h := takeIn_of_bytes (X.take k) ((X.drop k).map .byte)
    rwa [List.length_take_of_le hge, ← List.map_append, List.take_append_drop] at h

/-! ## Blocks and the container -/

/-- Induction along the split of the input into blocks (R183). -/
theorem pieces_induction {B : Nat} (hB : 1 ≤ B) {motive : Bytes → Prop} (nil : motive [])
    (cons : ∀ X, X ≠ [] → motive (X.drop B) → motive X) (X : Bytes) : motive X := by
  induction hn : X.length using Nat.strong_induction_on generalizing X with
  | _ n ih =>
    by_cases hX : X = []
    · exact hX ▸ nil
    · have hpos := List.length_pos_iff.mpr hX
      exact cons X hX (ih (X.drop B).length (by rw [List.length_drop]; omega) _ rfl)

/-- The blocks of an input, one after another, are the input (R183). -/
theorem pieces_flatten {B : Nat} (hB : 1 ≤ B) (X : Bytes) : (pieces B X).flatten = X := by
  induction X using pieces_induction hB with
  | nil => rfl
  | cons X hX ih => rw [pieces_cons hB hX, List.flatten_cons, ih, List.take_append_drop]

/-- What a container has behind its block records: the marker and the trailer (R98, R99). -/
def containerEnd (acc : Word) : Bytes := encode (.eos 0) ++ encode (.cksum (ckFinal acc))

/-- The container is the header, the blocks' records, the marker and the trailer (R91, R183). -/
theorem container_eq (c : Codec) (lv : Byte) (B : Word) (X : Bytes) :
    container c lv B X = encode (.hdr encFlags methodLzo lv B) ++ (pieces B.toNat X).flatMap (recordBytes c lv) ++
      containerEnd (ckUpdate ckInit X) := by
  rw [container, List.append_assoc, List.append_assoc _ (be32 0)]
  rfl

/-- Every Encode announces a trailer (R94, R171). -/
theorem cksumFlag_encFlags : cksumFlag encFlags = true := by decide

end Sys2Proof.Machine
end

section
/-! PROOF. A whole Encode (R183): the run of an accepted ENCODE with well-behaved ports, command to trailer. -/

namespace Sys2Proof.Machine

variable {s : State}

/-! ## The loop -/

/-- The step at `E_BLOCK` writes the record of the block in STAGE (R183). -/
theorem step_eBlock_recordBytes (hq : s.quiet) (hp : s.phase = .eBlock) (hu : s.ulen.toNat ≤ s.blockSize.toNat)
    (hr : s.outReady = true) : ∃ v, step s = .next
      { s with
        ckacc := ckUpdate s.ckacc s.block, slen := v, phase := .eRead, outAns := s.outAns.tail
        out := s.out ++ recordBytes s.codec s.level s.block } := by
  obtain ⟨hstored, hcompressed⟩ := encodeBlockStep s hq hp hu hr
  have hlen : s.block.length = s.ulen.toNat := Memory.bytesAt_length _ _ _
  rw [recordBytes, hlen, lenField, s.block_lengthField]
  split
  case isTrue hlong => exact ⟨_, hstored hlong⟩
  case isFalse hlong => exact ⟨_, hcompressed (Nat.le_of_not_lt hlong)⟩

/-- `E_READ` and `E_BLOCK` turn the next piece of the input into its record (R173 to R178). -/
theorem encode_block {X : Bytes} (hq : s.quiet) (hp : s.phase = .eRead) (hB : 1 ≤ s.blockSize.toNat)
    (hi : s.inCarries X) (ho : s.outWellBehaved) (hX : X ≠ []) :
    ∃ t, reaches 2 s t ∧ progress s .eRead (X.drop s.blockSize.toNat)
      (ckUpdate s.ckacc (X.take s.blockSize.toNat))
      (s.out ++ recordBytes s.codec s.level (X.take s.blockSize.toNat)) t := by
  obtain ⟨st, hst, htake⟩ := takeIn_of_input X s.blockSize.toNat
  rw [← hi] at htake
  have hpos := List.length_pos_iff.mpr hX
  have hle : (X.take s.blockSize.toNat).length ≤ s.blockSize.toNat := List.length_take_le _ _
  have hne : X.take s.blockSize.toNat ≠ [] := List.length_pos_iff.mp (by rw [List.length_take]; omega)
  have hread := (phaseStep_eRead hp).trans (phaseERead_of_block hp htake hst hne)
  generalize X.take s.blockSize.toNat = Y at hle hread ⊢
  have hulen := lengthField_toNat (Nat.lt_of_le_of_lt hle s.blockSize.isLt)
  obtain ⟨v, hblock⟩ := step_eBlock_recordBytes
    (s := { s with
      inp := (X.drop s.blockSize.toNat).map .byte, stage := s.stage.write 0 Y
      ulen := BitVec.ofNat 32 Y.length, phase := .eBlock })
    hq rfl (hulen.trans_le hle) (outReady_of_wellBehaved ho)
  simp only [State.block, hulen, Memory.bytesAt_write, outAns_tail_of_wellBehaved ho] at hblock
  exact ⟨_, (reaches_of_phaseStep hq hread).trans (reaches_of_step hblock), _, _, _, rfl⟩

/-- The passes of the Encode loop over the rest of the input, and the end of the input (R173). -/
theorem encode_blocks {B : Nat} (hB : 1 ≤ B) (X : Bytes) :
    ∀ s : State, s.quiet → s.phase = .eRead → s.blockSize.toNat = B → s.inCarries X → s.outWellBehaved →
      ∃ t, reaches (2 * (pieces B X).length + 1) s t ∧
        progress s .eEos [] (ckUpdate s.ckacc X)
          (s.out ++ (pieces B X).flatMap (recordBytes s.codec s.level)) t := by
  induction X using pieces_induction hB with
  | nil =>
    intro s hq hp hs hi ho
    refine ⟨{ s with phase := .eEos }, reaches_of_phaseStep hq ?_, s.stage, s.ulen, s.slen, ?_⟩
    · rw [phaseStep_eRead hp, phaseERead_of_end (hs ▸ hB) hi]
    · rw [pieces_nil, List.flatMap_nil, List.append_nil, ckUpdate_nil, ← hi]
  | cons X hX ih =>
    intro s hq hp hs hi ho
    obtain ⟨t, hst, stage, ulen, slen, ht⟩ := encode_block hq hp (hs ▸ hB) hi ho hX
    rw [hs] at ht
    obtain ⟨u, htu, stage', ulen', slen', hu⟩ := ih t (ht ▸ hq) (ht ▸ rfl) (ht ▸ hs) (ht ▸ rfl) (ht ▸ ho)
    subst ht
    refine ⟨u, ?_, stage', ulen', slen', ?_⟩
    · rw [pieces_cons hB hX, List.length_cons, Nat.mul_succ, Nat.add_right_comm, Nat.add_comm]
      exact hst.trans htu
    · rw [hu, pieces_cons hB hX, List.flatMap_cons, ← List.append_assoc, ← ckUpdate_append, List.take_append_drop]

/-! ## The whole operation -/

/-- A framer that has accepted ENCODE (R131, R132). -/
def State.encodeAccepted (lv : Byte) (B : Word) (s : State) : State :=
  { State.accept .encode .eHdr { s with cmd := none } with level := lv, blockSize := B }

theorem step_encode_accepted {lv : Byte} {B : Word} (hb : s.busy = false)
    (hc : s.cmd = some (encodeCommand 0x01 lv B)) (hr : encodeRefusal lv B = none) :
    step s = .next (s.encodeAccepted lv B) := by
  rw [step_of_cmd hc, takeCommand_encode (cmdOp_encodeCommand _ _ _), cmdLevel_encodeCommand,
    cmdBlockSize_encodeCommand]
  exact exec_encode_accepted hb hr

/-- A framer at the beginning of the Encode loop: the header is out, the accumulator initialised (R171, R172). -/
def State.encodeBegun (s : State) : State :=
  { s with
    phase := .eRead, flags := encFlags, method := methodLzo, ckacc := ckInit
    out := s.out ++ encode (.hdr encFlags methodLzo s.level s.blockSize) }

theorem encode_begin (hq : s.quiet) (hp : s.phase = .eHdr) (ho : s.outWellBehaved) : reaches 2 s s.encodeBegun := by
  obtain ⟨hrun, hwritten, -⟩ := headerEmitted s encFlags methodLzo s.level s.blockSize hp
  have hheader := (hrun hq).trans (hwritten (outReady_of_wellBehaved ho))
  rw [outAns_tail_of_wellBehaved ho] at hheader
  exact (reaches_of_step hheader).trans (reaches_of_step (encodeInitialisesAccumulator _ hq rfl))

/-- The marker and the trailer end an Encode (R180, R181). -/
theorem encode_end (hq : s.quiet) (hp : s.phase = .eEos) (ho : s.outWellBehaved) :
    reaches 2 s { s with phase := .done, ulen := 0, slen := 0, out := s.out ++ containerEnd s.ckacc } := by
  obtain ⟨hrun, hwritten, -⟩ := eosEmitted s 0 hp
  have hmarker := (hrun hq).trans (hwritten (outReady_of_wellBehaved ho))
  rw [outAns_tail_of_wellBehaved ho] at hmarker
  obtain ⟨hrun', hwritten', -⟩ := checksumEmitted
    { s with ulen := 0, slen := 0, phase := .eTrailer, out := s.out ++ (be32 0 ++ be32 0) } (ckFinal s.ckacc) rfl
  have htrailer := (hrun' hq).trans (hwritten' (outReady_of_wellBehaved ho))
  rw [outAns_tail_of_wellBehaved ho] at htrailer
  rw [containerEnd, ← List.append_assoc]
  exact (reaches_of_step hmarker).trans (reaches_of_step htrailer)

/-- Settles O57: the command, the beginning, the loop over the blocks, the end. -/
theorem encodeWritesTheContainer : Obligations.EncodeWritesTheContainer := by
  intro s lv B X hb hh hc hlv hpos hphys hi ho
  have hallowed := encodeRefusal_eq_none_iff.mpr ⟨(levelAllowed_iff lv).mpr hlv, hpos, hphys⟩
  have hcommand := step_encode_accepted hb hc hallowed
  have hbegin := encode_begin (s := s.encodeAccepted lv B) ⟨rfl, hh⟩ rfl ho
  obtain ⟨t, hloop, stage, ulen, slen, ht⟩ :=
    encode_blocks hpos X (s.encodeAccepted lv B).encodeBegun ⟨rfl, hh⟩ rfl rfl hi ho
  have hend := encode_end (s := t) (ht ▸ ⟨rfl, hh⟩) (ht ▸ rfl) (ht ▸ ho)
  have hrun := (((reaches_of_step hcommand).trans hbegin).trans hloop).trans hend
  rw [show 1 + 2 + (2 * (pieces B.toNat X).length + 1) + 2 = 2 * (pieces B.toNat X).length + 6 by omega] at hrun
  refine ⟨_, hrun, rfl, ht ▸ rfl, ht ▸ rfl, ht ▸ rfl, ht ▸ rfl, ?_⟩
  subst ht
  rw [container_eq]
  simp only [← List.append_assoc]
  rfl

end Sys2Proof.Machine
end

section
/-! PROOF. The round trip (R235): the run of a DECODE over the container an ENCODE writes. -/

namespace Sys2Proof.Machine

variable {s : State}

/-! ## The beginning of a Decode -/

theorem takeCommand_decode {w : CmdWord} (h : cmdOp w = 0x02) :
    takeCommand w s = exec (.decode (cmdLevel w) (cmdBlockSize w)) s := by
  have h1 : cmdOp w ≠ 0x01 := by rw [h]; decide
  simp only [takeCommand, decodeCommand, if_neg h1, if_pos h]

/-- A framer that has accepted DECODE (R131, R134). -/
def State.decodeAccepted (s : State) : State := (State.accept .decode .dMagic { s with cmd := none }).ckReset

theorem step_decode_accepted {w : CmdWord} (hb : s.busy = false) (hc : s.cmd = some w) (hw : cmdOp w = 0x02) :
    step s = .next s.decodeAccepted := by
  rw [step_of_cmd hc, takeCommand_decode hw]
  exact exec_decode_accepted hb

/-- A framer at the beginning of the Decode loop: the header's registers are latched, and `W` is what follows it
(R201, R204, R208). -/
def State.decodeBegun (f : Word) (m lv : Byte) (B : Word) (W : Bytes) (s : State) : State :=
  { s with phase := .dUlen, flags := f, method := m, level := lv, blockSize := B, inp := W.map .byte }

theorem decode_begin {f : Word} {m lv : Byte} {B : Word} {W : Bytes} (hq : s.quiet) (hp : s.phase = .dMagic)
    (hr : headerRejection m B = none) (hi : s.inCarries (encode (.hdr f m lv B) ++ W)) :
    reaches 3 s (s.decodeBegun f m lv B W) := by
  have hmagic := phaseStep_dMagic_of_magic (rest := (headerTail f m lv B ++ W).map .byte) hp
    (by rw [hi, encode_hdr, List.append_assoc, List.map_append])
  have hfields := phaseStep_dHdr_of_bytes (b := headerTail f m lv B) (rest := W.map .byte)
    (s := { s with phase := .dHdr, inp := (headerTail f m lv B ++ W).map .byte }) rfl rfl List.map_append
  rw [headerFields_headerTail, exec_hdr_dHdr rfl, latchHeader_accepted hr] at hfields
  exact ((reaches_of_phaseStep hq hmagic).trans (reaches_of_phaseStep hq hfields)).trans
    (reaches_of_phaseStep hq (phaseStep_dAlloc rfl))

/-! ## A block record -/

/-- With a block's original bytes known, `D_BLOCK` delivers them (R218, R220, R221). -/
theorem exec_blockOf_dBlock {u v : Word} {p d : Bytes} (hp : s.phase = .dBlock)
    (h : originalBytes s.codec u v p = .ok d) : exec (blockOf u v p) s = deliver d s := by
  unfold originalBytes at h
  unfold blockOf
  split at h
  case isTrue heq =>
    cases h
    rw [if_pos heq, exec_blkS_dBlock hp]
  case isFalse hne =>
    rw [if_neg hne]
    rcases exec_blkC_dBlock (u := u) (d := p) hp with ⟨hx, -⟩ | ⟨x, hx, ⟨hlen, -⟩ | ⟨hlen, hdeliver⟩⟩ <;>
      rw [hx] at h <;> dsimp only at h
    · cases h
    · rw [if_pos hlen] at h
      cases h
    · rw [if_neg (not_not_intro hlen)] at h
      cases h
      exact hdeliver

theorem phaseStep_dBlock_of_original {d : Bytes} (hp : s.phase = .dBlock)
    (hfits : s.slen.toNat ≤ stageCapOf s.blockSize.toNat)
    (h : originalBytes s.codec s.ulen s.slen (s.stage.bytesAt 0 s.slen.toNat) = .ok d) (hd : d ≠ [])
    (hr : s.outReady = true) : phaseStep s = .next (((s.wrote d).ckFold d).goto .dUlen) := by
  rw [phaseStep_dBlock hp, held_of_fits hp hfits, runOperation, exec_blockOf_dBlock hp h]
  exact writeThen_of_ready hd hr

theorem oversize_eq_false {cap : Nat} {v : Word} (h : v.toNat ≤ cap) : oversize cap v = false :=
  decide_eq_false (Nat.not_lt_of_le h)

/-- A stored length within StageCap is latched and accepted (R212, R213). -/
theorem latchSlen_of_fits {v : Word} (hp : s.phase = .dSlen) (h : v.toNat ≤ stageCapOf s.blockSize.toNat) :
    latchSlen v s = .next { s with slen := v, phase := .dData } := by
  unfold latchSlen
  rw [stageCap_of_decode (.inl hp)]
  dsimp only
  rw [oversize_eq_false h, if_neg Bool.false_ne_true]

/-- Stored bytes within StageCap go to STAGE (R214). -/
theorem storeStored_of_fits {b : Bytes} (hp : s.phase = .dData) (h : b.length ≤ stageCapOf s.blockSize.toNat) :
    storeStored b s = .next { s with stage := s.stage.write 0 b, phase := .dBlock } := by
  unfold storeStored
  rw [memWrite_of_le (stageCap_of_decode (.inr (.inl hp))) h]
  rfl

/-- The four phases of a block record whose stored bytes `p` stand for `Y` deliver `Y` (R210 to R221). -/
theorem decode_record {u : Word} {p Y W : Bytes} (hq : s.quiet) (hp : s.phase = .dUlen) (ho : s.outWellBehaved)
    (hu : u ≠ 0) (hlt : p.length < 2 ^ 32) (hfits : p.length ≤ stageCapOf s.blockSize.toNat)
    (hY : originalBytes s.codec u (BitVec.ofNat 32 p.length) p = .ok Y) (hne : Y ≠ [])
    (hi : s.inCarries (blockBytes u p ++ W)) :
    ∃ t, reaches 4 s t ∧ progress s .dUlen W (ckUpdate s.ckacc Y) (s.out ++ Y) t := by
  have hlen := lengthField_toNat hlt
  generalize hv : BitVec.ofNat 32 p.length = v at hlen hY
  have hi' : s.inp = (be32 u).map .byte ++ (be32 v ++ (p ++ W)).map .byte := by
    rw [hi, blockBytes, hv, List.append_assoc, List.append_assoc, List.map_append]
  have hulen := phaseStep_dUlen_of_word hp hi'
  rw [latchUlen, if_neg hu] at hulen
  have hslen := (phaseStep_dSlen_of_word (v := v) (rest := (p ++ W).map .byte)
    (s := { s with ulen := u, phase := .dSlen, inp := (be32 v ++ (p ++ W)).map .byte }) rfl List.map_append).trans
    (latchSlen_of_fits rfl (hlen.trans_le hfits))
  have hdata := (phaseStep_dData_of_bytes (b := p) (rest := W.map .byte)
    (s := { s with ulen := u, slen := v, phase := .dData, inp := (p ++ W).map .byte }) rfl hlen.symm
    List.map_append).trans (storeStored_of_fits rfl hfits)
  have hblock := phaseStep_dBlock_of_original (d := Y)
    (s := { s with
      ulen := u, slen := v, phase := .dBlock, inp := W.map .byte, stage := s.stage.write 0 p }) rfl
    (hlen.trans_le hfits) (by rw [hlen, Memory.bytesAt_write]; exact hY) hne (outReady_of_wellBehaved ho)
  refine ⟨_, (((reaches_of_phaseStep hq hulen).trans (reaches_of_phaseStep hq hslen)).trans
    (reaches_of_phaseStep hq hdata)).trans (reaches_of_phaseStep hq hblock), s.stage.write 0 p, u, v, ?_⟩
  rw [State.wrote]
  dsimp only
  rw [outAns_tail_of_wellBehaved ho]
  rfl

/-! ## The records an Encode writes -/

/-- What a Decode with block size `bs` needs of a block to give it back: a length that a record can carry and STAGE can
hold, a codec that turns its form back (R245), and no tie that is not the block itself (R235). -/
structure Recoverable (c : Codec) (lv : Byte) (bs : Nat) (Y : Bytes) : Prop where
  pos : 1 ≤ Y.length
  lt : Y.length < 2 ^ 32
  fits : Y.length ≤ stageCapOf bs
  givesBack : c.givesBack lv Y
  tie : (codecCompress c lv Y).length ≠ Y.length ∨ codecCompress c lv Y = Y

theorem originalBytes_of_stored (c : Codec) (v : Word) (p : Bytes) : originalBytes c v v p = .ok p := if_pos rfl

theorem originalBytes_of_codec {c : Codec} {u v : Word} {p d : Bytes} (hne : v ≠ u)
    (hc : codecDecompress c p u = some d) (hlen : d.length = u.toNat) : originalBytes c u v p = .ok d := by
  rw [originalBytes, if_neg hne, hc]
  exact if_neg (not_not_intro hlen)

theorem Recoverable.lengthField_ne_zero {c : Codec} {lv : Byte} {bs : Nat} {Y : Bytes} (h : Recoverable c lv bs Y) :
    BitVec.ofNat 32 Y.length ≠ 0 := fun h0 => by
  have hpos := h.pos
  rw [← lengthField_toNat h.lt, h0] at hpos
  exact absurd hpos (by decide)

/-- The record of a block is one whose stored bytes stand for the block and are no longer than it (R179). -/
theorem Recoverable.recordBytes_eq {c : Codec} {lv : Byte} {bs : Nat} {Y : Bytes} (h : Recoverable c lv bs Y) :
    ∃ p, recordBytes c lv Y = blockBytes (BitVec.ofNat 32 Y.length) p ∧ p.length ≤ Y.length ∧
      originalBytes c (BitVec.ofNat 32 Y.length) (BitVec.ofNat 32 p.length) p = .ok Y := by
  unfold recordBytes
  split
  case isTrue => exact ⟨Y, rfl, Nat.le_refl _, originalBytes_of_stored c _ Y⟩
  case isFalse hshort =>
    have hle := Nat.le_of_not_lt hshort
    refine ⟨codecCompress c lv Y, rfl, hle, ?_⟩
    rcases h.tie with hne | heq
    · refine originalBytes_of_codec (fun hfield => hne ?_) h.givesBack (lengthField_toNat h.lt).symm
      rw [← lengthField_toNat (Nat.lt_of_le_of_lt hle h.lt), hfield, lengthField_toNat h.lt]
    · rw [heq]
      exact originalBytes_of_stored c _ Y

/-- The passes of the Decode loop over the records of recoverable blocks deliver the blocks (R234). -/
theorem decode_blocks (Ys : List Bytes) {lv : Byte} {W : Bytes} :
    ∀ s : State, s.quiet → s.phase = .dUlen → s.outWellBehaved →
      (∀ Y ∈ Ys, Recoverable s.codec lv s.blockSize.toNat Y) →
      s.inCarries (Ys.flatMap (recordBytes s.codec lv) ++ W) →
      ∃ n t, reaches n s t ∧ progress s .dUlen W (ckUpdate s.ckacc Ys.flatten) (s.out ++ Ys.flatten) t := by
  induction Ys with
  | nil =>
    intro s hq hp ho _ hi
    refine ⟨0, s, rfl, s.stage, s.ulen, s.slen, ?_⟩
    rw [List.flatten_nil, List.append_nil, ckUpdate_nil, ← hp]
    exact congrArg (fun i => { s with inp := i }) hi
  | cons Y Ys ih =>
    intro s hq hp ho hYs hi
    have hY := hYs Y List.mem_cons_self
    obtain ⟨p, hrecord, hle, horiginal⟩ := hY.recordBytes_eq
    rw [List.flatMap_cons, hrecord, List.append_assoc] at hi
    obtain ⟨t, hst, stage, ulen, slen, ht⟩ := decode_record hq hp ho hY.lengthField_ne_zero
      (Nat.lt_of_le_of_lt hle hY.lt) (hle.trans hY.fits) horiginal (List.length_pos_iff.mp hY.pos) hi
    obtain ⟨n, u, htu, stage', ulen', slen', hu⟩ := ih t (ht ▸ hq) (ht ▸ rfl) (ht ▸ ho)
      (ht ▸ fun Z hZ => hYs Z (List.mem_cons_of_mem Y hZ)) (ht ▸ rfl)
    subst ht
    refine ⟨4 + n, u, hst.trans htu, stage', ulen', slen', ?_⟩
    rw [hu, List.flatten_cons, ← List.append_assoc, ← ckUpdate_append]

/-! ## The end of a Decode -/

/-- The marker and a matching trailer end a Decode (R210, R226, R230). -/
theorem decode_end {W : Bytes} (hq : s.quiet) (hp : s.phase = .dUlen) (hf : cksumFlag s.flags = true)
    (hi : s.inCarries (containerEnd s.ckacc ++ W)) :
    reaches 3 s { s with
      phase := .done, ulen := 0, slen := 0, ckrx := ckFinal s.ckacc, ckchk := true, inp := W.map .byte } := by
  have hulen := phaseStep_dUlen_of_word (u := 0) (rest := (be32 0 ++ (be32 (ckFinal s.ckacc) ++ W)).map .byte) hp hi
  rw [latchUlen, if_pos rfl] at hulen
  have heos := (phaseStep_dEos_of_word (v := 0) (rest := (be32 (ckFinal s.ckacc) ++ W).map .byte)
    (s := { s with ulen := 0, phase := .dEos, inp := (be32 0 ++ (be32 (ckFinal s.ckacc) ++ W)).map .byte })
    rfl List.map_append).trans (exec_eos_dEos rfl)
  have htrailer := (phaseStep_dTrailer_of_word (v := ckFinal s.ckacc) (rest := W.map .byte)
    (s := { s with ulen := 0, slen := 0, phase := .dTrailer, inp := (be32 (ckFinal s.ckacc) ++ W).map .byte })
    rfl hf List.map_append).trans ((exec_cksum_of_set (s := { s with
      ulen := 0, slen := 0, phase := .dTrailer, inp := W.map .byte }) rfl hf).trans (checkTrailer_of_match rfl))
  exact ((reaches_of_phaseStep hq hulen).trans (reaches_of_phaseStep hq heos)).trans
    (reaches_of_phaseStep hq htrailer)

/-! ## The whole operation -/

/-- Settles O59: every block of the data is recoverable, so the Decode loop delivers what the Encode loop took. -/
theorem decodeOfEncodedContainer : Obligations.DecodeOfEncodedContainer := by
  intro s w lv B X rest hb hh hc hw hmin hmax hback htie hi ho
  have hB : 1 ≤ B.toNat := by omega
  have hblocks : ∀ Y ∈ pieces B.toNat X, Recoverable s.codec lv B.toNat Y := fun Y hY => by
    obtain ⟨hpos, hle⟩ := pieces_length hB X.length X (Nat.le_refl _) Y hY
    exact ⟨hpos, Nat.lt_of_le_of_lt hle B.isLt, by rw [stageCapOf_eq]; omega, hback Y hY, htie Y hY⟩
  rw [container_eq, List.append_assoc, List.append_assoc] at hi
  have hbegin := decode_begin (s := s.decodeAccepted) ⟨rfl, hh⟩ rfl
    ((headerRejection_none_iff methodLzo B).mpr ⟨rfl, hmin, hmax⟩) hi
  obtain ⟨n, t, hloop, stage, ulen, slen, ht⟩ := decode_blocks (pieces B.toNat X)
    (s.decodeAccepted.decodeBegun encFlags methodLzo lv B
      ((pieces B.toNat X).flatMap (recordBytes s.codec lv) ++ (containerEnd (ckUpdate ckInit X) ++ rest)))
    ⟨rfl, hh⟩ rfl ho hblocks rfl
  rw [pieces_flatten hB] at ht
  have hend := decode_end (s := t) (W := rest) (ht ▸ ⟨rfl, hh⟩) (ht ▸ rfl) (ht ▸ cksumFlag_encFlags)
    (ht ▸ rfl)
  refine ⟨_, _, (((reaches_of_step (step_decode_accepted hb hc hw)).trans hbegin).trans hloop).trans hend,
    rfl, ht ▸ rfl, rfl, ht ▸ rfl, rfl⟩

end Sys2Proof.Machine
end

section
/-! PROOF. The Decode phases one by one (R201 to R226, R236): the bytes each reads, what it makes of them, and the
end of the input or a failure where bytes are required. -/

namespace Sys2Proof.Machine

variable {s : State}

/-! ## The read of a Decode phase -/

/-- Every Decode phase that makes a read is a step that needs all the bytes of it, and the end of the input raises
`TruncatedStreamError` at `D_DATA` and `IoError(UNEXPECTED_EOI)` elsewhere (R236). -/
theorem phaseStep_of_readCall {k : Nat} (hcall : s.portCall = .read k) (hne : s.phase ≠ .eRead) :
    ∃ f, phaseStep s =
      readThen k (if s.phase = .dData then .truncatedShortBlock else .ioUnexpectedEoi) s f := by
  cases hp : s.phase <;> simp only [State.portCall, hp, reduceCtorEq] at hcall
  case eRead => exact absurd hp hne
  case dBlock => exact absurd hcall (heldWrite_ne_read _ _ _)
  case eHdr | eBlock | eEos | eTrailer => split at hcall <;> cases hcall
  case dTrailer =>
    split at hcall
    case isFalse => cases hcall
    case isTrue hf => cases hcall; exact ⟨_, phaseStep_dTrailer_of_set hp hf⟩
  all_goals cases hcall
  case dMagic => exact ⟨_, phaseStep_dMagic hp⟩
  case dHdr => exact ⟨_, phaseStep_dHdr hp⟩
  case dUlen => exact ⟨_, phaseStep_dUlen hp⟩
  case dSlen => exact ⟨_, phaseStep_dSlen hp⟩
  case dData => exact ⟨_, phaseStep_dData hp⟩
  case dEos => exact ⟨_, phaseStep_dEos hp⟩

/-- Settles O40: with fewer bytes than the phase's read needs, the read raises its error. -/
theorem endOfInputRaises : Obligations.EndOfInputRaises := by
  intro s k b rest ⟨hc, hh⟩ hcall hne hlt
  obtain ⟨f, hstep⟩ := phaseStep_of_readCall hcall hne
  rw [step_of_quiet hc hh, hstep]
  exact ⟨readThen_of_short hlt, readThen_of_fail hlt⟩

/-- `endOfInputRaises` at a phase other than `D_DATA`. -/
theorem step_of_unexpectedEnd {k : Nat} (hq : s.quiet) (hcall : s.portCall = .read k) (hne : s.phase ≠ .eRead)
    (hd : s.phase ≠ .dData) {b : Bytes} (rest : List InEvent) (hlt : b.length < k) :
    (s.inp = b.map .byte →
      step s = .next { s with inp := [], err := some .ioUnexpectedEoi, phase := .failed }) ∧
    (s.inp = b.map .byte ++ .fail :: rest →
      step s = .next { s with inp := rest, err := some .ioInFail, phase := .failed }) := by
  have h := endOfInputRaises s k b rest hq hcall hne hlt
  rwa [if_neg hd] at h

theorem portCall_dMagic (hp : s.phase = .dMagic) : s.portCall = .read 7 := by simp only [State.portCall, hp]
theorem portCall_dHdr (hp : s.phase = .dHdr) : s.portCall = .read 10 := by simp only [State.portCall, hp]
theorem portCall_dUlen (hp : s.phase = .dUlen) : s.portCall = .read 4 := by simp only [State.portCall, hp]
theorem portCall_dSlen (hp : s.phase = .dSlen) : s.portCall = .read 4 := by simp only [State.portCall, hp]
theorem portCall_dData (hp : s.phase = .dData) : s.portCall = .read s.slen.toNat := by simp only [State.portCall, hp]
theorem portCall_dEos (hp : s.phase = .dEos) : s.portCall = .read 4 := by
  simp only [State.portCall, hp, eosRest_eq]

/-! ## The header -/

/-- Settles O30: the seven bytes are compared after they have been consumed. -/
theorem magicCompared : Obligations.MagicCompared := by
  intro s b rest hq hp
  have hbytes (hb : b.length = 7) (hi : s.inp = b.map .byte ++ rest) : step s =
      if b ≠ magic then .next (State.raise .formatBadMagic { s with inp := rest })
      else .next (State.goto .dHdr { s with inp := rest }) := by
    rw [step_of_quiet hq.1 hq.2, phaseStep_dMagic hp, phaseDMagic, readThen_of_bytes hb hi]
  have hshort := step_of_unexpectedEnd (b := b) hq (portCall_dMagic hp) (by simp [hp]) (by simp [hp]) rest
  refine ⟨fun hb hi hm => ?_, fun hb hi hm => ?_, fun hlt => (hshort hlt).1, fun hlt => (hshort hlt).2⟩
  · exact (hbytes hb hi).trans (if_neg (not_not_intro hm))
  · exact (hbytes hb hi).trans (if_pos hm)

/-- Ten bytes are a header's fields, the last four of them its block size (R92). -/
theorem headerFields_of_length {b : Bytes} (h : b.length = 10) :
    headerFields b = .hdr (unbe32 (b.take 4)) (b.getD 4 0) (b.getD 5 0) (unbe32 (b.drop 6)) := by
  rw [headerFields, List.take_of_length_le (l := b.drop 6) (by rw [List.length_drop, h])]

/-- Settles O31: the step is HDR of the ten bytes' fields, and HDR is the latch with the checks' verdict behind it. -/
theorem headerConsumed : Obligations.HeaderConsumed := by
  refine ⟨fun s b rest hq hp => ?_, fun s f m lv bs hp => ?_⟩
  · have hshort := step_of_unexpectedEnd (b := b) hq (portCall_dHdr hp) (by simp [hp]) (by simp [hp]) rest
    refine ⟨fun hb hi => ?_, fun hlt => (hshort hlt).1, fun hlt => (hshort hlt).2⟩
    rw [step_of_quiet hq.1 hq.2, phaseStep_dHdr_of_bytes hp hb hi, headerFields_of_length hb]
  · rw [exec_hdr_dHdr hp]
    refine ⟨fun hm hmin hmax => ?_, fun hm => ?_, fun hm hbs => ?_⟩
    · exact latchHeader_accepted ((headerRejection_none_iff m bs).mpr ⟨hm, hmin, hmax⟩)
    · exact latchHeader_rejected (headerRejection_method hm)
    · exact latchHeader_rejected (headerRejection_blockSize hm hbs)

/-- Settles O32: HDR and the step only move on, and StageCap is a function of the phase they move to. -/
theorem stagingBufferSized : Obligations.StagingBufferSized := by
  refine fun s f m lv bs => ⟨exec_hdr_dMagic, fun hp => ⟨exec_hdr_dAlloc hp, fun ⟨hc, hh⟩ => ?_, ?_⟩⟩
  · exact (step_of_quiet hc hh).trans (phaseStep_dAlloc hp)
  · show some (stageCapOf s.blockSize.toNat) = _
    rw [stageCapOf_eq]

/-! ## A block's lengths and stored bytes -/

/-- Settles O33: the four bytes are latched, and zero decides the phase. -/
theorem uncompressedLengthRead : Obligations.UncompressedLengthRead := by
  intro s b rest hq hp
  have hbytes (hb : b.length = 4) (hi : s.inp = b.map .byte ++ rest) :
      step s = latchUlen (unbe32 b) { s with inp := rest } := by
    rw [step_of_quiet hq.1 hq.2, phaseStep_dUlen hp, phaseDUlen, readThen_of_bytes hb hi]
  have hshort := step_of_unexpectedEnd (b := b) hq (portCall_dUlen hp) (by simp [hp]) (by simp [hp]) rest
  refine ⟨fun hb hi hu => ?_, fun hb hi hu => ?_, fun hlt => (hshort hlt).1, fun hlt => (hshort hlt).2⟩
  · rw [hbytes hb hi, hu]; rfl
  · rw [hbytes hb hi, latchUlen, if_neg hu]

/-- A stored length above StageCap is latched and refused (R212, R213). -/
theorem latchSlen_of_oversize {v : Word} (hp : s.phase = .dSlen) (h : stageCapOf s.blockSize.toNat < v.toNat) :
    latchSlen v s = .next { s with slen := v, err := some .corruptStageOversize, phase := .failed } := by
  unfold latchSlen
  rw [stageCap_of_decode (.inl hp)]
  exact if_pos (decide_eq_true h)

/-- Settles O34: the latched length is compared with StageCap alone. -/
theorem storedLengthRead : Obligations.StoredLengthRead := by
  intro s b rest ⟨hc, hh⟩ hp hb hi
  rw [step_of_quiet hc hh, phaseStep_dSlen hp, phaseDSlen, readThen_of_bytes hb hi]
  exact ⟨latchSlen_of_fits (s := { s with inp := rest }) hp, latchSlen_of_oversize (s := { s with inp := rest }) hp⟩

/-- The stored bytes, there and within StageCap, are in STAGE (R214). -/
theorem step_dData_of_bytes {b : Bytes} {rest : List InEvent} (hq : s.quiet) (hp : s.phase = .dData)
    (hfits : s.slen.toNat ≤ stageCapOf s.blockSize.toNat) (hb : b.length = s.slen.toNat)
    (hi : s.inp = b.map .byte ++ rest) :
    step s = .next { s with inp := rest, stage := s.stage.write 0 b, phase := .dBlock } := by
  rw [step_of_quiet hq.1 hq.2, phaseStep_dData_of_bytes hp hb hi]
  exact storeStored_of_fits hp (hb.trans_le hfits)

/-- Settles O35: the bytes are written at index 0, where a byte of STAGE reads as written or as before. -/
theorem storedBytesRead : Obligations.StoredBytesRead := by
  intro s b rest hq hp hfits
  have hshort := endOfInputRaises s s.slen.toNat b rest hq (portCall_dData hp) (by simp [hp])
  rw [if_pos hp] at hshort
  refine ⟨fun hb hi => ?_, fun hlt => (hshort hlt).1, fun hlt => (hshort hlt).2⟩
  exact ⟨s.stage.write 0 b, step_dData_of_bytes hq hp hfits hb hi, Memory.byteAt_write_zero s.stage b⟩

/-! ## A block's original bytes -/

/-- Original bytes that OUT takes are then folded in (R218, R221). -/
theorem deliver_of_ready {d : Bytes} (hd : d ≠ []) (hr : s.outReady = true) :
    deliver d s = .next
      { s with out := s.out ++ d, outAns := s.outAns.tail, ckacc := ckUpdate s.ckacc d, phase := .dUlen } :=
  writeThen_of_ready hd hr

/-- Original bytes that OUT does not take whole are not folded in (R218, R221). -/
theorem deliver_of_fail {d : Bytes} {n : Nat} {t : List OutAnswer} (hd : d ≠ []) (ha : s.outAns = .fail n :: t) :
    deliver d s = .next { s with out := s.out ++ d.take n, outAns := t, err := some .ioOutFail, phase := .failed } := by
  rw [deliver, writeThen_of_fail hd ha, State.wrote, ha]
  rfl

/-- Settles O36: at `D_BLOCK` a stored block's bytes are its original ones. -/
theorem storedBlockConsumed : Obligations.StoredBlockConsumed := by
  intro s d hp hpos
  rw [exec_blkS_dBlock hp]
  have hd := List.length_pos_iff.mp hpos
  exact ⟨deliver_of_ready hd, fun n t => deliver_of_fail hd⟩

/-- A length field other than 0 is that of bytes. -/
theorem ne_nil_of_length_eq {d : Bytes} {u : Word} (hu : u ≠ 0) (h : d.length = u.toNat) : d ≠ [] := by
  rintro rfl
  exact hu (BitVec.eq_of_toNat_eq h.symm)

/-- Settles O37: the codec's answer is checked, then delivered. -/
theorem compressedBlockConsumed : Obligations.CompressedBlockConsumed := by
  intro s u p hp hu
  rw [exec_blkC_dBlock_eq hp]
  refine ⟨fun hc => ?_, fun d hc hlen => ?_, fun d hc hlen hr => ?_, fun d n t hc hlen ha => ?_⟩ <;>
    rw [hc] <;> dsimp only
  · rfl
  · exact if_pos hlen
  · rw [if_neg (not_not_intro hlen), deliver_of_ready (ne_nil_of_length_eq hu hlen) hr]
  · rw [if_neg (not_not_intro hlen), deliver_of_fail (ne_nil_of_length_eq hu hlen) ha]

/-- Settles O38: at `D_EOS` the second field is latched, at `D_ULEN` the first. -/
theorem eosConsumed : Obligations.EosConsumed := fun _ _ => ⟨exec_eos_dEos, exec_eos_dUlen⟩

end Sys2Proof.Machine
end

section
/-! PROOF. A whole Decode (R234): the run of an accepted DECODE with well-behaved ports, over any input. Each phase is
followed to its end, the last phases first. -/

namespace Sys2Proof.Machine

variable {s t : State} {p : Phase} {W : Bytes} {e : DecodeEnd}

/-! ## The end of a Decode, and the states on the way to it -/

/-- A framer at rest after a Decode that ended so (R232, R234). -/
def DecodeEnd.describes (e : DecodeEnd) (t : State) : Prop :=
  t.busy = false ∧ t.mode = .decode ∧ t.err = e.err ∧ t.out = e.out ∧ t.ckacc = e.acc ∧ t.inp = e.rest.map .byte ∧
    t.ckchk = e.checked ∧ (t.phase = .done ↔ e.err = none)

/-- The Decode in progress at `s` ends so. -/
def endsAs (s : State) (e : DecodeEnd) : Prop := ∃ n t, reaches n s t ∧ e.describes t

theorem endsAs_of_step (h : step s = .next t) (ht : endsAs t e) : endsAs s e :=
  have ⟨n, u, hrun, hu⟩ := ht
  ⟨1 + n, u, (reaches_of_step h).trans hrun, hu⟩

theorem endsAs_of_last_step (h : step s = .next t) (ht : e.describes t) : endsAs s e := ⟨1, t, reaches_of_step h, ht⟩

/-- A Decode in progress at the phase `p`, with `W` before it and a silent host. -/
structure Decoding (s : State) (p : Phase) (W : Bytes) : Prop where
  quiet : s.quiet
  phase : s.phase = p
  mode : s.mode = .decode
  unchecked : s.ckchk = false
  noError : s.err = none
  input : s.inCarries W
  output : s.outWellBehaved

theorem Decoding.goto (h : Decoding s p W) (q : Phase) : Decoding (s.goto q) q W := { h with phase := rfl }

/-- What a read of `k` bytes takes stands on IN in front of the rest. -/
theorem Decoding.inp_eq (h : Decoding s p W) (k : Nat) : s.inp = (W.take k).map .byte ++ (W.drop k).map .byte := by
  rw [← List.map_append, List.take_append_drop]
  exact h.input

/-- A raise ends the Decode where it is (R270). -/
theorem Decoding.describes_raise (h : Decoding s p W) (c : Cause) :
    DecodeEnd.describes ⟨some c, s.out, s.ckacc, W, false⟩ (s.raise c) :=
  ⟨rfl, h.mode, rfl, rfl, rfl, h.input, h.unchecked, by simp⟩

/-- The input ends where the phase requires `k` bytes (R236). -/
theorem Decoding.endsAs_early {k : Nat} (h : Decoding s p W) (hcall : s.portCall = .read k) (hne : p ≠ .eRead)
    (hlt : W.length < k) :
    endsAs s (endedEarly (if p = .dData then .truncatedShortBlock else .ioUnexpectedEoi) s.out s.ckacc) := by
  rw [← h.phase] at hne ⊢
  have hstep := (endOfInputRaises s k W [] h.quiet hcall hne hlt).1 h.input
  have hempty : Decoding { s with inp := [] } p [] := { h with input := rfl }
  exact endsAs_of_last_step hstep (hempty.describes_raise _)

/-! ## Behind the marker -/

/-- The trailer is read and compared when the flag says that there is one, and the Decode ends (R230). -/
theorem decode_dTrailer (h : Decoding s .dTrailer W) : endsAs s (decodeTrailer s.flags s.out s.ckacc W) := by
  obtain ⟨hskip, hread, -⟩ := trailerChecked s (W.take 4) ((W.drop 4).map .byte) 0 h.phase
  unfold decodeTrailer
  split
  case isTrue hf =>
    exact endsAs_of_last_step (hskip h.quiet hf)
      ⟨rfl, h.mode, h.noError, rfl, rfl, h.input, h.unchecked, by simp⟩
  case isFalse hf =>
    replace hf := Bool.eq_true_of_not_eq_false hf
    split
    case isTrue hlt =>
      have hcall : s.portCall = .read 4 := by simp only [State.portCall, h.phase, hf, if_true]
      exact h.endsAs_early hcall nofun hlt
    case isFalse hlt =>
      have hstep := hread h.quiet hf (List.length_take_of_le (Nat.le_of_not_lt hlt)) (h.inp_eq 4)
      obtain ⟨-, -, -, -, -, hmatch, hmismatch⟩ := trailerChecked
        { s with inp := (W.drop 4).map .byte } [] [] (unbe32 (W.take 4)) h.phase
      split
      case isTrue hne =>
        exact endsAs_of_last_step (hstep.trans (hmismatch hf hne))
          ⟨rfl, h.mode, rfl, rfl, rfl, rfl, h.unchecked, by simp⟩
      case isFalse heq =>
        exact endsAs_of_last_step (hstep.trans (hmatch hf (not_not.mp heq)))
          ⟨rfl, h.mode, h.noError, rfl, rfl, rfl, rfl, by simp⟩

theorem decode_dEos (h : Decoding s .dEos W) (hlen : 4 ≤ W.length) :
    endsAs s (decodeTrailer s.flags s.out s.ckacc (W.drop 4)) := by
  have hstep : step s = .next
      { s with inp := (W.drop 4).map .byte, slen := unbe32 (W.take 4), phase := .dTrailer } := by
    rw [step_of_quiet h.quiet.1 h.quiet.2, phaseStep_dEos h.phase, phaseDEos_eq,
      readThen_of_bytes (List.length_take_of_le hlen) (h.inp_eq 4)]
    exact exec_eos_dEos h.phase
  refine endsAs_of_step hstep (decode_dTrailer ?_)
  exact { h with phase := rfl, input := rfl }

/-! ## A block -/

/-- Stored bytes that stand for none raise their error at `D_BLOCK` (R220). -/
theorem exec_blockOf_dBlock_error {u v : Word} {b : Bytes} {c : Cause} (hp : s.phase = .dBlock)
    (h : originalBytes s.codec u v b = .error c) : exec (blockOf u v b) s = .next (s.raise c) := by
  unfold originalBytes at h
  unfold blockOf
  split at h
  case isTrue => cases h
  case isFalse hne =>
    rw [if_neg hne]
    rcases exec_blkC_dBlock (u := u) (d := b) hp with ⟨hx, hraise⟩ | ⟨x, hx, ⟨hlen, hraise⟩ | ⟨hlen, -⟩⟩ <;>
      rw [hx] at h <;> dsimp only at h
    · cases h
      exact hraise
    · rw [if_pos hlen] at h
      cases h
      exact hraise
    · rw [if_neg (not_not_intro hlen)] at h
      cases h

/-- A block's original bytes are as many as its first length says (R218, R220). -/
theorem length_of_originalBytes {c : Codec} {u v : Word} {b d : Bytes} (hb : b.length = v.toNat)
    (h : originalBytes c u v b = .ok d) : d.length = u.toNat := by
  unfold originalBytes at h
  split at h
  case isTrue heq =>
    cases h
    rw [hb, heq]
  case isFalse =>
    cases hx : codecDecompress c b u with
    | none => rw [hx] at h; cases h
    | some x =>
      rw [hx] at h
      dsimp only at h
      split at h
      case isTrue => cases h
      case isFalse hlen =>
        cases h
        exact not_not.mp hlen

theorem step_dBlock_of_error {c : Cause} (h : Decoding s .dBlock W)
    (hfits : s.slen.toNat ≤ stageCapOf s.blockSize.toNat)
    (ho : originalBytes s.codec s.ulen s.slen (s.stage.bytesAt 0 s.slen.toNat) = .error c) :
    step s = .next (s.raise c) := by
  rw [step_of_quiet h.quiet.1 h.quiet.2, phaseStep_dBlock h.phase, held_of_fits h.phase hfits]
  exact exec_blockOf_dBlock_error h.phase ho

/-- A block whose original bytes are known is delivered (R218, R221). -/
theorem step_dBlock_of_ok {d : Bytes} (h : Decoding s .dBlock W) (hu : s.ulen ≠ 0)
    (hfits : s.slen.toNat ≤ stageCapOf s.blockSize.toNat)
    (ho : originalBytes s.codec s.ulen s.slen (s.stage.bytesAt 0 s.slen.toNat) = .ok d) :
    step s = .next { s with out := s.out ++ d, ckacc := ckUpdate s.ckacc d, phase := .dUlen } := by
  have hd := ne_nil_of_length_eq hu (length_of_originalBytes (Memory.bytesAt_length _ _ _) ho)
  rw [step_of_quiet h.quiet.1 h.quiet.2, phaseStep_dBlock_of_original h.phase hfits ho hd
    (outReady_of_wellBehaved h.output), State.wrote, outAns_tail_of_wellBehaved h.output]
  rfl

/-- With a block's stored bytes on IN, the Decode ends with what is wrong with them, or goes on behind them with their
original bytes delivered (R214 to R221). -/
theorem decode_dData (h : Decoding s .dData W) (hu : s.ulen ≠ 0)
    (hfits : s.slen.toNat ≤ stageCapOf s.blockSize.toNat) (hlen : s.slen.toNat ≤ W.length) :
    (∀ c, originalBytes s.codec s.ulen s.slen (W.take s.slen.toNat) = .error c →
      endsAs s ⟨some c, s.out, s.ckacc, W.drop s.slen.toNat, false⟩) ∧
    (∀ d n, originalBytes s.codec s.ulen s.slen (W.take s.slen.toNat) = .ok d →
      (∀ t, Decoding t .dUlen (W.drop s.slen.toNat) →
        endsAs t (decodeBlocks t.codec t.flags t.blockSize n t.out t.ckacc (W.drop s.slen.toNat))) →
      endsAs s (decodeBlocks s.codec s.flags s.blockSize n (s.out ++ d) (ckUpdate s.ckacc d)
        (W.drop s.slen.toNat))) := by
  have hb := List.length_take_of_le hlen
  have hstep := step_dData_of_bytes h.quiet h.phase hfits hb (h.inp_eq _)
  have hblock : Decoding { s with
      inp := (W.drop s.slen.toNat).map .byte, stage := s.stage.write 0 (W.take s.slen.toNat), phase := .dBlock }
      .dBlock (W.drop s.slen.toNat) := { h with phase := rfl, input := rfl }
  have hstage : (s.stage.write 0 (W.take s.slen.toNat)).bytesAt 0 s.slen.toNat = W.take s.slen.toNat := by
    have hread := Memory.bytesAt_write s.stage (W.take s.slen.toNat)
    rwa [hb] at hread
  rw [← hstage]
  refine ⟨fun c hc => ?_, fun d n hd hnext => ?_⟩
  · exact endsAs_of_step hstep
      (endsAs_of_last_step (step_dBlock_of_error hblock hfits hc) (hblock.describes_raise c))
  · refine endsAs_of_step hstep (endsAs_of_step (step_dBlock_of_ok hblock hu hfits hd) (hnext _ ?_))
    exact { hblock with phase := rfl }

/-! ## The loop -/

/-- A first length of 0 leads behind the marker (R210, R226). -/
theorem decode_marker (n : Nat) (h : Decoding s .dUlen W) (hlen : 4 ≤ W.length) (hu : unbe32 (W.take 4) = 0) :
    endsAs s (decodeBlocks s.codec s.flags s.blockSize (n + 1) s.out s.ckacc W) := by
  obtain ⟨hstep, -⟩ := uncompressedLengthRead s (W.take 4) ((W.drop 4).map .byte) h.quiet h.phase
  have heos : Decoding { s with inp := (W.drop 4).map .byte, ulen := 0, phase := .dEos } .dEos (W.drop 4) :=
    { h with phase := rfl, input := rfl }
  refine endsAs_of_step (hstep (List.length_take_of_le hlen) (h.inp_eq 4) hu) ?_
  rw [decodeBlocks, if_neg (Nat.not_lt_of_le hlen)]
  dsimp only
  rw [if_pos hu]
  split
  case isTrue h8 => exact heos.endsAs_early (portCall_dEos rfl) nofun (by rw [List.length_drop]; omega)
  case isFalse h8 =>
    have hend := decode_dEos heos (by rw [List.length_drop]; omega)
    rwa [List.drop_drop] at hend

/-- A first length other than 0 is a block's; behind it the Decode goes on as `hnext` says. -/
theorem decode_block {n : Nat} (h : Decoding s .dUlen W) (hlen : 4 ≤ W.length) (hu : unbe32 (W.take 4) ≠ 0)
    (hnext : ∀ t V, Decoding t .dUlen V → V.length < W.length →
      endsAs t (decodeBlocks t.codec t.flags t.blockSize n t.out t.ckacc V)) :
    endsAs s (decodeBlocks s.codec s.flags s.blockSize (n + 1) s.out s.ckacc W) := by
  obtain ⟨-, hstep, -⟩ := uncompressedLengthRead s (W.take 4) ((W.drop 4).map .byte) h.quiet h.phase
  have hslen : Decoding
      { s with inp := (W.drop 4).map .byte, ulen := unbe32 (W.take 4), phase := .dSlen } .dSlen (W.drop 4) :=
    { h with phase := rfl, input := rfl }
  refine endsAs_of_step (hstep (List.length_take_of_le hlen) (h.inp_eq 4) hu) ?_
  rw [decodeBlocks, if_neg (Nat.not_lt_of_le hlen)]
  dsimp only
  rw [if_neg hu]
  split
  case isTrue h8 => exact hslen.endsAs_early (portCall_dSlen rfl) nofun (by rw [List.length_drop]; omega)
  case isFalse h8 =>
    obtain ⟨hfits, hover⟩ := storedLengthRead _ _ _ hslen.quiet rfl
      (List.length_take_of_le (by rw [List.length_drop]; omega)) (hslen.inp_eq 4)
    rw [List.drop_drop] at hfits hover
    generalize unbe32 ((W.drop 4).take 4) = v at hfits hover
    have hdata : Decoding { s with
        inp := (W.drop 8).map .byte, ulen := unbe32 (W.take 4), slen := v, phase := .dData } .dData (W.drop 8) :=
      { h with phase := rfl, input := rfl }
    split
    case isTrue hlt =>
      exact endsAs_of_last_step (hover hlt) (hdata.describes_raise _)
    case isFalse hle =>
      replace hle := Nat.le_of_not_lt hle
      refine endsAs_of_step (hfits hle) ?_
      split
      case isTrue hlt => exact hdata.endsAs_early (portCall_dData rfl) nofun hlt
      case isFalse hge =>
        obtain ⟨herror, hok⟩ := decode_dData hdata hu hle (Nat.le_of_not_lt hge)
        split
        case h_1 c hc => exact herror c hc
        case h_2 d hd =>
          refine hok d n hd fun t ht => hnext t _ ht ?_
          rw [List.length_drop, List.length_drop]
          omega

/-- The passes of the loop of R234, with as many of them as there are bytes. -/
theorem decode_dUlen (n : Nat) : ∀ (s : State) (W : Bytes), Decoding s .dUlen W → W.length < n →
    endsAs s (decodeBlocks s.codec s.flags s.blockSize n s.out s.ckacc W) := by
  induction n with
  | zero => exact fun _ _ _ hn => absurd hn (Nat.not_lt_zero _)
  | succ n ih =>
    intro s W h hn
    by_cases hlt : W.length < 4
    · rw [decodeBlocks, if_pos hlt]
      exact h.endsAs_early (portCall_dUlen h.phase) nofun hlt
    · by_cases hu : unbe32 (W.take 4) = 0
      · exact decode_marker n h (Nat.le_of_not_lt hlt) hu
      · exact decode_block h (Nat.le_of_not_lt hlt) hu fun t V ht hV => ih t V ht (by omega)

/-! ## The header -/

/-- The fields of the ten bytes behind the magic, by their places in the container (R92). -/
theorem headerFields_take_drop (W : Bytes) :
    headerFields ((W.drop 7).take 10) =
      .hdr (unbe32 ((W.drop 7).take 4)) (W.getD 11 0) (W.getD 12 0) (unbe32 ((W.drop 13).take 4)) := by
  simp [headerFields, List.take_take, List.drop_take, List.getD_eq_getElem?_getD]

/-- Behind an accepted header the loop begins, once STAGE is sized (R208). -/
theorem decode_dAlloc (h : Decoding s .dAlloc W) {n : Nat} (hn : W.length < n) :
    endsAs s (decodeBlocks s.codec s.flags s.blockSize n s.out s.ckacc W) := by
  have hstep := (step_of_quiet h.quiet.1 h.quiet.2).trans (phaseStep_dAlloc h.phase)
  exact endsAs_of_step hstep (decode_dUlen n _ W (h.goto .dUlen) hn)

/-- Behind a matching magic, the Decode ends as the header says, or as the loop does (R204 to R208). -/
theorem decode_dHdr (h : Decoding s .dHdr (W.drop 7)) (hacc : s.ckacc = ckInit) (hlen : 7 ≤ W.length)
    (hm : W.take 7 = magic) : endsAs s (decodeStream s.codec s.out W) := by
  rw [decodeStream, if_neg (Nat.not_lt_of_le hlen), if_neg (not_not_intro hm), ← hacc]
  split
  case isTrue h17 => exact h.endsAs_early (portCall_dHdr h.phase) nofun (by rw [List.length_drop]; omega)
  case isFalse h17 =>
    have hread := phaseStep_dHdr_of_bytes h.phase
      (List.length_take_of_le (by rw [List.length_drop]; omega)) (h.inp_eq 10)
    rw [headerFields_take_drop, List.drop_drop, ← step_of_quiet h.quiet.1 h.quiet.2] at hread
    dsimp only
    generalize unbe32 ((W.drop 7).take 4) = f at hread ⊢
    generalize W.getD 11 0 = m at hread ⊢
    generalize W.getD 12 0 = lv at hread
    generalize unbe32 ((W.drop 13).take 4) = B at hread ⊢
    obtain ⟨haccept, hmethod, hsize⟩ :=
      headerConsumed.2 { s with inp := (W.drop 17).map .byte } f m lv B h.phase
    have hlatched : Decoding { s with
        inp := (W.drop 17).map .byte, flags := f, method := m, level := lv, blockSize := B } .dHdr (W.drop 17) :=
      { h with input := rfl }
    split
    case isTrue hne =>
      exact endsAs_of_last_step (hread.trans (hmethod hne)) (hlatched.describes_raise _)
    case isFalse heq =>
      replace heq := not_not.mp heq
      split
      case isTrue hout => exact endsAs_of_last_step (hread.trans (hsize heq hout)) (hlatched.describes_raise _)
      case isFalse hin =>
        have hn : (W.drop 17).length < W.length + 1 := by rw [List.length_drop]; omega
        exact endsAs_of_step (hread.trans (haccept heq (by omega) (by omega)))
          (decode_dAlloc (hlatched.goto .dAlloc) hn)

/-! ## The whole operation -/

/-- From its acceptance on, a Decode ends as the stream function says (R201, R202, R234). -/
theorem decode_dMagic (h : Decoding s .dMagic W) (hacc : s.ckacc = ckInit) :
    endsAs s (decodeStream s.codec s.out W) := by
  obtain ⟨hmatch, hbad, -⟩ := magicCompared s (W.take 7) ((W.drop 7).map .byte) h.quiet h.phase
  by_cases hlt : W.length < 7
  · rw [decodeStream, if_pos hlt, ← hacc]
    exact h.endsAs_early (portCall_dMagic h.phase) nofun hlt
  · have hlen := Nat.le_of_not_lt hlt
    have htake := List.length_take_of_le hlen
    have hrest : Decoding { s with inp := (W.drop 7).map .byte } .dMagic (W.drop 7) := { h with input := rfl }
    by_cases hm : W.take 7 = magic
    · exact endsAs_of_step (hmatch htake (h.inp_eq 7) hm)
        (decode_dHdr (hrest.goto .dHdr) hacc hlen hm)
    · rw [decodeStream, if_neg hlt, if_pos hm, ← hacc]
      exact endsAs_of_last_step (hbad htake (h.inp_eq 7) hm) (hrest.describes_raise _)

/-- Settles O58: the command initialises the Decode, and each phase carries on what the stream function says. -/
theorem decodeComputesTheStream : Obligations.DecodeComputesTheStream := by
  intro s w W hb hh hc hw hi ho
  have h : Decoding s.decodeAccepted .dMagic W := ⟨⟨rfl, hh⟩, rfl, rfl, rfl, rfl, hi, ho⟩
  exact endsAs_of_step (step_decode_accepted hb hc hw) (decode_dMagic h rfl)

end Sys2Proof.Machine
end

section
/-! PROOF. The two calls at the CODEC port (44_codec_calls.md). The field an answer is returned in and the table of known
answers are the model's (notes/assumptions/4.md, 5.md). -/

namespace Sys2Proof.Machine

/-! ## What the codec answers -/

theorem codecCompress_of_lookup {c : Codec} {lv : Byte} {b a : Bytes} (h : c.compress.lookup (lv, b) = some a) :
    codecCompress c lv b = a := by
  rw [codecCompress, h, Option.getD_some]

/-- A listed answer may also be that the codec fails. -/
theorem codecDecompress_of_lookup {c : Codec} {p : Bytes} {n : Word} {a : Option Bytes}
    (h : c.decompress.lookup (p, n) = some a) : codecDecompress c p n = a := by
  rw [codecDecompress, h, Option.getD_some]

/-! ## The calls run on their own -/

theorem exec_codecCompress (lv : Byte) (b : Bytes) (s : State) :
    exec (.codecCompress lv b) s = .next { s with ret := .bytes (codecCompress s.codec lv b) } := rfl

theorem exec_codecDecompress (p : Bytes) (n : Word) (s : State) :
    exec (.codecDecompress p n) s = execCodecDecompress p n s := rfl

theorem exec_codecDecompress_of_some {p d : Bytes} {n : Word} {s : State} (h : codecDecompress s.codec p n = some d) :
    exec (.codecDecompress p n) s = .next { s with ret := .bytes d } := by
  rw [exec_codecDecompress, execCodecDecompress, h]

theorem exec_codecDecompress_of_none {p : Bytes} {n : Word} {s : State} (h : codecDecompress s.codec p n = none) :
    exec (.codecDecompress p n) s = .next { s with ret := .codecFail } := by
  rw [exec_codecDecompress, execCodecDecompress, h]

/-- Settles O19: each call returns what the codec answers, and a listed call is answered from the table. -/
theorem codecCallsReturnTheAnswer : Obligations.CodecCallsReturnTheAnswer :=
  ⟨fun s lv b => ⟨exec_codecCompress lv b s, fun _ => codecCompress_of_lookup⟩,
    fun _ _ _ => ⟨fun _ => exec_codecDecompress_of_some, exec_codecDecompress_of_none,
      fun _ => codecDecompress_of_lookup⟩⟩

end Sys2Proof.Machine
end

section
/-! PROOF. Errors and the ports (60_exceptions.md): what an abort keeps (R270, R272), and that no step takes back what has
crossed a port (R271). -/

namespace Sys2Proof.Machine

variable {s t : State}

/-! ## Abort -/

/-- A raise itself writes none of these registers but the error: what differs is what the rule latches before it (R175,
R177, R178, R180, R212, R230). For the header registers see `PhaseNext.flags_method` and `PhaseNext.level_blockSize`. -/
theorem PhaseNext.keeps_of_failed (h : PhaseNext s t) (hb : s.busy = true) (ht : t.phase = .failed) :
    t.err.isSome = true ∧ t.ckchk = s.ckchk ∧ t.stage = s.stage ∧ (s.phase ≠ .eEos → t.ulen = s.ulen) ∧
    (s.phase ≠ .eEos → s.phase ≠ .eBlock → s.phase ≠ .dSlen → t.slen = s.slen) ∧
    (s.phase ≠ .eBlock → t.ckacc = s.ckacc) ∧ (s.phase ≠ .dTrailer → t.ckrx = s.ckrx) := by
  cases h
  case wait => exact absurd ht (s.busy_eq_true_iff.mp hb).2.2
  case readError | eHdrFail | eTrailerFail | dMagicBad | dHdrBad | dBlockBad | dBlockFail =>
    exact ⟨rfl, rfl, rfl, fun _ => rfl, fun _ _ _ => rfl, fun _ => rfl, fun _ => rfl⟩
  case eBlockFail hp _ =>
    exact ⟨rfl, rfl, rfl, fun _ => rfl, fun _ h _ => absurd hp h, fun h => absurd hp h, fun _ => rfl⟩
  case eEosFail hp =>
    exact ⟨rfl, rfl, rfl, fun h => absurd hp h, fun h _ _ => absurd hp h, fun _ => rfl, fun _ => rfl⟩
  case dSlenBad hp _ =>
    exact ⟨rfl, rfl, rfl, fun _ => rfl, fun _ _ h => absurd hp h, fun _ => rfl, fun _ => rfl⟩
  case dTrailerBad hp _ =>
    exact ⟨rfl, rfl, rfl, fun _ => rfl, fun _ _ _ => rfl, fun _ => rfl, fun h => absurd hp h⟩
  case dUlen => simp only at ht; split at ht <;> cases ht
  all_goals cases ht

/-- Settles O43: the framer's own step says which phase writes which register, and which of them can fail. -/
theorem abortKeepsTheRegisters : Obligations.AbortKeepsTheRegisters := by
  intro s t ⟨hc, hh⟩ hb hstep ht
  rw [step_of_quiet hc hh] at hstep
  have hn := phaseStep_next hstep
  obtain ⟨herr, hckchk, hstage, hulen, hslen, hckacc, hckrx⟩ := hn.keeps_of_failed hb ht
  exact ⟨herr, hn.frame.1, hckchk, hstage, fun he hd => hn.flags_method.resolve_left (not_or.mpr ⟨he, hd⟩),
    hn.level_blockSize.resolve_left, hulen, hslen, hckacc, hckrx⟩

/-! ## OUT only grows -/

/-- A rule that writes appends to OUT, the bytes before a failure included (R68); the others leave OUT. -/
theorem PhaseNext.out_prefix (h : PhaseNext s t) : s.out <+: t.out := by
  cases h
  case eHdr | eHdrFail | eBlock | eBlockFail | eEos | eEosFail | eTrailer | eTrailerFail | dBlock | dBlockFail =>
    exact List.prefix_append _ _
  all_goals exact List.prefix_rfl

/-- Of a write that reset cuts a part stays on OUT (R301). -/
theorem State.resetWith_out_prefix (cut : Nat) (s : State) : s.out <+: (s.resetWith cut).out := by
  unfold State.resetWith
  cases s.portCall with
  | write b => exact List.prefix_append _ _
  | none | read => exact List.prefix_rfl

theorem step_out_prefix (hstep : step s = .next t) (ha : s.attachOutNext = false) : s.out <+: t.out := by
  cases step_next hstep with
  | own _ _ hn => exact hn.out_prefix
  | ownMoved l _ _ _ hn => exact hn.out_prefix
  | attachOut a l hc hh => exact absurd ha (by simp [State.attachOutNext, hc, hh])
  | reset cut l => exact State.resetWith_out_prefix cut { s with host := l }
  | read r l =>
    obtain ⟨v, n, -, e⟩ := hostRead_some r { s with host := l }
    rw [e]
  | lost | refused | encode | decode | written | driveIn | driveOut => exact List.prefix_rfl

/-! ## IN only shrinks -/

/-- A rule that reads leaves an end of what IN held, whether the read succeeds or not (R65); the others leave IN. -/
theorem PhaseNext.inp_suffix (h : PhaseNext s t) : t.inp <:+ s.inp := by
  cases h
  case readError rest _ hr => exact hr
  case eReadBlock b rest _ _ _ hi => exact ⟨_, hi.symm⟩
  case dData b rest _ _ _ hi => exact ⟨_, hi.symm⟩
  case eReadEnd hr | dMagic hr | dMagicBad hr | dUlen hr | dSlenBad hr | dEos hr | dTrailerBad hr => exact hr
  case dHdr hr _ _ _ | dTrailer hr _ _ => exact hr
  case dHdrBad hr _ | dSlen hr _ => exact hr
  all_goals exact List.suffix_rfl

theorem dropBytes_suffix (n : Nat) (evs : List InEvent) : dropBytes n evs <:+ evs := by
  induction n generalizing evs with
  | zero => exact List.suffix_rfl
  | succ n ih =>
    match evs with
    | .byte b :: evs => exact (ih evs).trans (List.suffix_cons _ _)
    | [] | .fail :: _ | .stall :: _ => exact List.suffix_rfl

/-- Of a read that reset cuts a part is used up (R301). -/
theorem State.resetWith_inp_suffix (cut : Nat) (s : State) : (s.resetWith cut).inp <:+ s.inp := by
  unfold State.resetWith
  cases s.portCall with
  | read k => exact dropBytes_suffix _ _
  | none | write => exact List.suffix_rfl

theorem step_inp_suffix (hstep : step s = .next t) (hd : s.driveInNext = false) : t.inp <:+ s.inp := by
  cases step_next hstep with
  | own _ _ hn => exact hn.inp_suffix
  | ownMoved l _ _ _ hn => exact hn.inp_suffix
  | driveIn evs l hc hh => exact absurd hd (by simp [State.driveInNext, hc, hh])
  | reset cut l => exact State.resetWith_inp_suffix cut { s with host := l }
  | read r l =>
    obtain ⟨v, n, -, e⟩ := hostRead_some r { s with host := l }
    rw [e]
  | lost | refused | encode | decode | written | driveOut | attachOut => exact List.suffix_rfl

/-- Settles O52, for each port by the kinds of step. -/
theorem portsNeverRolledBack : Obligations.PortsNeverRolledBack := fun _ _ hstep =>
  ⟨step_out_prefix hstep, step_inp_suffix hstep⟩

end Sys2Proof.Machine
end

section
/-! PROOF. Hardware reset (70_reset_and_hazards.md, R300, R301): what of the port call in flight has crossed. -/

namespace Sys2Proof.Machine

variable {s : State} (cut : Nat)

/-! ## The ports at a reset, for each kind of port call -/

theorem State.resetWith_out_of_write {b : Bytes} (h : s.portCall = .write b) :
    (s.resetWith cut).out = s.out ++ b.take cut := by
  simp only [State.resetWith, h]

theorem State.resetWith_out_of_not_write (h : ∀ b, s.portCall ≠ .write b) : (s.resetWith cut).out = s.out := by
  unfold State.resetWith
  cases hcall : s.portCall with
  | write b => exact absurd hcall (h b)
  | none | read => rfl

theorem State.resetWith_inp_of_read {k : Nat} (h : s.portCall = .read k) :
    (s.resetWith cut).inp = dropBytes (min cut k) s.inp := by
  simp only [State.resetWith, h]

theorem State.resetWith_inp_of_not_read (h : ∀ k, s.portCall ≠ .read k) : (s.resetWith cut).inp = s.inp := by
  unfold State.resetWith
  cases hcall : s.portCall with
  | read k => exact absurd hcall (h k)
  | none | write => rfl

/-- What a cut read uses up are bytes, never a listed failure or stall. -/
theorem dropBytes_splits (n : Nat) (evs : List InEvent) :
    ∃ b : Bytes, b.length ≤ n ∧ evs = b.map .byte ++ dropBytes n evs := by
  induction n generalizing evs with
  | zero => exact ⟨[], Nat.le_refl 0, rfl⟩
  | succ n ih =>
    match evs with
    | .byte x :: evs =>
      obtain ⟨b, hlen, hevs⟩ := ih evs
      exact ⟨x :: b, Nat.succ_le_succ hlen, congrArg (.byte x :: ·) hevs⟩
    | [] | .fail :: _ | .stall :: _ => exact ⟨[], Nat.zero_le _, rfl⟩

/-- No port call is in flight when no operation runs. -/
theorem portCall_of_rest (h : s.busy = false) : s.portCall = .none := by
  cases hp : s.phase <;> simp only [State.busy, hp, reduceCtorEq] at h <;> simp only [State.portCall, hp]

/-! ## The obligation -/

/-- Settles O46: the registers are those of the reset state, and each port follows the call in flight, which the host's
list of moves has no part in. -/
theorem resetEndsTheOperation : Obligations.ResetEndsTheOperation := by
  intro s cut h hc hh
  have hcall : State.portCall { s with host := h } = s.portCall := rfl
  have hout : (∀ b, s.portCall ≠ .write b) → (State.resetWith cut { s with host := h }).out = s.out :=
    State.resetWith_out_of_not_write (s := { s with host := h }) cut
  have hinp : (∀ k, s.portCall ≠ .read k) → (State.resetWith cut { s with host := h }).inp = s.inp :=
    State.resetWith_inp_of_not_read (s := { s with host := h }) cut
  obtain ⟨-, -, hstatus, -, -⟩ := resetLeavesTheFramerIdle
  refine ⟨_, step_of_move hc hh, rfl, rfl, hstatus, rfl, fun b hb => ?_, hout, fun k hk => ?_, hinp, fun hrest => ?_⟩
  · exact ⟨b.take cut, List.take_prefix _ _, State.resetWith_out_of_write cut (hcall.trans hb)⟩
  · obtain ⟨b, hlen, hsplit⟩ := dropBytes_splits (min cut k) s.inp
    refine ⟨b, hlen.trans (Nat.min_le_right _ _), ?_⟩
    exact hsplit.trans (congrArg (b.map .byte ++ ·) (State.resetWith_inp_of_read cut (hcall.trans hk)).symm)
  · have hnone := portCall_of_rest hrest
    exact ⟨hout fun b => by simp [hnone], hinp fun k => by simp [hnone]⟩

end Sys2Proof.Machine
end
